-- ==== Sys2Proof/Config.lean ====
section
/-! DEFINITION. What one engine fixes (spec 00_scope.md rule R7) and the free values, which the spec
leaves open: an opaque constant without a body, so that no proof can see what it is. -/

namespace Sys2Proof

/-- `SYMW`, the default width of one symbol in bits (rule R7, decision D5). -/
abbrev Config.symwDefault : Nat := 16

/-- `IDXW`, the default width of the code-index integer (rule R7, decision D6). -/
abbrev Config.idxwDefault : Nat := 32

/-- The largest value of the container's one-byte W field (`WFIELD`, rule R7). -/
abbrev Config.widthMax : Nat := 255

/-- The largest value of the container's paddingLength field (`PADFIELD`, rules R7 and R64). -/
abbrev Config.padMax : Nat := 7

/-- The largest value of the container's four-byte chartSize field (`CSFIELD`, rules R7 and R65). -/
abbrev Config.chartSizeMax : Nat := 4294967295

/-- `HDRLEN`, the length of the fixed container header in bytes (rule R7). -/
abbrev Config.hdrLen : Nat := 6

/-- The parameters of rule R7 that the spec lets a model take as arguments: `SYMW` (default 16), `IDXW`
(default 32) and the four capacities, which are `OPEN`. `none` stands for an unbounded capacity (rule
R58). The record stands in `State`, because `step` has no other argument; no step ever changes it (rule
R39). -/
structure Params where
  symw   : Nat
  idxw   : Nat
  txiCap : Option Nat
  ctoCap : Option Nat
  ctiCap : Option Nat
  txoCap : Option Nat
  deriving DecidableEq, Repr

/-- The parameters at their defaults: `SYMW = 16` (D5), `IDXW = 32` (D6), capacities unbounded (D17, rule
R58). DESIGN CHOICE (log 3). -/
def Params.default : Params :=
  { symw := Config.symwDefault, idxw := Config.idxwDefault,
    txiCap := none, ctoCap := none, ctiCap := none, txoCap := none }

/-- The value of element `index` of `TXI`, `symw` bits wide, where nothing has written it since reset
number `epoch` (rule R41: unspecified). Free value (log 5). -/
opaque Config.unwrittenTxi (symw epoch index : Nat) : BitVec symw
/-- The same for `TXO`. Free value (log 5). -/
opaque Config.unwrittenTxo (symw epoch index : Nat) : BitVec symw
/-- The same for `CTI`. Free value (log 5). -/
opaque Config.unwrittenCti (epoch index : Nat) : BitVec 8
/-- The same for `CTO`. Free value (log 5). -/
opaque Config.unwrittenCto (epoch index : Nat) : BitVec 8

/-- What the `n`-th open host read of `STATUS` returns (rule R25, "any value"), before its `BUSY` and
reserved bits are put in place. Free value (log 6). -/
opaque Config.freeStatus (n : Nat) : BitVec 16
/-- What the `n`-th open host read returns where it reads a symbol, `symw` bits wide (rule R25, "any
value"). Free value (log 6). -/
opaque Config.freeSymbol (symw n : Nat) : BitVec symw
/-- What the `n`-th open host read of a byte returns (rule R25, "any value"). Free value (log 6). -/
opaque Config.freeByte (n : Nat) : BitVec 8
/-- What the `n`-th open host read of a length register returns (rule R25, "any value"). Free value
(log 6). -/
opaque Config.freeLength (n : Nat) : Nat

end Sys2Proof
end

