-- ==== Sys2Proof/Word.lean ====
section
/-! DEFINITION. The element types of the engine (spec 00_scope.md rules R7 and R8). -/

namespace Sys2Proof

/-- A byte, `0 .. 255` (rule R8). -/
abbrev Byte := BitVec 8

/-- A symbol, "a natural number below `2^SYMW`" (rules R7 and R12). `SYMW` is a parameter, so the bound is
not in the type: `symbolFits` tests it, and the invariant of the machine keeps it. -/
abbrev Symbol := Nat

/-- A bit string, its first bit the most significant (rule R8); `true` is the bit 1. -/
abbrev Bits := List Bool

end Sys2Proof
end

