-- ==== Sys2Proof/Machine/Access.lean ====
section
/-! DEFINITION. What the host, the second agent, can do (spec 10_state.md rule R25), as plain data. -/

namespace Sys2Proof.Machine

/-- The four buffers of rule R42. -/
inductive BufName where
  | txi
  | cto
  | cti
  | txo
  deriving DecidableEq, Repr

/-- One host access to a register or buffer (rule R25), other than a `CMD` write. -/
inductive Access where
  | writeTxi (i : Nat) (v : Symbol)
  | writeTxiLen (n : Nat)
  | writeCti (i : Nat) (b : Byte)
  | writeCtiLen (n : Nat)
  | writeStatus (v : BitVec 16)
  | writeCto (i : Nat) (b : Byte)
  | writeCtoLen (n : Nat)
  | writeTxo (i : Nat) (v : Symbol)
  | writeTxoLen (n : Nat)
  | readStatus
  | readCmd
  | readTxi (i : Nat)
  | readTxiLen
  | readCto (i : Nat)
  | readCtoLen
  | readCti (i : Nat)
  | readCtiLen
  | readTxo (i : Nat)
  | readTxoLen
  deriving DecidableEq, Repr

/-- One entry of the host's sequence of actions, an input of the engine (rule R39) that the model takes as
the parameter `State.host`. A `CMD` write has two entries, because the spec lets a command be one step or
many (rule R128): `command` is a `CMD` write after which the host does nothing until `BUSY` reads 0; `start`
is a `CMD` write after which the host goes on acting while the command runs. -/
inductive HostEvent where
  /-- A read or write of rule R25. -/
  | access (a : Access)
  /-- A `CMD` write and the wait for the command's end: the whole command is one step. -/
  | command (mode : BitVec 1)
  /-- A `CMD` write alone: the start of rule R127, after which every engine step runs one stage. -/
  | start (mode : BitVec 1)
  /-- Assert and release reset (rules R173 and R174). -/
  | reset
  /-- The host stands back while the engine takes one step. -/
  | yield
  deriving DecidableEq, Repr

/-- `n` elements fit a buffer of capacity `cap` (rule R58; `none` is unbounded). -/
def withinCap (cap : Option Nat) (n : Nat) : Bool :=
  match cap with
  | none => true
  | some c => decide (n ≤ c)

/-- The capacity parameter of a buffer (rule R42). -/
def capOf (p : Params) : BufName → Option Nat
  | .txi => p.txiCap
  | .cto => p.ctoCap
  | .cti => p.ctiCap
  | .txo => p.txoCap

/-- The symbol is `SYMW` bits wide (rules R12 and R21). -/
def symbolFits (p : Params) (v : Symbol) : Bool := decide (v < 2 ^ p.symw)

/-- Element `i` of buffer `b` exists: `i` is below the capacity (rule R42). -/
def elementExists (p : Params) (b : BufName) (i : Nat) : Bool :=
  withinCap (capOf p b) (i + 1)

end Sys2Proof.Machine
end

