-- ==== Sys2Proof/Machine/State.lean ====
section
/-! DEFINITION. The architectural state of the engine (spec 10_state.md), why a step can stop, and the
state after reset. -/

namespace Sys2Proof.Machine

/-- The stage sequencer `STATUS.PHASE` (rules R19 and R60). -/
inductive Phase where
  | idle
  | extract
  | build
  | encode
  | pack
  | serialize
  | parse
  | unpack
  deriving DecidableEq, Repr

/-- The ten errors of spec 60_exceptions.md rule R153. With "no error" they are the eleven values of
`STATUS.ERRCODE`, a closed enumeration (rule R78). -/
inductive CodecError where
  | emptyInput
  | unmappedSymbol
  | truncatedHeader
  | truncatedChart
  | malformedChart
  | unknownCode
  | invalidHeader
  | alphabetTooLarge
  | widthOverflow
  | chartTooLarge
  deriving DecidableEq, Repr

/-- The register `STATUS` (rule R16) by its fields. `errcode = none` is the code 0x00. The reserved
bits 7:6 read 0 and hold nothing; the 16-bit view is `Status.word`. -/
structure Status where
  busy    : Bool
  done    : Bool
  err     : Bool
  phase   : Phase
  errcode : Option CodecError
  deriving DecidableEq, Repr

/-- A buffer's memory: pairs of an index and the element there, the indices strictly rising. An index
that is not listed has never been written and reads as no value. For bytes the pairs are
`Host.Cell`s. -/
abbrev Memory (α : Type) := List (Nat × α)

/-- A buffer with its length register (rules R21 to R24 and R42). The spec gives the length registers no
width, so they are natural numbers (rule R8). -/
structure Buffer (α : Type) where
  cells : Memory α
  len   : Nat
  deriving DecidableEq, Repr

/-- A buffer as reset leaves it: length 0, no element known (rule R41). -/
def Buffer.empty (α : Type) : Buffer α := { cells := [], len := 0 }

/-- Group C, the internal stores of the compression path (rules R26 to R32). -/
structure EncStores where
  /-- `ALPHA`, rule R26. -/
  alpha     : List Symbol
  /-- `ENC.W`, rule R27: a natural number with no upper bound. -/
  width     : Nat
  /-- `ETAB`, rule R28. -/
  table     : List (Symbol × Bits)
  /-- `BITS`, rule R29. -/
  bits      : Bits
  /-- `ENC.PAD`, rules R30 and R107: a 3-bit quantity. -/
  pad       : Fin 8
  /-- `PBITS`, rule R30. -/
  padded    : Bits
  /-- `PAYLOAD`, rule R31. -/
  payload   : List Byte
  /-- `CHART`, rule R32. -/
  chart     : List Byte
  /-- `ENC.CHARTSIZE`, rule R32. -/
  chartSize : Nat
  deriving DecidableEq, Repr

/-- Group C emptied (rules R37 and R41). -/
def EncStores.empty : EncStores :=
  { alpha := [], width := 0, table := [], bits := [], pad := 0, padded := [], payload := [],
    chart := [], chartSize := 0 }

/-- Group X, the internal stores of the decompression path (rules R33 to R36). -/
structure DecStores where
  /-- `DEC.W`, rule R33. -/
  width     : BitVec 8
  /-- `DEC.PAD`, rule R33. -/
  pad       : BitVec 8
  /-- `DEC.CHARTSIZE`, rule R33. -/
  chartSize : BitVec 32
  /-- `DTAB`, rule R34. -/
  table     : List (Bits × Symbol)
  /-- `DPAYLOAD`, rule R35. -/
  payload   : List Byte
  /-- `DBITS`, rule R36. -/
  bits      : Bits
  /-- `POS`, rule R36. -/
  pos       : Nat
  /-- `OUT`, rule R36. -/
  out       : List Symbol
  deriving DecidableEq, Repr

/-- Group X emptied (rules R37 and R41). -/
def DecStores.empty : DecStores :=
  { width := 0#8, pad := 0#8, chartSize := 0#32, table := [], payload := [], bits := [], pos := 0,
    out := [] }

/-- The value a host read returned, by the kind of what was read (rules R15, R16, R42). -/
inductive ReadValue where
  | status (v : BitVec 16)
  | cmd (v : BitVec 1)
  | symbol (v : Symbol)
  | byte (v : Byte)
  | length (n : Nat)
  deriving DecidableEq, Repr

/-- Why the machine stops with a fault. The engine's own ten errors are no faults: they end a command
and the machine goes on (rule R161). -/
inductive Fault where
  /-- Raised by UNPACK at width 0 when the empty window has an entry in the table: the window loop
  "would never advance" (rules R133, R186). PARSE lets no such state through. Safe. -/
  | windowNeverAdvances
  /-- Raised by UNPACK when there is more padding than payload bits: the length `8 * len - pad` of rule
  R118 would be negative (rule R149 (e)). PARSE lets no such state through. Safe. -/
  | paddingExceedsPayload
  deriving DecidableEq, Repr

/-- Why the machine gives a request no meaning (rule R11). -/
inductive Refusal where
  /-- Raised by an arm of `exec` that has no meaning yet. Safe. -/
  | notModelled (mnemonic : String)
  /-- Raised by a host access to element `i` of buffer `b` where `i` is not below the buffer's capacity:
  the index range that exists ends there (rule R42), and a text or container longer than its buffer is
  `refused` (rule R11). Safe: the machine stops where the spec gives nothing. -/
  | noSuchElement (b : BufName) (i : Nat)
  /-- Raised by a host write of the symbol `v` where `v` has more than `SYMW` bits: the host's write is
  typed and cannot carry it (rule R21). Safe. -/
  | symbolAboveWidth (v : Symbol)
  /-- Raised at the end of a command whose output would be longer than the capacity of its output buffer
  `b`: "the spec gives it no meaning" (rule R58). Safe. -/
  | outputExceedsCapacity (b : BufName)
  /-- Raised by a host write of an input length above the capacity of buffer `b`: the host cannot make it
  (rules R25, R58). Safe. -/
  | inputLengthExceedsCapacity (b : BufName)
  /-- Raised by `step` in a state with `BUSY = 1` and `PHASE = 0`: IDLE is no stage (rule R60). No run
  reaches one. Safe. -/
  | busyWithoutStage
  deriving DecidableEq, Repr

/-- Everything the spec gives the engine (rule R13), and six fields of the model's own: the parameters and
the host's sequence of actions, which no step changes (rule R39); how far the host has come in it; the
value of its last read; and two plain counters that select free values. `CMD` keeps no value (rule R15) and
has no field. -/
structure State where
  /-- The parameters of rule R7, an argument of the model (log 3). -/
  cfg       : Params
  /-- `STATUS`, rules R16 to R20. -/
  status    : Status
  /-- `TXI` and `TXI_LEN`, rule R21. -/
  txi       : Buffer Symbol
  /-- `CTO` and `CTO_LEN`, rule R22. -/
  cto       : Buffer Byte
  /-- `CTI` and `CTI_LEN`, rule R23. -/
  cti       : Buffer Byte
  /-- `TXO` and `TXO_LEN`, rule R24. -/
  txo       : Buffer Symbol
  /-- Group C. -/
  enc       : EncStores
  /-- Group X. -/
  dec       : DecStores
  /-- The host's sequence of actions, first one first: an input of the engine (rule R39), which no step
  changes (log 1). -/
  host      : List HostEvent
  /-- How many of its actions the host has taken; the model's own (log 1). -/
  hostPos   : Nat
  /-- What the host's last read returned; the model's own (log 1). -/
  readData  : Option ReadValue
  /-- How many resets there have been, which selects the values of unwritten elements (log 5). -/
  epoch     : Nat
  /-- How many open host reads there have been, which selects the next free value (log 6). -/
  freeCount : Nat
  deriving DecidableEq, Repr

/-- `STATUS` after reset, `0x0000` (rules R41 and R173). -/
def Status.reset : Status :=
  { busy := false, done := false, err := false, phase := .idle, errcode := none }

/-- The machine right after reset (rules R41 and R173), with the parameters at their defaults and no host
action waiting. -/
def State.reset : State :=
  { cfg := Params.default
    status := Status.reset
    txi := Buffer.empty Symbol
    cto := Buffer.empty Byte
    cti := Buffer.empty Byte
    txo := Buffer.empty Symbol
    enc := EncStores.empty
    dec := DecStores.empty
    host := []
    hostPos := 0
    readData := none
    epoch := 0
    freeCount := 0 }

end Sys2Proof.Machine
end

