-- ==== Sys2Proof/Machine/Operands.lean ====
section
/-! DEFINITION. The pure functions of spec 00_scope.md rule R9 and the assembly of every operand from
bits (spec 30_encoding.md rule R76). Every number is unsigned and every operation exact (rule R149). -/

namespace Sys2Proof.Machine

/-- The least `m` with `n ≤ m` and `k ≤ 2^m`, looking at `fuel` candidates. -/
def clog2From : Nat → Nat → Nat → Nat
  | 0, n, _ => n
  | fuel + 1, n, k => if k ≤ 2 ^ n then n else clog2From fuel (n + 1) k

/-- `clog2(k)`: the least `n` with `2^n >= k`, computed on integers (rules R9 and R149 (a)). Since
`2^k >= k`, `k` candidates are enough. -/
def clog2 (k : Nat) : Nat := clog2From k 0 k

/-- `bin_N(v)`: the `N` low bits of `v`, most significant first (rule R9, for `v < 2^N`). -/
def bin : Nat → Nat → Bits
  | 0, _ => []
  | n + 1, v => v.testBit n :: bin n v

/-- `minbin(v)`: the shortest bit string whose value is `v`, one bit for 0 (rule R9). -/
def minbin (v : Nat) : Bits := bin (max 1 (clog2 (v + 1))) v

/-- `val(b)`: the number a bit string denotes, first bit most significant (rule R9). -/
def val (b : Bits) : Nat := b.foldl (fun acc bit => 2 * acc + bit.toNat) 0

/-- `be32(n)`: four bytes, most significant first (rules R9 and R44). -/
def be32 (n : Nat) : List Byte :=
  [BitVec.ofNat 8 (n / 2 ^ 24), BitVec.ofNat 8 (n / 2 ^ 16 % 256), BitVec.ofNat 8 (n / 2 ^ 8 % 256),
    BitVec.ofNat 8 (n % 256)]

/-- `from_be32([b0, b1, b2, b3])` (rules R9 and R44). -/
def fromBe32 (b0 b1 b2 b3 : Byte) : Nat :=
  b0.toNat * 2 ^ 24 + b1.toNat * 2 ^ 16 + b2.toNat * 2 ^ 8 + b3.toNat

/-- `ceil(a / b)` for naturals (rule R9). -/
def ceilDiv (a b : Nat) : Nat := (a + b - 1) / b

/-- The code width of an alphabet of `k` symbols, `max(1, clog2(k))` (rule R90). -/
def codeWidth (k : Nat) : Nat := max 1 (clog2 k)

/-- `paddingLength` for a sequence of `n` bits, `(8 - (n mod 8)) mod 8` (rule R100). -/
def padLength (n : Nat) : Fin 8 := ⟨(8 - n % 8) % 8, Nat.mod_lt _ (by decide)⟩

/-- The byte of eight bits, first bit most significant (rules R45, R75, R101). -/
def byteOfBits (chunk : Bits) : Byte := BitVec.ofNat 8 (val chunk)

/-- The eight bits of a byte, most significant first (rules R45 and R119). -/
def bitsOfByte (b : Byte) : Bits := bin 8 b.toNat

/-- The symbol a chart value denotes (rule R72); a value of at most `SYMW` bits is below `2^SYMW`. -/
def symbolOfBits (v : Bits) : Symbol := val v

/-- The chart value of a symbol, `minbin(s)` (rules R70 and R71). -/
def bitsOfSymbol (s : Symbol) : Bits := minbin s

/-- `lookup_code(ETAB, s)`: the code of the first pair whose symbol is `s` (rule R96). -/
def lookupCode : List (Symbol × Bits) → Symbol → Option Bits
  | [], _ => none
  | (t, c) :: rest, s => if t = s then some c else lookupCode rest s

/-- `lookup_symbol(DTAB, w)`: the symbol of the pair whose code is `w` bit for bit (rule R122). -/
def lookupSymbol : List (Bits × Symbol) → Bits → Option Symbol
  | [], _ => none
  | (c, s) :: rest, w => if c = w then some s else lookupSymbol rest w

end Sys2Proof.Machine
end

