-- ==== Sys2Proof/Machine/Flags.lean ====
section
/-! DEFINITION. `STATUS`: its encodings (spec 30_encoding.md rules R60 and R61, 60_exceptions.md rule
R153), its 16-bit view (10_state.md rule R16), and the values a command's start and end give it
(47_commands.md rules R127, R129, R130). No other flag exists (rule R18). -/

namespace Sys2Proof.Machine

/-- The stage codes of rule R60. -/
def Phase.code : Phase → BitVec 3
  | .idle => 0#3
  | .extract => 1#3
  | .build => 2#3
  | .encode => 3#3
  | .pack => 4#3
  | .serialize => 5#3
  | .parse => 6#3
  | .unpack => 7#3

/-- The stage of a code; all eight values are assigned (rule R60). -/
def phaseOfCode (c : BitVec 3) : Phase :=
  if c = 1#3 then .extract
  else if c = 2#3 then .build
  else if c = 3#3 then .encode
  else if c = 4#3 then .pack
  else if c = 5#3 then .serialize
  else if c = 6#3 then .parse
  else if c = 7#3 then .unpack
  else .idle

/-- The error codes of rule R153. -/
def CodecError.code : CodecError → BitVec 8
  | .emptyInput => 0x11#8
  | .unmappedSymbol => 0x12#8
  | .truncatedHeader => 0x21#8
  | .truncatedChart => 0x22#8
  | .malformedChart => 0x23#8
  | .unknownCode => 0x24#8
  | .invalidHeader => 0x25#8
  | .alphabetTooLarge => 0x31#8
  | .widthOverflow => 0x32#8
  | .chartTooLarge => 0x33#8

/-- The value of `ERRCODE`: 0 is no error (rules R20 and R61). -/
def errCode : Option CodecError → BitVec 8
  | none => 0x00#8
  | some e => e.code

/-- The class of an error, `ERRCODE` bits 7:4 (rules R61 and R154): 1 InputError, 2 FormatError,
3 CapacityError. -/
def CodecError.errClass (e : CodecError) : BitVec 4 := e.code.extractLsb' 4 4

/-- Which stages raise an error (rule R153, column "raised by"). -/
def CodecError.raisedBy : CodecError → Phase → Bool
  | .emptyInput, p => p = .extract || p = .build
  | .unmappedSymbol, p => p = .encode
  | .truncatedHeader, p => p = .parse
  | .truncatedChart, p => p = .parse
  | .malformedChart, p => p = .parse
  | .unknownCode, p => p = .unpack
  | .invalidHeader, p => p = .parse
  | .alphabetTooLarge, p => p = .build
  | .widthOverflow, p => p = .serialize
  | .chartTooLarge, p => p = .serialize

/-- `STATUS` as the host reads it (rule R16): `ERRCODE` in 15:8, 7:6 zero, `PHASE` in 5:3, then `ERR`,
`DONE`, `BUSY`. -/
def Status.word (s : Status) : BitVec 16 :=
  errCode s.errcode ++ 0#2 ++ s.phase.code ++ BitVec.ofBool s.err ++ BitVec.ofBool s.done
    ++ BitVec.ofBool s.busy

/-- What a `STATUS` read returns while `BUSY = 1` (rule R25): `BUSY` is 1, the reserved bits 7:6 read 0
(rule R16), every other field is any value. -/
def busyStatusWord (free : BitVec 16) : BitVec 16 := (free &&& 0xFF3F#16) ||| 0x0001#16

/-- `STATUS` at the start of a command whose first stage is `p` (rule R127). -/
def Status.started (p : Phase) : Status :=
  { busy := true, done := false, err := false, phase := p, errcode := none }

/-- `STATUS` at an end `done` (rule R129): `DONE` is set, `PHASE` is 0, `BUSY` is cleared, `ERR` and
`ERRCODE` stay. -/
def Status.finished (s : Status) : Status :=
  { s with busy := false, done := true, phase := .idle }

/-- `STATUS` at an end `error` (rules R130 and R161): `ERR` and `ERRCODE` are set, `BUSY` is cleared,
`PHASE` and `DONE` stay. -/
def Status.failed (s : Status) (e : CodecError) : Status :=
  { s with busy := false, err := true, errcode := some e }

end Sys2Proof.Machine
end

