-- ==== Sys2Proof/Machine/Ops.lean ====
section
/-! DEFINITION. The named operations over memory and state: reading and writing a buffer, a command's
start, its end `done`, and its end `error`, which is the engine's only form of trap entry (spec
60_exceptions.md rule R161). -/

namespace Sys2Proof.Machine

/-- One step's outcome. -/
abbrev Outcome := Host.Outcome State Fault Refusal

/-- The indices of a memory strictly rise; no two entries have one index. -/
def Memory.wf {α : Type} : Memory α → Bool
  | [] => true
  | [_] => true
  | (a, _) :: (b, y) :: rest => decide (a < b) && Memory.wf ((b, y) :: rest)

/-- Element `i`, or no value where nothing has written it. -/
def Memory.read {α : Type} : Memory α → Nat → Option α
  | [], _ => none
  | (a, v) :: rest, i => if a = i then some v else Memory.read rest i

/-- Write element `i`, keeping the indices in order. -/
def Memory.write {α : Type} : Memory α → Nat → α → Memory α
  | [], i, v => [(i, v)]
  | (a, x) :: rest, i, v =>
    if i < a then (i, v) :: (a, x) :: rest
    else if i = a then (i, v) :: rest
    else (a, x) :: Memory.write rest i v

/-- `MemWrite(BUF:n, len(v), v)` into a memory that holds nothing (rules R10 and R129). -/
def Memory.ofList {α : Type} : Nat → List α → Memory α
  | _, [] => []
  | n, v :: rest => (n, v) :: Memory.ofList (n + 1) rest

/-- A buffer that holds exactly the elements `v` (rule R129). -/
def Buffer.holding {α : Type} (v : List α) : Buffer α :=
  { cells := Memory.ofList 0 v, len := v.length }

/-- Element `i` of a buffer; where nothing has written it, the free value `unwritten i`. -/
def Buffer.elem {α : Type} (b : Buffer α) (unwritten : Nat → α) (i : Nat) : α :=
  match Memory.read b.cells i with
  | some v => v
  | none => unwritten i

/-- `MemRead(BUF:0, LEN)` (rule R10): the elements below the length, and no other (rule R53). -/
def Buffer.contents {α : Type} (b : Buffer α) (unwritten : Nat → α) : List α :=
  (List.range b.len).map (b.elem unwritten)

/-- What an unwritten element of `TXI` holds, a free value (log 5). -/
def State.unwrittenTxi (s : State) (i : Nat) : Symbol :=
  (Config.unwrittenTxi s.cfg.symw s.epoch i).toNat
/-- What an unwritten element of `TXO` holds, a free value (log 5). -/
def State.unwrittenTxo (s : State) (i : Nat) : Symbol :=
  (Config.unwrittenTxo s.cfg.symw s.epoch i).toNat

/-- `TXI[i]` (rule R21). -/
def State.txiElem (s : State) (i : Nat) : Symbol := s.txi.elem s.unwrittenTxi i
/-- `CTI[i]` (rule R23). -/
def State.ctiElem (s : State) (i : Nat) : Byte := s.cti.elem (Config.unwrittenCti s.epoch) i
/-- `CTO[i]` (rule R22). -/
def State.ctoElem (s : State) (i : Nat) : Byte := s.cto.elem (Config.unwrittenCto s.epoch) i
/-- `TXO[i]` (rule R24). -/
def State.txoElem (s : State) (i : Nat) : Symbol := s.txo.elem s.unwrittenTxo i

/-- `TXI[0 .. TXI_LEN)`, the text to compress (rule R21). -/
def State.text (s : State) : List Symbol := s.txi.contents s.unwrittenTxi
/-- `CTI[0 .. CTI_LEN)`, the container to decompress (rule R23). -/
def State.input (s : State) : List Byte := s.cti.contents (Config.unwrittenCti s.epoch)
/-- `CTO[0 .. CTO_LEN)`, the container COMPRESS produced (rule R22). -/
def State.container (s : State) : List Byte := s.cto.contents (Config.unwrittenCto s.epoch)
/-- `TXO[0 .. TXO_LEN)`, the text DECOMPRESS produced (rule R24). -/
def State.decoded (s : State) : List Symbol := s.txo.contents s.unwrittenTxo

/-- Writes of one field of the state; each leaves every other field alone. -/
def State.setStatus (s : State) (x : Status) : State := { s with status := x }
/-- Write `TXI` and `TXI_LEN`. -/
def State.setTxi (s : State) (x : Buffer Symbol) : State := { s with txi := x }
/-- Write `CTO` and `CTO_LEN`. -/
def State.setCto (s : State) (x : Buffer Byte) : State := { s with cto := x }
/-- Write `CTI` and `CTI_LEN`. -/
def State.setCti (s : State) (x : Buffer Byte) : State := { s with cti := x }
/-- Write `TXO` and `TXO_LEN`. -/
def State.setTxo (s : State) (x : Buffer Symbol) : State := { s with txo := x }
/-- Write group C. -/
def State.setEnc (s : State) (x : EncStores) : State := { s with enc := x }
/-- Write group X. -/
def State.setDec (s : State) (x : DecStores) : State := { s with dec := x }
/-- Give the host another sequence of actions; no step does it. -/
def State.setHost (s : State) (x : List HostEvent) : State := { s with host := x }
/-- Move the host to action number `n` of its sequence. -/
def State.setHostPos (s : State) (n : Nat) : State := { s with hostPos := n }
/-- Record what a host read returned. -/
def State.setRead (s : State) (x : ReadValue) : State := { s with readData := some x }
/-- Use up one free value (log 6). -/
def State.nextFree (s : State) : State := { s with freeCount := s.freeCount + 1 }

/-- `PHASE <- p` (rules R10 and R19). -/
def setPhase (p : Phase) (s : State) : State := s.setStatus { s.status with phase := p }

/-- The start of COMPRESS (rule R127): `STATUS`, `CTO_LEN <- 0`, group C emptied. The elements of `CTO`
are above the new length and so unspecified (log 5). -/
def startCompress (s : State) : State :=
  ((s.setStatus (Status.started .extract)).setCto (Buffer.empty Byte)).setEnc EncStores.empty

/-- The start of DECOMPRESS (rule R127): `STATUS`, `TXO_LEN <- 0`, group X emptied. -/
def startDecompress (s : State) : State :=
  ((s.setStatus (Status.started .parse)).setTxo (Buffer.empty Symbol)).setDec DecStores.empty

/-- The abort sequence of rules R130 and R161, the engine's only form of trap entry: `ERRCODE` and `ERR`
are set, `BUSY` is cleared, `PHASE` keeps the raising stage's code, the output length stays 0 as the start
left it. Nothing is saved and control goes nowhere. -/
def raiseError (e : CodecError) (s : State) : State := s.setStatus (s.status.failed e)

/-- The end `done` of COMPRESS (rule R129): commit the container to `CTO` and `CTO_LEN`, then the status.
A container longer than `CTO_CAP` is refused (rule R58). -/
def commitContainer (c : List Byte) (s : State) : Outcome :=
  if withinCap s.cfg.ctoCap c.length then
    .next ((s.setCto (Buffer.holding c)).setStatus s.status.finished)
  else .refused (.outputExceedsCapacity .cto)

/-- The end `done` of DECOMPRESS (rule R129): commit the text to `TXO` and `TXO_LEN`, then the status.
A text longer than `TXO_CAP` is refused (rule R58). -/
def commitText (t : List Symbol) (s : State) : Outcome :=
  if withinCap s.cfg.txoCap t.length then
    .next ((s.setTxo (Buffer.holding t)).setStatus s.status.finished)
  else .refused (.outputExceedsCapacity .txo)

/-- What a stage leaves in the stores of its path, and the error it raised, if any. A raise ends the stage
at once: the statements before it have been performed, those after it have not (rule R10). -/
structure StageResult (σ : Type) where
  stores : σ
  raised : Option CodecError
  deriving DecidableEq, Repr

/-- The end of a stage of COMPRESS: write the stores, then either take the error or go on (rule R160). -/
def endEncStage (r : StageResult EncStores) (s : State) (go : State → Outcome) : Outcome :=
  match r.raised with
  | none => go (s.setEnc r.stores)
  | some e => .next (raiseError e (s.setEnc r.stores))

/-- The end of a stage of DECOMPRESS. -/
def endDecStage (r : StageResult DecStores) (s : State) (go : State → Outcome) : Outcome :=
  match r.raised with
  | none => go (s.setDec r.stores)
  | some e => .next (raiseError e (s.setDec r.stores))

/-- A stage's completion advances `PHASE` to the next stage (rule R19). -/
def advanceTo (p : Phase) (s : State) : Outcome := .next (setPhase p s)

/-- Run a later stage of a command, unless an earlier one has ended it (rules R132, R160): a command that
has ended has `BUSY = 0`. -/
def thenStage (o : Outcome) (stage : State → Outcome) : Outcome :=
  match o with
  | .next s => if s.status.busy then stage s else .next s
  | .fault f => .fault f
  | .refused r => .refused r

/-- Reset (rules R41, R173, R174): every piece of the engine's state takes its reset value, whatever was
running. The parameters and the host's own fields are not the engine's; the unwritten elements take new
free values, since nothing may be assumed to survive (rule R175). -/
def resetEngine (s : State) : State :=
  { State.reset with
    cfg := s.cfg
    host := s.host
    hostPos := s.hostPos
    readData := s.readData
    epoch := s.epoch + 1
    freeCount := s.freeCount }

end Sys2Proof.Machine
end

