-- ==== Sys2Proof/Machine/Build.lean ====
section
/-! DEFINITION. Stage BUILD, the Code Table Builder (spec 42_code_table_builder.md). -/

namespace Sys2Proof.Machine

/-- The loop of rule R89 from index `i` on: symbol number `i` gets the code `bin_W(i)` (rule R91). -/
def assignCodes (w : Nat) : Nat → List Symbol → List (Symbol × Bits)
  | _, [] => []
  | i, s :: rest => (s, bin w i) :: assignCodes w (i + 1) rest

/-- The work of BUILD (rule R89): empty alphabet (rule R93), then the width against `IDXW` (rule R92),
both before anything is written. -/
def buildStage (idxw : Nat) (e : EncStores) : StageResult EncStores :=
  if e.alpha.length = 0 then { stores := e, raised := some .emptyInput }
  else if idxw ≤ codeWidth e.alpha.length then { stores := e, raised := some .alphabetTooLarge }
  else
    { stores :=
        { e with
          width := codeWidth e.alpha.length
          table := assignCodes (codeWidth e.alpha.length) 0 e.alpha }
      raised := none }

/-- BUILD (rule R89); its completion advances `PHASE` to ENCODE (rule R19). -/
def execBuild (s : State) : Outcome :=
  endEncStage (buildStage s.cfg.idxw s.enc) s (advanceTo .encode)

end Sys2Proof.Machine
end

