-- ==== Sys2Proof/Machine/Extract.lean ====
section
/-! DEFINITION. Stage EXTRACT, the Alphabet Extractor (spec 41_alphabet_extractor.md). -/

namespace Sys2Proof.Machine

/-- The loop of rule R85 from an alphabet `alpha` on: each symbol not yet there is appended. -/
def extractFrom : List Symbol → List Symbol → List Symbol
  | alpha, [] => alpha
  | alpha, s :: rest => extractFrom (if s ∈ alpha then alpha else alpha ++ [s]) rest

/-- The alphabet of a text: its distinct symbols in the order of their first occurrence (rule R86). -/
def alphabetOf (text : List Symbol) : List Symbol := extractFrom [] text

/-- The work of EXTRACT (rules R85 and R87): the length is tested before anything is written. -/
def extractStage (text : List Symbol) (e : EncStores) : StageResult EncStores :=
  if text.length = 0 then { stores := e, raised := some .emptyInput }
  else { stores := { e with alpha := alphabetOf text }, raised := none }

/-- EXTRACT (rule R85); its completion advances `PHASE` to BUILD (rule R19). -/
def execExtract (s : State) : Outcome :=
  endEncStage (extractStage s.text s.enc) s (advanceTo .build)

end Sys2Proof.Machine
end

