-- ==== Sys2Proof/Machine/Pack.lean ====
section
/-! DEFINITION. Stages ENCODE and PACK, the Bit Packer (spec 43_bit_packer.md). -/

namespace Sys2Proof.Machine

/-- The loop of rule R95: the codes of the symbols, concatenated, up to the first symbol without an entry. -/
def encodeText (table : List (Symbol × Bits)) : List Symbol → Bits
  | [] => []
  | s :: rest =>
    match lookupCode table s with
    | none => []
    | some c => c ++ encodeText table rest

/-- Every symbol of the text has an entry (rule R97). -/
def allMapped (table : List (Symbol × Bits)) (text : List Symbol) : Bool :=
  text.all fun s => (lookupCode table s).isSome

/-- The work of ENCODE (rules R95 and R97). -/
def encodeStage (text : List Symbol) (e : EncStores) : StageResult EncStores :=
  { stores := { e with bits := encodeText e.table text }
    raised := if allMapped e.table text then none else some .unmappedSymbol }

/-- ENCODE (rule R95); its completion advances `PHASE` to PACK (rule R19). -/
def execEncode (s : State) : Outcome :=
  endEncStage (encodeStage s.text s.enc) s (advanceTo .pack)

/-- The bits with `ENC.PAD` 0 bits appended (rule R100). -/
def padBits (b : Bits) : Bits := b ++ List.replicate (padLength b.length).val false

/-- The first `n` chunks of eight bits, each as one byte (rules R99 and R101). -/
def packBytes : Nat → Bits → List Byte
  | 0, _ => []
  | n + 1, b => byteOfBits (b.take 8) :: packBytes n (b.drop 8)

/-- The work of PACK (rule R99), which cannot fail. -/
def packStage (e : EncStores) : StageResult EncStores :=
  { stores :=
      { e with
        pad := padLength e.bits.length
        padded := padBits e.bits
        payload := packBytes ((padBits e.bits).length / 8) (padBits e.bits) }
    raised := none }

/-- PACK (rule R99); its completion advances `PHASE` to SERIALIZE (rule R19). -/
def execPack (s : State) : Outcome :=
  endEncStage (packStage s.enc) s (advanceTo .serialize)

end Sys2Proof.Machine
end

