-- ==== Sys2Proof/Machine/Chart.lean ====
section
/-! DEFINITION. The chart text (spec 30_encoding.md rules R69 to R74): its writer `chart_text` and its
reader `parse_chart`. -/

namespace Sys2Proof.Machine

/-- The seven characters of a chart (rule R73, from general knowledge: ASCII). -/
def asciiLBrace : Byte := 0x7B#8
/-- The closing brace. -/
def asciiRBrace : Byte := 0x7D#8
/-- `DQ`, the double quote. -/
def asciiQuote : Byte := 0x22#8
/-- The colon. -/
def asciiColon : Byte := 0x3A#8
/-- The comma. -/
def asciiComma : Byte := 0x2C#8
/-- The characters `0` and `1`. -/
def asciiBit (b : Bool) : Byte := if b then 0x31#8 else 0x30#8

/-- A bit string as text, one character per bit, first bit first (rules R47 and R71). -/
def bitText (b : Bits) : List Byte := b.map asciiBit

/-- One entry: the code, all its bits, then the symbol in its shortest form (rules R70 and R71). -/
def entryText (e : Symbol × Bits) : List Byte :=
  [asciiQuote] ++ bitText e.2 ++ [asciiQuote, asciiColon, asciiQuote] ++ bitText (bitsOfSymbol e.1)
    ++ [asciiQuote]

/-- The entries in table order, one comma between consecutive ones (rule R70). -/
def entriesText : List (Symbol × Bits) → List Byte
  | [] => []
  | [e] => entryText e
  | e :: e' :: rest => entryText e ++ [asciiComma] ++ entriesText (e' :: rest)

/-- `chart_text(ETAB)` (rule R70). -/
def chartText (table : List (Symbol × Bits)) : List Byte :=
  [asciiLBrace] ++ entriesText table ++ [asciiRBrace]

/-- `expect(ch)` (rule R72): the rest after the character `ch`. -/
def expectByte (ch : Byte) : List Byte → Option (List Byte)
  | [] => none
  | b :: rest => if b = ch then some rest else none

/-- `bits()` (rule R72): the longest run of characters `0` and `1`, as bits. -/
def readBits : List Byte → Bits
  | [] => []
  | b :: rest =>
    if b = asciiBit false then false :: readBits rest
    else if b = asciiBit true then true :: readBits rest
    else []

/-- What stands after the run that `bits()` takes (rule R72). -/
def afterBits : List Byte → List Byte
  | [] => []
  | b :: rest => if b = asciiBit false ∨ b = asciiBit true then afterBits rest else b :: rest

/-- One entry of the grammar of rule R69, less the conditions on its lengths: key, value, rest. -/
def readEntry (c : List Byte) : Option (Bits × Bits × List Byte) :=
  (expectByte asciiQuote c).bind fun c1 =>
  (expectByte asciiQuote (afterBits c1)).bind fun c2 =>
  (expectByte asciiColon c2).bind fun c3 =>
  (expectByte asciiQuote c3).bind fun c4 =>
  (expectByte asciiQuote (afterBits c4)).bind fun c5 =>
  some (readBits c1, readBits c4, c5)

/-- Condition (c) of rule R72: 1 to `SYMW` characters, and no leading `0` but in `0` itself. -/
def valueCanonical (symw : Nat) (v : Bits) : Bool :=
  decide (1 ≤ v.length) && decide (v.length ≤ symw)
    && (decide (v.length = 1) || v.head? == some true)

/-- Condition (d) of rule R72 fails: some pair of the table has this code. -/
def hasKey (table : List (Bits × Symbol)) (key : Bits) : Bool := table.any fun e => e.1 == key

/-- The `repeat` loop of rule R72 from a state with table `table` and rest `c`. Every turn takes at least
one character, so as many turns as there are characters are enough. -/
def readEntries (symw w : Nat) : Nat → List (Bits × Symbol) → List Byte →
    Option (List (Bits × Symbol) × List Byte)
  | 0, _, _ => none
  | fuel + 1, table, c =>
    match readEntry c with
    | none => none
    | some (key, v, rest) =>
      if key.length = w ∧ valueCanonical symw v = true ∧ hasKey table key = false then
        match expectByte asciiComma rest with
        | some rest' => readEntries symw w fuel (table ++ [(key, symbolOfBits v)]) rest'
        | none =>
          match expectByte asciiRBrace rest with
          | some rest' => some (table ++ [(key, symbolOfBits v)], rest')
          | none => none
      else none

/-- What stands between the opening brace and the end: `}` at once, or entries and `}` (rule R72). -/
def readBody (symw w : Nat) (c : List Byte) : Option (List (Bits × Symbol) × List Byte) :=
  match expectByte asciiRBrace c with
  | some rest => some ([], rest)
  | none => readEntries symw w c.length [] c

/-- `parse_chart(c, W)` (rule R72) with symbols of `symw` bits; `none` stands for MalformedChartError. -/
def parseChart (symw : Nat) (c : List Byte) (w : Nat) : Option (List (Bits × Symbol)) :=
  match expectByte asciiLBrace c with
  | none => none
  | some body =>
    match readBody symw w body with
    | some (table, []) => some table
    | some (_, _ :: _) => none
    | none => none

end Sys2Proof.Machine
end

