-- ==== Sys2Proof/Machine/Parse.lean ====
section
/-! DEFINITION. Stage PARSE, the Container Parser (spec 45_container_parser.md). -/

namespace Sys2Proof.Machine

/-- Byte `i` of the container in `CTI`; only asked for where `i` is below the length (rule R53). -/
def byteAt (c : List Byte) (i : Nat) : Byte := c.getD i 0#8

/-- The three header fields written (rule R111). -/
def DecStores.withHeader (d : DecStores) (c : List Byte) : DecStores :=
  { d with
    width := byteAt c 0
    pad := byteAt c 1
    chartSize := BitVec.ofNat 32 (fromBe32 (byteAt c 2) (byteAt c 3) (byteAt c 4) (byteAt c 5)) }

/-- The chart region of a container whose chartSize is `n` (rule R114). -/
def chartRegion (c : List Byte) (n : Nat) : List Byte := (c.drop Config.hdrLen).take n

/-- The payload of a container whose chartSize is `n`: all the bytes that remain (rule R114). -/
def payloadRegion (c : List Byte) (n : Nat) : List Byte := c.drop (Config.hdrLen + n)

/-- PARSE from the slicing of the chart on (rules R114 to R116), with the header in the stores. -/
def parseBody (symw : Nat) (c : List Byte) (d : DecStores) : StageResult DecStores :=
  let sliced := { d with payload := payloadRegion c d.chartSize.toNat }
  if sliced.payload.length = 0 ∧ sliced.pad.toNat ≠ 0 then
    { stores := sliced, raised := some .invalidHeader }
  else
    match parseChart symw (chartRegion c d.chartSize.toNat) d.width.toNat with
    | none => { stores := sliced, raised := some .malformedChart }
    | some table => { stores := { sliced with table := table }, raised := none }

/-- The work of PARSE on the bytes `c` (rule R109), its tests in the order of rule R117. The sum
`6 + chartSize` is a natural number and does not wrap (rule R113). -/
def parseStage (symw : Nat) (c : List Byte) (d : DecStores) : StageResult DecStores :=
  if c.length < Config.hdrLen then { stores := d, raised := some .truncatedHeader }
  else
    let h := d.withHeader c
    if h.width = 0#8 ∨ Config.padMax < h.pad.toNat then { stores := h, raised := some .invalidHeader }
    else if c.length < Config.hdrLen + h.chartSize.toNat then
      { stores := h, raised := some .truncatedChart }
    else parseBody symw c h

/-- PARSE (rule R109); its completion advances `PHASE` to UNPACK (rule R19). -/
def execParse (s : State) : Outcome :=
  endDecStage (parseStage s.cfg.symw s.input s.dec) s (advanceTo .unpack)

end Sys2Proof.Machine
end

