-- ==== Sys2Proof/Machine/Serialize.lean ====
section
/-! DEFINITION. Stage SERIALIZE, the Container Serializer (spec 44_container_serializer.md). -/

namespace Sys2Proof.Machine

/-- The container of five fields in fixed order (rules R62 and R104). -/
def containerBytes (w pad chartSize : Nat) (chart payload : List Byte) : List Byte :=
  [BitVec.ofNat 8 w] ++ [BitVec.ofNat 8 pad] ++ be32 chartSize ++ chart ++ payload

/-- The container of the stores SERIALIZE has filled (rule R103). -/
def EncStores.container (e : EncStores) : List Byte :=
  containerBytes e.width e.pad.val e.chartSize e.chart e.payload

/-- The stores with the chart and its length written (rule R103). -/
def EncStores.withChart (e : EncStores) : EncStores :=
  { e with chart := chartText e.table, chartSize := (chartText e.table).length }

/-- The work of SERIALIZE (rule R103): the width first, before anything is written (rule R105), then the
chart's length (rules R106 and R107). -/
def serializeStage (e : EncStores) : StageResult EncStores :=
  if Config.widthMax < e.width then { stores := e, raised := some .widthOverflow }
  else if Config.chartSizeMax < e.withChart.chartSize then
    { stores := e.withChart, raised := some .chartTooLarge }
  else { stores := e.withChart, raised := none }

/-- SERIALIZE (rule R103), the last stage of COMPRESS: its completion is the command's end `done`, which
commits the container (rule R129). -/
def execSerialize (s : State) : Outcome :=
  endEncStage (serializeStage s.enc) s fun t => commitContainer t.enc.container t

end Sys2Proof.Machine
end

