-- ==== Sys2Proof/Machine/Unpack.lean ====
section
/-! DEFINITION. Stage UNPACK, the Bit Unpacker / Decoder (spec 46_bit_unpacker.md). -/

namespace Sys2Proof.Machine

/-- Every payload byte as its eight bits, concatenated (rule R119). -/
def expandBytes : List Byte → Bits
  | [] => []
  | b :: rest => bitsOfByte b ++ expandBytes rest

/-- `Lt`, the number of bits left when the padding is removed (rule R120). -/
def DecStores.bitLength (d : DecStores) : Nat := 8 * d.payload.length - d.pad.toNat

/-- `DBITS`: the first `Lt` bits (rule R120). -/
def DecStores.unpadded (d : DecStores) : Bits := (expandBytes d.payload).take d.bitLength

/-- The window loop of rule R121 over the next `n` windows of `w` bits: the symbols decoded up to the first
window that has no entry (rule R122). Bits after the last whole window are dropped (rule R123). -/
def decodeWindows (table : List (Bits × Symbol)) (w : Nat) : Nat → Bits → List Symbol
  | 0, _ => []
  | n + 1, b =>
    match lookupSymbol table (b.take w) with
    | none => []
    | some s => s :: decodeWindows table w n (b.drop w)

/-- The number of whole windows, `Lt div W` (rule R121). -/
def DecStores.windowCount (d : DecStores) : Nat := d.bitLength / d.width.toNat

/-- The symbols of the windows, up to the first window without an entry. -/
def DecStores.decoding (d : DecStores) : List Symbol :=
  decodeWindows d.table d.width.toNat d.windowCount d.unpadded

/-- The work of UNPACK (rule R118) where `W >= 1` and the padding does not exceed the payload. A window
without an entry ends the loop before the last window. -/
def unpackStage (d : DecStores) : StageResult DecStores :=
  { stores :=
      { d with
        bits := d.unpadded
        pos := d.width.toNat * d.decoding.length
        out := d.decoding }
    raised := if d.decoding.length = d.windowCount then none else some .unknownCode }

/-- UNPACK at width 0, which PARSE never lets through (rule R112): the first window is empty; without an
entry it raises UnknownCodeError, with one the loop "would never advance" (rules R133, R186). -/
def unpackWidthZero (s : State) : Outcome :=
  match lookupSymbol s.dec.table [] with
  | none =>
    .next (raiseError .unknownCode
      (s.setDec { s.dec with bits := s.dec.unpadded, pos := 0, out := [] }))
  | some _ => .fault .windowNeverAdvances

/-- UNPACK (rule R118), the last stage of DECOMPRESS: its completion is the command's end `done`, which
commits the text (rule R129). PARSE guarantees `W >= 1` and `pad <= 8 * len(payload)`; a state where the
second fails has no length `Lt` (rule R149 (e)) and stops. -/
def execUnpack (s : State) : Outcome :=
  if 8 * s.dec.payload.length < s.dec.pad.toNat then .fault .paddingExceedsPayload
  else if s.dec.width = 0#8 then unpackWidthZero s
  else endDecStage (unpackStage s.dec) s fun t => commitText t.dec.out t

end Sys2Proof.Machine
end

