-- ==== Sys2Proof/Machine/Commands.lean ====
section
/-! DEFINITION. The commands COMPRESS and DECOMPRESS (spec 47_commands.md). -/

namespace Sys2Proof.Machine

/-- The compression path from its first stage to its end (rules R125 and R132). -/
def runCompress (s : State) : Outcome :=
  thenStage (thenStage (thenStage (thenStage (thenStage (.next s) execExtract) execBuild) execEncode)
    execPack) execSerialize

/-- The decompression path from its first stage to its end (rules R126 and R132). -/
def runDecompress (s : State) : Outcome :=
  thenStage (thenStage (.next s) execParse) execUnpack

/-- COMPRESS (rule R125) as one atomic step, from the `CMD` write to the end `done` or `error` (rule R128).
While `BUSY = 1` the write is ignored (rule R131). -/
def execCompress (s : State) : Outcome :=
  if s.status.busy then .next s else runCompress (startCompress s)

/-- DECOMPRESS (rule R126) as one atomic step (rule R128). While `BUSY = 1` the write is ignored (rule
R131). -/
def execDecompress (s : State) : Outcome :=
  if s.status.busy then .next s else runDecompress (startDecompress s)

end Sys2Proof.Machine
end

