-- ==== Sys2Proof/Syntax.lean ====
section
/-! DEFINITION. The nine rows of spec/opcode_table.json (spec 30_encoding.md rule R84): two commands a
host can issue, and seven stages, which are the units of meaning and of error reporting. -/

namespace Sys2Proof

/-- One constructor per row of the opcode table. No row has an operand field (rule R59): a command's
operands are the buffers its rule names, a stage's are the stores its rule names. -/
inductive Instr where
  /-- COMPRESS, rule R125. -/
  | compress
  /-- DECOMPRESS, rule R126. -/
  | decompress
  /-- EXTRACT, rule R85. -/
  | extract
  /-- BUILD, rule R89. -/
  | build
  /-- ENCODE, rule R95. -/
  | encode
  /-- PACK, rule R99. -/
  | pack
  /-- SERIALIZE, rule R103. -/
  | serialize
  /-- PARSE, rule R109. -/
  | parse
  /-- UNPACK, rule R118. -/
  | unpack
  deriving DecidableEq, Repr

end Sys2Proof
end

