-- ==== Sys2Proof/WellFormed.lean ====
section
/-! DEFINITION. Well-formedness of instructions and of host accesses. -/

namespace Sys2Proof

/-- No instruction has an operand (spec 30_encoding.md rule R59) and no encoding of a command is
reserved or illegal, so every instruction is well formed. One arm per constructor, so that a new one
cannot slip past. -/
def Instr.wellFormed : Instr → Bool
  | .compress => true
  | .decompress => true
  | .extract => true
  | .build => true
  | .encode => true
  | .pack => true
  | .serialize => true
  | .parse => true
  | .unpack => true

namespace Machine

/-- The accesses the host can make at all (rules R25, R42, R58): an element's index exists, a symbol has
`SYMW` bits (rule R21: the host's write is typed), and an input length is at most the capacity. A write of
an output length register is ignored whatever its value. -/
def Access.wellFormed (p : Params) : Access → Bool
  | .writeTxi i v => elementExists p .txi i && symbolFits p v
  | .writeTxiLen n => withinCap (capOf p .txi) n
  | .writeCti i _ => elementExists p .cti i
  | .writeCtiLen n => withinCap (capOf p .cti) n
  | .writeStatus _ => true
  | .writeCto i _ => elementExists p .cto i
  | .writeCtoLen _ => true
  | .writeTxo i v => elementExists p .txo i && symbolFits p v
  | .writeTxoLen _ => true
  | .readStatus => true
  | .readCmd => true
  | .readTxi i => elementExists p .txi i
  | .readTxiLen => true
  | .readCto i => elementExists p .cto i
  | .readCtoLen => true
  | .readCti i => elementExists p .cti i
  | .readCtiLen => true
  | .readTxo i => elementExists p .txo i
  | .readTxoLen => true

end Machine
end Sys2Proof
end

