-- ==== Sys2Proof/Decode.lean ====
section
/-! DEFINITION. The decoders of the engine and the encoder (spec 30_encoding.md rules R59, R60, R84):
the one-bit field `CMD.MODE` and the three-bit field `STATUS.PHASE`. -/

namespace Sys2Proof

/-- A code word of one of the opcode table's two formats (rules R59 and R60). -/
inductive CodeWord where
  /-- Format `cmd`: the field `MODE` of `CMD`. -/
  | cmd (mode : BitVec 1)
  /-- Format `phase`: the field `PHASE` of `STATUS`. -/
  | phase (code : BitVec 3)
  deriving DecidableEq, Repr

/-- Why a word is no instruction. -/
inductive DecodeError where
  /-- `PHASE = 0` is IDLE, which is no stage (rule R60). -/
  | idleIsNoStage
  /-- The number has a bit above the width of its format. -/
  | bitsAboveFormat
  /-- No format of the opcode table has this width. -/
  | noFormatOfWidth
  deriving DecidableEq, Repr

/-- The decoder for `CMD`, "the test of one bit" (rule R84). No value is reserved (rule R59). -/
def decodeCmd (mode : BitVec 1) : Instr :=
  if mode = 0#1 then .compress else .decompress

/-- The decoder for `STATUS.PHASE`, the table of rule R60. -/
def decodePhase (code : BitVec 3) : Except DecodeError Instr :=
  if code = 1#3 then .ok .extract
  else if code = 2#3 then .ok .build
  else if code = 3#3 then .ok .encode
  else if code = 4#3 then .ok .pack
  else if code = 5#3 then .ok .serialize
  else if code = 6#3 then .ok .parse
  else if code = 7#3 then .ok .unpack
  else .error .idleIsNoStage

/-- The decoder on code words. -/
def decode : CodeWord → Except DecodeError Instr
  | .cmd mode => .ok (decodeCmd mode)
  | .phase code => decodePhase code

/-- A code word from a bare number of `nbits` bits: one bit is a `cmd` word, three bits are a `phase`
word. A whole byte does not tell the formats apart, since both are narrower: its values 0 and 1 are
read as `MODE`, the word a host can issue, and 2 to 7 as `PHASE` (DESIGN CHOICE, log 2). -/
def codeWordOf (nbits w : Nat) : Except DecodeError CodeWord :=
  if nbits = 1 then
    if w < 2 then .ok (.cmd (BitVec.ofNat 1 w)) else .error .bitsAboveFormat
  else if nbits = 3 then
    if w < 8 then .ok (.phase (BitVec.ofNat 3 w)) else .error .bitsAboveFormat
  else if nbits = 8 then
    if w < 2 then .ok (.cmd (BitVec.ofNat 1 w))
    else if w < 8 then .ok (.phase (BitVec.ofNat 3 w))
    else .error .bitsAboveFormat
  else .error .noFormatOfWidth

/-- The instruction a bare number of `nbits` bits stands for; total, rejecting by name. -/
def decodeNumber (nbits w : Nat) : Except DecodeError Instr :=
  match codeWordOf nbits w with
  | .ok c => decode c
  | .error e => .error e

/-- The decoder on the whole byte in which a code word would be stored, for any byte. -/
def decodeByte (b : Byte) : Except DecodeError Instr := decodeNumber 8 b.toNat

/-- The instruction the decoder reads from a table word of `nbits` bits. -/
def decodeTableWord (nbits w : Nat) : Option Instr :=
  match decodeNumber nbits w with
  | .ok i => some i
  | .error _ => none

/-- The encoder: the code word of an instruction (rules R59 and R60). -/
def encode : Instr → CodeWord
  | .compress => .cmd 0#1
  | .decompress => .cmd 1#1
  | .extract => .phase 1#3
  | .build => .phase 2#3
  | .encode => .phase 3#3
  | .pack => .phase 4#3
  | .serialize => .phase 5#3
  | .parse => .phase 6#3
  | .unpack => .phase 7#3

end Sys2Proof
end

