-- ==== Sys2Proof/Machine/HostAccess.lean ====
section
/-! DEFINITION. The host's accesses (spec 10_state.md rule R25) and the order of the agents. -/

namespace Sys2Proof.Machine

/-- A host write of `TXI`, `CTI` or their length: performed while `BUSY = 0`, ignored while `BUSY = 1`
(rule R25). -/
def whenIdle (s : State) (write : State → State) : Outcome :=
  .next (if s.status.busy then s else write s)

/-- An access to element `i` of buffer `b`: an index at or above the capacity does not exist (rule R42),
and the request is refused (rule R11). -/
def onElement (s : State) (b : BufName) (i : Nat) (o : Outcome) : Outcome :=
  if elementExists s.cfg b i then o else .refused (.noSuchElement b i)

/-- A host write of the symbol `v`: the write is typed, so a wider symbol is refused (rule R21). -/
def onSymbol (s : State) (v : Symbol) (o : Outcome) : Outcome :=
  if symbolFits s.cfg v then o else .refused (.symbolAboveWidth v)

/-- A host write of an input length: above the capacity it is refused (rules R25 and R58). -/
def onLength (s : State) (b : BufName) (n : Nat) (o : Outcome) : Outcome :=
  if withinCap (capOf s.cfg b) n then o else .refused (.inputLengthExceedsCapacity b)

/-- A host read (rule R25): the current value where that is what the table gives, else any value, the
next free one. -/
def hostRead (s : State) (current : Bool) (now : ReadValue) (open_ : Nat → ReadValue) : Outcome :=
  if current then .next (s.setRead now) else .next ((s.setRead (open_ s.freeCount)).nextFree)

/-- One host access (rule R25). -/
def performAccess (a : Access) (s : State) : Outcome :=
  match a with
  | .writeTxi i v =>
    onElement s .txi i (onSymbol s v
      (whenIdle s fun t => t.setTxi { t.txi with cells := Memory.write t.txi.cells i v }))
  | .writeTxiLen n => onLength s .txi n (whenIdle s fun t => t.setTxi { t.txi with len := n })
  | .writeCti i b =>
    onElement s .cti i
      (whenIdle s fun t => t.setCti { t.cti with cells := Memory.write t.cti.cells i b })
  | .writeCtiLen n => onLength s .cti n (whenIdle s fun t => t.setCti { t.cti with len := n })
  | .writeStatus _ => .next s
  | .writeCto i _ => onElement s .cto i (.next s)
  | .writeCtoLen _ => .next s
  | .writeTxo i v => onElement s .txo i (onSymbol s v (.next s))
  | .writeTxoLen _ => .next s
  | .readStatus =>
    hostRead s (!s.status.busy) (.status s.status.word)
      fun n => .status (busyStatusWord (Config.freeStatus n))
  | .readCmd => .next (s.setRead (.cmd 0#1))
  | .readTxi i =>
    onElement s .txi i
      (hostRead s (!s.status.busy && decide (i < s.txi.len)) (.symbol (s.txiElem i))
        fun n => .symbol (Config.freeSymbol s.cfg.symw n).toNat)
  | .readTxiLen =>
    hostRead s (!s.status.busy) (.length s.txi.len) fun n => .length (Config.freeLength n)
  | .readCto i =>
    onElement s .cto i
      (hostRead s (!s.status.busy && decide (i < s.cto.len)) (.byte (s.ctoElem i))
        fun n => .byte (Config.freeByte n))
  | .readCtoLen =>
    hostRead s (!s.status.busy) (.length s.cto.len) fun n => .length (Config.freeLength n)
  | .readCti i =>
    onElement s .cti i
      (hostRead s (!s.status.busy && decide (i < s.cti.len)) (.byte (s.ctiElem i))
        fun n => .byte (Config.freeByte n))
  | .readCtiLen =>
    hostRead s (!s.status.busy) (.length s.cti.len) fun n => .length (Config.freeLength n)
  | .readTxo i =>
    onElement s .txo i
      (hostRead s (!s.status.busy && decide (i < s.txo.len)) (.symbol (s.txoElem i))
        fun n => .symbol (Config.freeSymbol s.cfg.symw n).toNat)
  | .readTxoLen =>
    hostRead s (!s.status.busy) (.length s.txo.len) fun n => .length (Config.freeLength n)

/-- A `CMD` write whose command the engine then runs stage by stage (rule R127); ignored while `BUSY = 1`
(rule R131). -/
def startCommand (mode : BitVec 1) (s : State) : Outcome :=
  whenIdle s fun t =>
    match decodeCmd mode with
    | .compress => startCompress t
    | _ => startDecompress t

/-- Whose turn it is, and what happens in it. -/
inductive Turn where
  /-- An instruction runs: the word in `CMD` or, while a command runs, the code in `STATUS.PHASE`. -/
  | run (w : CodeWord)
  /-- The host acts. -/
  | access (a : Access)
  /-- A command starts and the host goes on acting. -/
  | start (mode : BitVec 1)
  /-- The host resets the engine. -/
  | reset
  /-- The engine is idle and the host does nothing (rules R161, R176). -/
  | idle
  deriving DecidableEq, Repr

/-- The engine's turn: while a command runs, the stage `PHASE` names runs; else nothing does (rules R19 and
R176). -/
def engineTurn (s : State) : Turn :=
  if s.status.busy then .run (.phase s.status.phase.code) else .idle

/-- The host's next action, if it has one (rule R39). -/
def nextEvent (s : State) : Option HostEvent := s.host[s.hostPos]?

/-- The next turn: the host's next action, or the engine where the host has none or stands back. -/
def nextTurn (s : State) : Turn :=
  match nextEvent s with
  | none => engineTurn s
  | some .yield => engineTurn s
  | some (.access a) => .access a
  | some (.command mode) => .run (.cmd mode)
  | some (.start mode) => .start mode
  | some .reset => .reset

/-- The host has taken its next action, if it has one; its sequence of actions stays (rule R39). -/
def consumeEvent (s : State) : State :=
  if s.hostPos < s.host.length then s.setHostPos (s.hostPos + 1) else s

/-- The host acts with `e` before its other actions still to come. -/
def State.withEvent (s : State) (e : HostEvent) : State :=
  (s.setHost (e :: s.host.drop s.hostPos)).setHostPos 0

/-- Put a code word where the next step finds it: a `cmd` word is the host's next `CMD` write to an idle
engine; a `phase` word is the code in `STATUS.PHASE` of a busy one, whose turn it is. -/
def placeWord (w : CodeWord) (s : State) : State :=
  match w with
  | .cmd mode => (s.setStatus { s.status with busy := false }).withEvent (.command mode)
  | .phase code =>
    (s.setStatus { s.status with busy := true, phase := phaseOfCode code }).withEvent .yield

/-- Put a table word of `nbits` bits where the next step finds it; a number that is no code word changes
nothing. -/
def placeNumber (nbits w : Nat) (s : State) : State :=
  match codeWordOf nbits w with
  | .ok c => placeWord c s
  | .error _ => s

end Sys2Proof.Machine
end

