-- ==== Sys2Proof/Machine/Step.lean ====
section
/-! DEFINITION. One step of the machine: the host's next action, or one step of the engine. -/

namespace Sys2Proof.Machine

/-- One step. The host moves past its action first; an instruction's code word is decoded and
its meaning run (spec 47_commands.md rules R127, R128, R132). -/
def step (s : State) : Host.Outcome State Fault Refusal :=
  match nextTurn s with
  | .run w =>
    match decode w with
    | .ok i => exec i (consumeEvent s)
    | .error _ => .refused .busyWithoutStage
  | .access a => performAccess a (consumeEvent s)
  | .start mode => startCommand mode (consumeEvent s)
  | .reset => .next (resetEngine (consumeEvent s))
  | .idle => .next (consumeEvent s)

/-- The state with the table word `w` placed so that the very next step runs it. -/
def State.withFetchWord (s : State) (nbits w : Nat) : State := placeNumber nbits w s

end Sys2Proof.Machine
end

