-- ==== Sys2Proof/Safety.lean ====
section
/-! DEFINITION. The terms claims are stated in: when a state is idle or runs a stage, the invariant every
step keeps, and the forms the spec gives a container, a chart and a table. -/

namespace Sys2Proof.Machine

/-- No command is running. -/
def Idle (s : State) : Prop := s.status.busy = false

/-- A command is running and is in stage `p`. -/
def Running (p : Phase) (s : State) : Prop := s.status.busy = true ∧ s.status.phase = p

/-- The stages of COMPRESS (rule R132). -/
def Phase.ofCompress : Phase → Bool
  | .idle => false
  | .extract => true
  | .build => true
  | .encode => true
  | .pack => true
  | .serialize => true
  | .parse => false
  | .unpack => false

/-- The stages of DECOMPRESS (rule R132). -/
def Phase.ofDecompress : Phase → Bool
  | .idle => false
  | .extract => false
  | .build => false
  | .encode => false
  | .pack => false
  | .serialize => false
  | .parse => true
  | .unpack => true

/-- The values `STATUS` can take (rules R17 to R20): while a command runs only `PHASE` is set; after an end
`done`, or before any command, `PHASE` and `ERRCODE` are 0; after an end `error` they name an error and a
stage that raises it (rule R153). -/
def Status.legal (s : Status) : Prop :=
  (s.busy = true → s.done = false ∧ s.err = false ∧ s.phase ≠ .idle) ∧
  (s.err = false → s.errcode = none ∧ (s.busy = false → s.phase = .idle)) ∧
  (s.err = true → s.done = false ∧ ∃ e, s.errcode = some e ∧ e.raisedBy s.phase = true)

/-- Every element below the buffer's length, and no other, holds a value. -/
def Buffer.filled {α : Type} (b : Buffer α) : Prop :=
  ∀ i, (Memory.read b.cells i).isSome = true ↔ i < b.len

/-- What the completed stages of a running COMPRESS have left (rules R26 to R31). -/
def EncStores.ready (text : List Symbol) (idxw : Nat) (e : EncStores) : Phase → Prop
  | .build => text ≠ [] ∧ e.alpha = alphabetOf text
  | .encode =>
    text ≠ [] ∧ e.alpha = alphabetOf text ∧ e.width = codeWidth e.alpha.length ∧ e.width < idxw ∧
      e.table = assignCodes e.width 0 e.alpha
  | .pack =>
    text ≠ [] ∧ e.alpha = alphabetOf text ∧ e.width = codeWidth e.alpha.length ∧ e.width < idxw ∧
      e.table = assignCodes e.width 0 e.alpha ∧ e.bits = encodeText e.table text
  | .serialize =>
    text ≠ [] ∧ e.alpha = alphabetOf text ∧ e.width = codeWidth e.alpha.length ∧ e.width < idxw ∧
      e.table = assignCodes e.width 0 e.alpha ∧ e.bits = encodeText e.table text ∧
      e.pad = padLength e.bits.length ∧ e.padded = padBits e.bits ∧
      e.payload = packBytes (e.padded.length / 8) e.padded
  | _ => True

/-- `SYMW` is a width and every symbol of the list is below `2^SYMW` (rules R7 and R12). -/
def SymbolsFit (symw : Nat) (l : List Symbol) : Prop := 1 ≤ symw ∧ ∀ x ∈ l, x < 2 ^ symw

/-- What PARSE has left for UNPACK (rules R33 to R35, R112, R115, R118). -/
def DecStores.ready (symw : Nat) (d : DecStores) : Phase → Prop
  | .unpack =>
    d.width ≠ 0#8 ∧ d.pad.toNat ≤ Config.padMax ∧ d.pad.toNat ≤ 8 * d.payload.length ∧
      (∀ e ∈ d.table, e.1.length = d.width.toNat) ∧ (d.table.map Prod.fst).Nodup ∧
      ∀ e ∈ d.table, e.2 < 2 ^ symw
  | _ => True

/-- The invariant of the machine. -/
structure Inv (s : State) : Prop where
  /-- The memories have their canonical form. -/
  memories : Memory.wf s.txi.cells = true ∧ Memory.wf s.cto.cells = true ∧
    Memory.wf s.cti.cells = true ∧ Memory.wf s.txo.cells = true
  /-- `SYMW` is a width of at least one bit (rule R7). -/
  width : 1 ≤ s.cfg.symw
  /-- Every symbol written to `TXI` or `TXO` is below `2^SYMW` (rules R21 and R24). -/
  symbols : (∀ e ∈ s.txi.cells, e.2 < 2 ^ s.cfg.symw) ∧ ∀ e ∈ s.txo.cells, e.2 < 2 ^ s.cfg.symw
  /-- No length is above its capacity (rule R58). -/
  lengths : withinCap s.cfg.txiCap s.txi.len = true ∧ withinCap s.cfg.ctoCap s.cto.len = true ∧
    withinCap s.cfg.ctiCap s.cti.len = true ∧ withinCap s.cfg.txoCap s.txo.len = true
  /-- The output buffers hold exactly what was committed (rule R129). -/
  outputs : s.cto.filled ∧ s.txo.filled
  /-- `STATUS` has one of its legal values (rules R17 to R20). -/
  status : s.status.legal
  /-- No partial result: while a command runs and after it failed, its output is empty (rule R162). -/
  noPartial : (s.status.phase.ofCompress = true → s.cto.len = 0) ∧
    (s.status.phase.ofDecompress = true → s.txo.len = 0)
  /-- While a command runs, its stores hold what its completed stages wrote. -/
  stores : s.status.busy = true →
    s.enc.ready s.text s.cfg.idxw s.status.phase ∧ s.dec.ready s.cfg.symw s.status.phase

/-- An entry of the chart grammar of rule R69, spelled: key and value in quotes, a colon between. -/
def spelledEntry (e : Bits × Bits) : List Byte :=
  [0x22#8] ++ bitText e.1 ++ [0x22#8, 0x3A#8, 0x22#8] ++ bitText e.2 ++ [0x22#8]

/-- A chart of the grammar of rule R69, spelled: the entries with commas between, in braces. -/
def spelledChart (entries : List (Bits × Bits)) : List Byte :=
  [0x7B#8] ++ List.intercalate [0x2C#8] (entries.map spelledEntry) ++ [0x7D#8]

/-- The conditions (b), (c) and (d) of rule R72 on a chart's entries. -/
def acceptableEntries (symw w : Nat) (entries : List (Bits × Bits)) : Prop :=
  (∀ e ∈ entries, e.1.length = w) ∧
  (∀ e ∈ entries, 1 ≤ e.2.length ∧ e.2.length ≤ symw ∧
    (e.2.length = 1 ∨ e.2.head? = some true)) ∧
  (entries.map Prod.fst).Nodup

/-- A code table with pairwise different codes of `w` bits (rules R94 and R148). -/
def codesDiffer (w : Nat) (table : List (Symbol × Bits)) : Prop :=
  (∀ e ∈ table, e.2.length = w) ∧ (table.map Prod.snd).Nodup

/-- The width, the table, the bits and the chart COMPRESS gives a text (rules R90, R91, R95, R70). -/
def widthOf (text : List Symbol) : Nat := codeWidth (alphabetOf text).length
/-- The code table of a text. -/
def tableOf (text : List Symbol) : List (Symbol × Bits) :=
  assignCodes (widthOf text) 0 (alphabetOf text)
/-- The chart of a text. -/
def chartOf (text : List Symbol) : List Byte := chartText (tableOf text)
/-- The length of the container COMPRESS makes of a text (rule R139). -/
def containerLengthOf (text : List Symbol) : Nat :=
  6 + (chartOf text).length + ceilDiv (widthOf text * text.length) 8

/-- What COMPRESS makes of the text fits the index integer and the container's fields (rules R92, R105 and
R106). -/
def FieldsFit (p : Params) (text : List Symbol) : Prop :=
  widthOf text < p.idxw ∧ widthOf text ≤ Config.widthMax ∧
    (chartOf text).length ≤ Config.chartSizeMax

/-- The window of `w` bits that starts at bit `m * w` (rule R121). -/
def windowAt (bits : Bits) (w m : Nat) : Bits := (bits.drop (m * w)).take w

/-- The payload of the decompression path as bits, its padding removed (rules R119 and R120). -/
def payloadBits (payload : List Byte) (pad : Nat) : Bits :=
  (payload.flatMap bitsOfByte).take (8 * payload.length - pad)

/-- PARSE takes error `e`, writing nothing but its own five stores (rules R109 and R117). -/
def ParseRaises (s : State) (e : CodecError) : Prop :=
  ∃ d, exec .parse s = .next (raiseError e (s.setDec d)) ∧ d.bits = s.dec.bits ∧ d.pos = s.dec.pos ∧
    d.out = s.dec.out

/-- DECOMPRESS of `s` ends with error `e` and delivers nothing (rules R130 and R162). -/
def DecompressFails (s : State) (e : CodecError) : Prop :=
  ∃ t, exec .decompress s = .next t ∧ t.status.busy = false ∧ t.status.done = false ∧
    t.status.err = true ∧ t.status.errcode = some e ∧ t.txo.len = 0

/-- The chartSize field of a container (rule R65). -/
def chartSizeField (c : List Byte) : Nat :=
  fromBe32 (c.getD 2 0#8) (c.getD 3 0#8) (c.getD 4 0#8) (c.getD 5 0#8)

/-- The number of whole windows in the payload of a container (rule R151). -/
def textLengthOf (c : List Byte) : Nat :=
  (8 * (c.length - 6 - chartSizeField c) - (c.getD 1 0#8).toNat) / (c.getD 0 0#8).toNat

/-- The command of a mode runs as one step (rule R128). -/
def execCommand (mode : BitVec 1) (s : State) : Outcome := exec (decodeCmd mode) s

end Sys2Proof.Machine
end

