-- ==== Sys2Proof/Certificates/Slice0/Obligations.lean ====
section
/-! DEFINITION. The statements for the provers. A statement about an instruction's result has as its
conclusion that `exec` answers the next state the rules give; frames are stated beside them. -/

open Sys2Proof Sys2Proof.Machine

/-! ### Encodings -/

/-- Rule R59: `MODE = 0` is COMPRESS, `MODE = 1` is DECOMPRESS, and no command encoding is illegal. -/
def Obligations.CommandModeBitSelectsTheCommand : Prop :=
  decode (.cmd 0#1) = .ok .compress ∧ decode (.cmd 1#1) = .ok .decompress ∧
    ∀ mode, ∃ i, decode (.cmd mode) = .ok i

/-- Rule R60: the table of stage codes, read by the decoder and written by `STATUS.PHASE`. Code 0 is IDLE,
which is no stage. -/
def Obligations.PhaseCodesSelectTheStages : Prop :=
  (∀ i, decode (.phase 0#3) ≠ .ok i) ∧ decode (.phase 1#3) = .ok .extract ∧
    decode (.phase 2#3) = .ok .build ∧ decode (.phase 3#3) = .ok .encode ∧
    decode (.phase 4#3) = .ok .pack ∧ decode (.phase 5#3) = .ok .serialize ∧
    decode (.phase 6#3) = .ok .parse ∧ decode (.phase 7#3) = .ok .unpack ∧
    (∀ c, (phaseOfCode c).code = c) ∧
    [Phase.idle, .extract, .build, .encode, .pack, .serialize, .parse, .unpack].map Phase.code =
      [0#3, 1#3, 2#3, 3#3, 4#3, 5#3, 6#3, 7#3]

/-- Rules R59, R60, R84: a word decodes to an instruction exactly when it is that instruction's code word,
so that decode of encode is the identity and no other word decodes. -/
def Obligations.DecodeAcceptsExactlyTheEncodedWords : Prop :=
  ∀ (w : CodeWord) (i : Instr), decode w = .ok i ↔ encode i = w

/-- Rule R16: the layout of `STATUS`, its reset value, and that a host write to it is ignored. -/
def Obligations.StatusWordLaysOutItsFields : Prop :=
  (∀ st : Status, st.word.getLsbD 0 = st.busy ∧ st.word.getLsbD 1 = st.done ∧
    st.word.getLsbD 2 = st.err ∧ st.word.extractLsb' 3 3 = st.phase.code ∧
    st.word.extractLsb' 6 2 = 0#2 ∧ st.word.extractLsb' 8 8 = errCode st.errcode) ∧
  State.reset.status.word = 0x0000#16 ∧
  ∀ (v : BitVec 16) (s : State), performAccess (.writeStatus v) s = .next s

/-- Rules R61 and R153: the codes of the ten errors and of no error, and that there are no others; their
classes; and the stages that raise them. -/
def Obligations.ErrorsHaveTheirCodesClassesAndStages : Prop :=
  errCode none = 0x00#8 ∧
  [CodecError.emptyInput, .unmappedSymbol, .truncatedHeader, .truncatedChart, .malformedChart,
      .unknownCode, .invalidHeader, .alphabetTooLarge, .widthOverflow, .chartTooLarge].map
      CodecError.code =
    [0x11#8, 0x12#8, 0x21#8, 0x22#8, 0x23#8, 0x24#8, 0x25#8, 0x31#8, 0x32#8, 0x33#8] ∧
  [CodecError.emptyInput, .unmappedSymbol, .truncatedHeader, .truncatedChart, .malformedChart,
      .unknownCode, .invalidHeader, .alphabetTooLarge, .widthOverflow, .chartTooLarge].map
      CodecError.errClass =
    [1#4, 1#4, 2#4, 2#4, 2#4, 2#4, 2#4, 3#4, 3#4, 3#4] ∧
  (∀ code, (∃ e, errCode e = code) ↔
    code ∈ [0x00#8, 0x11#8, 0x12#8, 0x21#8, 0x22#8, 0x23#8, 0x24#8, 0x25#8, 0x31#8, 0x32#8, 0x33#8]) ∧
  ∀ (e : CodecError) (p : Phase), e.raisedBy p = true ↔
    (e, p) ∈ [(CodecError.emptyInput, Phase.extract), (.emptyInput, .build),
      (.unmappedSymbol, .encode), (.truncatedHeader, .parse), (.truncatedChart, .parse),
      (.malformedChart, .parse), (.unknownCode, .unpack), (.invalidHeader, .parse),
      (.alphabetTooLarge, .build), (.widthOverflow, .serialize), (.chartTooLarge, .serialize)]

/-! ### Steps, the host and reset -/

/-- A step runs the decoded instruction: the host's `CMD` write (rule R128), or the stage `PHASE` names
while a command runs (rule R19). Where the host's next action is an access or a `CMD` write that only starts
a command, the step is that action (rules R25 and R127). What `step` adds is that the host moves past its
action, which is the model's own (log 1). -/
def Obligations.StepRunsTheDecodedInstruction : Prop :=
  (∀ (s : State) (w : CodeWord) (i : Instr), nextTurn s = .run w → decode w = .ok i →
    step s = exec i (consumeEvent s)) ∧
  (∀ (s : State) (mode : BitVec 1), nextEvent s = some (.command mode) →
    step s = exec (decodeCmd mode) (s.setHostPos (s.hostPos + 1))) ∧
  (∀ (s : State) (i : Instr), nextEvent s = none → s.status.busy = true →
    decode (.phase s.status.phase.code) = .ok i → step s = exec i s) ∧
  (∀ (s : State) (i : Instr), nextEvent s = some .yield → s.status.busy = true →
    decode (.phase s.status.phase.code) = .ok i → step s = exec i (s.setHostPos (s.hostPos + 1))) ∧
  (∀ (s : State) (a : Access), nextEvent s = some (.access a) →
    step s = performAccess a (s.setHostPos (s.hostPos + 1))) ∧
  (∀ (s : State) (mode : BitVec 1), nextEvent s = some (.start mode) →
    step s = startCommand mode (s.setHostPos (s.hostPos + 1)))

/-- A table word placed by `withFetchWord` is what the very next step runs, on a state that differs from
the given one in `STATUS` and in the host's past actions alone: idle for a command, running the stage for a
stage, and with the same actions still to come (log 2). -/
def Obligations.PlacedTableWordIsRunByTheNextStep : Prop :=
  ∀ (s : State) (nbits w : Nat) (i : Instr), decodeTableWord nbits w = some i →
    ∃ t, step (s.withFetchWord nbits w) = exec i t ∧
      t = ((s.setStatus t.status).setHost t.host).setHostPos t.hostPos ∧
      t.host.drop t.hostPos = s.host.drop s.hostPos ∧
      (∀ mode, encode i = .cmd mode → Idle t) ∧
      (∀ code, encode i = .phase code → Running (phaseOfCode code) t)

/-- Rule R176: the engine executes nothing until the host acts. -/
def Obligations.IdleEngineWaitsForTheHost : Prop :=
  ∀ s : State, nextEvent s = none → Idle s → step s = .next s

/-- Rule R131: a `CMD` write while `BUSY = 1` starts nothing, queues nothing and raises no error. -/
def Obligations.CommandWriteWhileBusyIsIgnored : Prop :=
  ∀ (s : State) (mode : BitVec 1), s.status.busy = true →
    execCommand mode s = .next s ∧ startCommand mode s = .next s ∧
    (nextEvent s = some (.command mode) → step s = .next (s.setHostPos (s.hostPos + 1))) ∧
    (nextEvent s = some (.start mode) → step s = .next (s.setHostPos (s.hostPos + 1)))

/-- Rule R127: what a command's start writes, from any idle state, and that the other command's buffers
and stores are untouched. -/
def Obligations.CommandStartSetsStatusAndEmptiesItsPath : Prop :=
  ∀ s : State, Idle s →
    (∃ t, startCommand 0#1 s = .next t ∧
      t.status = { busy := true, done := false, err := false, phase := .extract, errcode := none } ∧
      t.cto.len = 0 ∧ t.enc = EncStores.empty ∧ t.txi = s.txi ∧ t.cti = s.cti ∧ t.txo = s.txo ∧
      t.dec = s.dec) ∧
    (∃ t, startCommand 1#1 s = .next t ∧
      t.status = { busy := true, done := false, err := false, phase := .parse, errcode := none } ∧
      t.txo.len = 0 ∧ t.dec = DecStores.empty ∧ t.txi = s.txi ∧ t.cti = s.cti ∧ t.cto = s.cto ∧
      t.enc = s.enc)

/-- Rules R25 and R51: a host write of an input buffer's element or length is performed while `BUSY = 0`,
changes that element or length and nothing else, and is ignored while `BUSY = 1`. That an element at or
above the length holds what was written to it, and that the elements stay while the length changes, is the
model's reading of "performed" (log 9, DEDUCED, unsafe): entry U13 of the spec says any value there. -/
def Obligations.InputWritesArePerformedOnlyWhileIdle : Prop :=
  (∀ (s : State) (i : Nat) (v : Symbol), elementExists s.cfg .txi i = true → v < 2 ^ s.cfg.symw →
    (Idle s → ∃ t, performAccess (.writeTxi i v) s = .next t ∧ t.txiElem i = v ∧
      (∀ j, j ≠ i → t.txiElem j = s.txiElem j) ∧ t.txi.len = s.txi.len ∧ t = s.setTxi t.txi) ∧
    (s.status.busy = true → performAccess (.writeTxi i v) s = .next s)) ∧
  (∀ (s : State) (i : Nat) (b : Byte), elementExists s.cfg .cti i = true →
    (Idle s → ∃ t, performAccess (.writeCti i b) s = .next t ∧ t.ctiElem i = b ∧
      (∀ j, j ≠ i → t.ctiElem j = s.ctiElem j) ∧ t.cti.len = s.cti.len ∧ t = s.setCti t.cti) ∧
    (s.status.busy = true → performAccess (.writeCti i b) s = .next s)) ∧
  (∀ (s : State) (n : Nat), withinCap s.cfg.txiCap n = true →
    (Idle s → performAccess (.writeTxiLen n) s =
      .next (s.setTxi { cells := s.txi.cells, len := n })) ∧
    (s.status.busy = true → performAccess (.writeTxiLen n) s = .next s)) ∧
  (∀ (s : State) (n : Nat), withinCap s.cfg.ctiCap n = true →
    (Idle s → performAccess (.writeCtiLen n) s =
      .next (s.setCti { cells := s.cti.cells, len := n })) ∧
    (s.status.busy = true → performAccess (.writeCtiLen n) s = .next s))

/-- Rule R25: what a host read returns. While `BUSY = 0` a read of a register, or of an element below the
length, returns the current value; `CMD` always reads 0; every other read returns some value of the right
kind and width, and a `STATUS` read while `BUSY = 1` one with `BUSY = 1`; that its reserved bits are 0 is
the model's reading (log 6, DEDUCED from rule R16). A read changes nothing of the engine (rule R51). -/
def Obligations.HostReadsReturnTheCurrentValueWhileIdle : Prop :=
  (∀ s : State, Idle s →
    performAccess .readStatus s = .next (s.setRead (.status s.status.word)) ∧
    performAccess .readTxiLen s = .next (s.setRead (.length s.txi.len)) ∧
    performAccess .readCtoLen s = .next (s.setRead (.length s.cto.len)) ∧
    performAccess .readCtiLen s = .next (s.setRead (.length s.cti.len)) ∧
    performAccess .readTxoLen s = .next (s.setRead (.length s.txo.len))) ∧
  (∀ (s : State) (i : Nat), Idle s →
    (elementExists s.cfg .txi i = true → i < s.txi.len →
      performAccess (.readTxi i) s = .next (s.setRead (.symbol (s.txiElem i)))) ∧
    (elementExists s.cfg .cto i = true → i < s.cto.len →
      performAccess (.readCto i) s = .next (s.setRead (.byte (s.ctoElem i)))) ∧
    (elementExists s.cfg .cti i = true → i < s.cti.len →
      performAccess (.readCti i) s = .next (s.setRead (.byte (s.ctiElem i)))) ∧
    (elementExists s.cfg .txo i = true → i < s.txo.len →
      performAccess (.readTxo i) s = .next (s.setRead (.symbol (s.txoElem i))))) ∧
  (∀ s : State, performAccess .readCmd s = .next (s.setRead (.cmd 0#1))) ∧
  (∀ s : State, s.status.busy = true →
    ∃ v : BitVec 16, performAccess .readStatus s = .next ((s.setRead (.status v)).nextFree) ∧
      v.getLsbD 0 = true ∧ v.extractLsb' 6 2 = 0#2) ∧
  (∀ s : State, s.status.busy = true →
    (∃ n, performAccess .readTxiLen s = .next ((s.setRead (.length n)).nextFree)) ∧
    (∃ n, performAccess .readCtoLen s = .next ((s.setRead (.length n)).nextFree)) ∧
    (∃ n, performAccess .readCtiLen s = .next ((s.setRead (.length n)).nextFree)) ∧
    ∃ n, performAccess .readTxoLen s = .next ((s.setRead (.length n)).nextFree)) ∧
  (∀ (s : State) (i : Nat),
    (elementExists s.cfg .txi i = true → s.status.busy = true ∨ s.txi.len ≤ i →
      ∃ v, v < 2 ^ s.cfg.symw ∧ performAccess (.readTxi i) s = .next ((s.setRead (.symbol v)).nextFree)) ∧
    (elementExists s.cfg .cto i = true → s.status.busy = true ∨ s.cto.len ≤ i →
      ∃ v, performAccess (.readCto i) s = .next ((s.setRead (.byte v)).nextFree)) ∧
    (elementExists s.cfg .cti i = true → s.status.busy = true ∨ s.cti.len ≤ i →
      ∃ v, performAccess (.readCti i) s = .next ((s.setRead (.byte v)).nextFree)) ∧
    (elementExists s.cfg .txo i = true → s.status.busy = true ∨ s.txo.len ≤ i →
      ∃ v, v < 2 ^ s.cfg.symw ∧ performAccess (.readTxo i) s = .next ((s.setRead (.symbol v)).nextFree)))

/-- Rules R11, R25, R42 and R58: an access the host can make answers a next state; any other is refused,
under a name of its own (log 7). -/
def Obligations.AccessesCompleteExactlyWhereTheyExist : Prop :=
  ∀ (s : State) (a : Access),
    (a.wellFormed s.cfg = true → ∃ t, performAccess a s = .next t) ∧
    (a.wellFormed s.cfg = false →
      (∃ b i, performAccess a s = .refused (.noSuchElement b i)) ∨
      (∃ v, performAccess a s = .refused (.symbolAboveWidth v)) ∨
      ∃ b, performAccess a s = .refused (.inputLengthExceedsCapacity b))

/-- Rule R41: the state after reset. That an unwritten element is held as no value, and the values of the
model's own fields, are the model's (logs 1, 3, 5). -/
def Obligations.ResetStateHoldsTheSpecifiedValues : Prop :=
  State.reset.status.busy = false ∧ State.reset.status.done = false ∧
    State.reset.status.err = false ∧ State.reset.status.phase = .idle ∧
    State.reset.status.errcode = none ∧ State.reset.status.word = 0x0000#16 ∧
    State.reset.txi.len = 0 ∧ State.reset.cto.len = 0 ∧ State.reset.cti.len = 0 ∧
    State.reset.txo.len = 0 ∧
    State.reset.enc =
      { alpha := [], width := 0, table := [], bits := [], pad := 0, padded := [],
        payload := [], chart := [], chartSize := 0 } ∧
    State.reset.dec =
      { width := 0#8, pad := 0#8, chartSize := 0#32, table := [], payload := [],
        bits := [], pos := 0, out := [] }

/-- Rules R173 and R174: a reset, also one while a command runs, puts every piece of the engine's state at
its reset value; no status and no error code remain. -/
def Obligations.ResetAbandonsWhateverRuns : Prop :=
  ∀ s : State, nextEvent s = some .reset →
    ∃ t, step s = .next t ∧ t.status = State.reset.status ∧ t.status.word = 0x0000#16 ∧
      t.txi = State.reset.txi ∧ t.cto = State.reset.cto ∧ t.cti = State.reset.cti ∧
      t.txo = State.reset.txo ∧ t.enc = State.reset.enc ∧ t.dec = State.reset.dec ∧
      t.cfg = s.cfg ∧ t.host = s.host ∧ t.hostPos = s.hostPos + 1

/-! ### The compression stages -/

/-- Rules R86 and R88: EXTRACT leaves every symbol of the text once, in the order of first occurrence, and
changes nothing but `ALPHA` and, by its completion, `PHASE` (rule R19). -/
def Obligations.ExtractKeepsFirstOccurrenceOrder : Prop :=
  ∀ s : State, s.txi.len ≠ 0 →
    ∃ alpha, exec .extract s =
        .next (setPhase .build (s.setEnc { s.enc with alpha := alpha })) ∧
      alpha.Nodup ∧ (∀ x, x ∈ alpha ↔ x ∈ s.text) ∧
      (∀ p ∈ alpha, ∀ q ∈ alpha,
        alpha.idxOf p < alpha.idxOf q ↔ s.text.idxOf p < s.text.idxOf q) ∧
      alpha.head? = s.text.head?

/-- Rules R87 and R140: EXTRACT on a text of length 0 raises EmptyInputError before anything is written,
whatever `TXI` holds above its length, and COMPRESS then ends with `STATUS = 0x110C` and no output. -/
def Obligations.EmptyTextRaisesEmptyInput : Prop :=
  (∀ s : State, s.txi.len = 0 → exec .extract s = .next (raiseError .emptyInput s)) ∧
  ∀ s : State, Idle s → s.txi.len = 0 →
    ∃ t, exec .compress s = .next t ∧ t.status.errcode = some .emptyInput ∧
      t.status.phase = .extract ∧ t.status.word = 0x110C#16 ∧ t.cto.len = 0

/-- Rules R90, R91 and R94: BUILD's width is the least that has a code for every symbol, but at least 1;
symbol number `i` gets the code of value `i`; the codes are pairwise different; only `ENC.W` and `ETAB`
change and, by the stage's completion, `PHASE`. -/
def Obligations.BuildAssignsIndexCodesOfLeastWidth : Prop :=
  ∀ s : State, s.enc.alpha ≠ [] → codeWidth s.enc.alpha.length < s.cfg.idxw →
    ∃ w table, exec .build s =
        .next (setPhase .encode (s.setEnc { s.enc with width := w, table := table })) ∧
      1 ≤ w ∧ s.enc.alpha.length ≤ 2 ^ w ∧
      (∀ n, 1 ≤ n → s.enc.alpha.length ≤ 2 ^ n → w ≤ n) ∧
      table.map Prod.fst = s.enc.alpha ∧
      (∀ i, i < table.length → ∃ c, (table.map Prod.snd)[i]? = some c ∧ c = bin w i ∧
        c.length = w ∧ val c = i) ∧
      (table.map Prod.snd).Nodup

/-- Rules R92 and R93: BUILD's two errors, each raised before anything is written. -/
def Obligations.BuildRaisesItsErrorsBeforeWriting : Prop :=
  ∀ s : State,
    (s.enc.alpha = [] → exec .build s = .next (raiseError .emptyInput s)) ∧
    (s.enc.alpha ≠ [] → s.cfg.idxw ≤ codeWidth s.enc.alpha.length →
      exec .build s = .next (raiseError .alphabetTooLarge s))

/-- Rules R95 and R98: ENCODE concatenates the codes in document order; where all codes have one width the
length is that width times the number of symbols, and the bits at each place are the symbol's code. -/
def Obligations.EncodeConcatenatesTheCodes : Prop :=
  ∀ s : State, (∀ x ∈ s.text, ∃ c, (x, c) ∈ s.enc.table) →
    ∃ bits, exec .encode s =
        .next (setPhase .pack (s.setEnc { s.enc with bits := bits })) ∧
      bits = (s.text.map fun x => (lookupCode s.enc.table x).getD []).flatten ∧
      ∀ w, (∀ e ∈ s.enc.table, e.2.length = w) →
        bits.length = w * s.txi.len ∧
        ∀ i x, s.text[i]? = some x → lookupCode s.enc.table x = some (windowAt bits w i)

/-- Rules R96 and R97: the code of a symbol is that of the first pair that has it; a symbol of the text
without a pair makes ENCODE raise UnmappedSymbolError, and no stage writes anything but `BITS`. -/
def Obligations.UnmappedSymbolRaises : Prop :=
  (∀ (table : List (Symbol × Bits)) (x : Symbol) (c : Bits),
    lookupCode table x = some c ↔
      ∃ i : Nat, table[i]? = some (x, c) ∧ ∀ j : Nat, j < i → ∀ e : Symbol × Bits, table[j]? = some e → e.1 ≠ x) ∧
  ∀ (s : State) (x : Symbol), x ∈ s.text → (∀ c, (x, c) ∉ s.enc.table) →
    ∃ bits, exec .encode s =
      .next (raiseError .unmappedSymbol (s.setEnc { s.enc with bits := bits }))

/-- Rules R99 to R102: PACK appends the least number of 0 bits that reaches a multiple of 8 and turns each
eight bits into a byte, first bit most significant; it always completes and changes nothing but its three
stores and, by its completion, `PHASE`. -/
def Obligations.PackPadsAndPacksMsbFirst : Prop :=
  ∀ s : State, ∃ pad padded payload, exec .pack s =
      .next (setPhase .serialize
        (s.setEnc { s.enc with pad := pad, padded := padded, payload := payload })) ∧
    pad.val = (8 - s.enc.bits.length % 8) % 8 ∧
    pad.val = 8 * ceilDiv s.enc.bits.length 8 - s.enc.bits.length ∧
    padded = s.enc.bits ++ List.replicate pad.val false ∧
    padded.length = 8 * ceilDiv s.enc.bits.length 8 ∧
    payload.length = ceilDiv s.enc.bits.length 8 ∧
    ∀ j b, payload[j]? = some b → b.toNat = val (windowAt padded 8 j)

/-- Rules R103 and R104: SERIALIZE writes the chart, its length and the container, five fields in fixed
order, and ends the command `done`. -/
def Obligations.SerializeWritesTheContainer : Prop :=
  ∀ s : State, s.enc.width ≤ 255 → (chartText s.enc.table).length ≤ 2 ^ 32 - 1 →
    withinCap s.cfg.ctoCap (6 + (chartText s.enc.table).length + s.enc.payload.length) = true →
    ∃ t, exec .serialize s = .next t ∧
      t.container = [BitVec.ofNat 8 s.enc.width, BitVec.ofNat 8 s.enc.pad.val] ++
        be32 (chartText s.enc.table).length ++ chartText s.enc.table ++ s.enc.payload ∧
      t.cto.len = 6 + (chartText s.enc.table).length + s.enc.payload.length ∧
      t.enc = { s.enc with
        chart := chartText s.enc.table, chartSize := (chartText s.enc.table).length } ∧
      t.status = { s.status with busy := false, done := true, phase := .idle } ∧
      t = ((s.setEnc t.enc).setCto t.cto).setStatus t.status

/-- Rules R105 to R107: the width is tested first, before anything is written, then the chart's length. -/
def Obligations.SerializeRaisesItsErrorsInOrder : Prop :=
  ∀ s : State,
    (255 < s.enc.width → exec .serialize s = .next (raiseError .widthOverflow s)) ∧
    (s.enc.width ≤ 255 → 2 ^ 32 - 1 < (chartText s.enc.table).length →
      exec .serialize s = .next (raiseError .chartTooLarge (s.setEnc { s.enc with
        chart := chartText s.enc.table, chartSize := (chartText s.enc.table).length })))

/-- Rule R74: the closed form of a chart's length, and the bound on the charts the engine writes with
`SYMW = 16`. -/
def Obligations.ChartLengthHasItsClosedForm : Prop :=
  (∀ (w : Nat) (table : List (Symbol × Bits)), table ≠ [] → (∀ e ∈ table, e.2.length = w) →
    (chartText table).length =
      1 + table.length * (w + 6) + (table.map fun e => (minbin e.1).length).sum) ∧
  ∀ text : List Symbol, text ≠ [] → SymbolsFit 16 text → (chartOf text).length < 2490369

/-! ### The chart reader -/

/-- Rules R69 and R72: the reader accepts a byte sequence exactly when it spells a chart of the grammar
whose entries meet conditions (b), (c) and (d), and then returns the entries in their order. -/
def Obligations.ChartReaderAcceptsExactlyTheGrammar : Prop :=
  ∀ (symw : Nat) (c : List Byte) (w : Nat) (table : List (Bits × Symbol)),
    parseChart symw c w = some table ↔
      ∃ entries, c = spelledChart entries ∧ acceptableEntries symw w entries ∧
        table = entries.map fun e => (e.1, symbolOfBits e.2)

/-- Rule R143, and rule R70 with it: the reader inverts the writer, the table's pairs coming back swapped
and in the same order. -/
def Obligations.ChartReaderInvertsTheWriter : Prop :=
  ∀ (symw w : Nat) (table : List (Symbol × Bits)), codesDiffer w table →
    SymbolsFit symw (table.map Prod.fst) →
    parseChart symw (chartText table) w = some (table.map Prod.swap)

/-! ### The decompression stages -/

/-- Rules R109, R111, R114 and R116: PARSE reads the three header fields, the chart and the payload, and
changes nothing but its five stores and, by its completion, `PHASE`. -/
def Obligations.ParseReadsHeaderChartAndPayload : Prop :=
  ∀ (s : State) (w p b2 b3 b4 b5 : Byte) (rest : List Byte) (n : Nat) (table : List (Bits × Symbol)),
    s.input = w :: p :: b2 :: b3 :: b4 :: b5 :: rest →
    n = b2.toNat * 2 ^ 24 + b3.toNat * 2 ^ 16 + b4.toNat * 2 ^ 8 + b5.toNat →
    w ≠ 0#8 → p.toNat ≤ 7 → n ≤ rest.length → (rest.length = n → p = 0#8) →
    parseChart s.cfg.symw (rest.take n) w.toNat = some table →
    exec .parse s = .next (setPhase .unpack (s.setDec { s.dec with
      width := w, pad := p, chartSize := BitVec.ofNat 32 n, table := table,
      payload := rest.drop n }))

/-- Rules R110, R112, R113, R115, R116 and R117: the error PARSE raises is the first that applies in the
order of rule R117; the sum `6 + chartSize` does not wrap. -/
def Obligations.ParseRaisesTheFirstErrorInOrder : Prop :=
  ∀ s : State, (s.cti.len < 6 → ParseRaises s .truncatedHeader) ∧
    ∀ (w p b2 b3 b4 b5 : Byte) (rest : List Byte) (n : Nat),
      s.input = w :: p :: b2 :: b3 :: b4 :: b5 :: rest →
      n = b2.toNat * 2 ^ 24 + b3.toNat * 2 ^ 16 + b4.toNat * 2 ^ 8 + b5.toNat →
      (w = 0#8 ∨ 7 < p.toNat → ParseRaises s .invalidHeader) ∧
      (w ≠ 0#8 → p.toNat ≤ 7 → s.cti.len < 6 + n → ParseRaises s .truncatedChart) ∧
      (w ≠ 0#8 → p.toNat ≤ 7 → s.cti.len = 6 + n → p ≠ 0#8 → ParseRaises s .invalidHeader) ∧
      (w ≠ 0#8 → p.toNat ≤ 7 → 6 + n ≤ s.cti.len → (s.cti.len = 6 + n → p = 0#8) →
        parseChart s.cfg.symw (rest.take n) w.toNat = none → ParseRaises s .malformedChart)

/-- Rule R148: PARSE of what SERIALIZE wrote succeeds and returns the width, the padding, the swapped table
and the payload. -/
def Obligations.ParseInvertsSerialize : Prop :=
  ∀ s : State, 1 ≤ s.enc.width → s.enc.width ≤ 255 → codesDiffer s.enc.width s.enc.table →
    SymbolsFit s.cfg.symw (s.enc.table.map Prod.fst) →
    (s.enc.payload ≠ [] ∨ s.enc.pad = 0) → (chartText s.enc.table).length ≤ 2 ^ 32 - 1 →
    withinCap s.cfg.ctoCap (6 + (chartText s.enc.table).length + s.enc.payload.length) = true →
    ∃ t, exec .serialize s = .next t ∧
      ∀ u : State, u.cfg.symw = s.cfg.symw → u.input = t.container →
        ∃ v, exec .parse u = .next v ∧ v.dec.width.toNat = s.enc.width ∧
          v.dec.pad.toNat = s.enc.pad.val ∧ v.dec.table = s.enc.table.map Prod.swap ∧
          v.dec.payload = s.enc.payload ∧ v.status = { u.status with phase := .unpack }

/-- Rules R118 to R121 and R123: UNPACK expands the payload, removes the padding, looks up each whole
window in order and drops the bits after the last one; it commits the symbols and ends `done`. -/
def Obligations.UnpackDecodesTheWholeWindows : Prop :=
  ∀ (s : State) (symbols : List Symbol), s.dec.width ≠ 0#8 →
    s.dec.pad.toNat ≤ 8 * s.dec.payload.length →
    symbols.length = (8 * s.dec.payload.length - s.dec.pad.toNat) / s.dec.width.toNat →
    (∀ m, m < symbols.length →
      lookupSymbol s.dec.table
        (windowAt (payloadBits s.dec.payload s.dec.pad.toNat) s.dec.width.toNat m) = symbols[m]?) →
    withinCap s.cfg.txoCap symbols.length = true →
    ∃ t, exec .unpack s = .next t ∧ t.decoded = symbols ∧ t.txo.len = symbols.length ∧
      t.dec = { s.dec with
        bits := payloadBits s.dec.payload s.dec.pad.toNat
        pos := s.dec.width.toNat * symbols.length
        out := symbols } ∧
      t.status = { s.status with busy := false, done := true, phase := .idle } ∧
      t = ((s.setDec t.dec).setTxo t.txo).setStatus t.status

/-- Rule R122: a lookup finds the symbol of the pair with that code, codes being pairwise different, and
finds none exactly where no pair has the code; a window without an entry makes UNPACK raise
UnknownCodeError, and the symbols decoded before it are not delivered. -/
def Obligations.UnknownWindowRaisesAndDeliversNothing : Prop :=
  (∀ (table : List (Bits × Symbol)) (w : Bits) (x : Symbol), (table.map Prod.fst).Nodup →
    (lookupSymbol table w = some x ↔ (w, x) ∈ table)) ∧
  (∀ (table : List (Bits × Symbol)) (w : Bits),
    lookupSymbol table w = none ↔ ∀ e ∈ table, e.1 ≠ w) ∧
  ∀ (s : State) (m : Nat), s.dec.width ≠ 0#8 → s.dec.pad.toNat ≤ 8 * s.dec.payload.length →
    m < (8 * s.dec.payload.length - s.dec.pad.toNat) / s.dec.width.toNat →
    lookupSymbol s.dec.table
      (windowAt (payloadBits s.dec.payload s.dec.pad.toNat) s.dec.width.toNat m) = none →
    ∃ d, exec .unpack s = .next (raiseError .unknownCode (s.setDec d)) ∧
      d.table = s.dec.table ∧ d.payload = s.dec.payload ∧ d.width = s.dec.width ∧
      d.pad = s.dec.pad ∧ d.chartSize = s.dec.chartSize

/-- Where UNPACK's precondition fails (rules R133, R149 (e), R186), the model stops by a name of its own
(log 8): more padding than bits; width 0 with an entry for the empty window. At width 0 without such an
entry the first window raises UnknownCodeError (rule R122). -/
def Obligations.UnpackStopsOutsideItsPrecondition : Prop :=
  ∀ s : State,
    (8 * s.dec.payload.length < s.dec.pad.toNat →
      exec .unpack s = .fault .paddingExceedsPayload) ∧
    (s.dec.pad.toNat ≤ 8 * s.dec.payload.length → s.dec.width = 0#8 →
      ((∃ x, ([], x) ∈ s.dec.table) → exec .unpack s = .fault .windowNeverAdvances) ∧
      ((∀ x, ([], x) ∉ s.dec.table) →
        ∃ d, exec .unpack s = .next (raiseError .unknownCode (s.setDec d))))

/-! ### The commands -/

/-- Rule R125: COMPRESS of a text whose width and chart fit the index integer and the container's fields
ends `done` with the container whose header, chart and payload the rules give: the payload's bits are the
symbols' codes in order, then the padding. -/
def Obligations.CompressWritesTheContainerOfTheText : Prop :=
  ∀ s : State, Idle s → s.txi.len ≠ 0 → FieldsFit s.cfg s.text →
    withinCap s.cfg.ctoCap (containerLengthOf s.text) = true →
    ∃ t pad payload, exec .compress s = .next t ∧
      t.container = [BitVec.ofNat 8 (widthOf s.text), BitVec.ofNat 8 pad] ++
        be32 (chartOf s.text).length ++ chartOf s.text ++ payload ∧
      t.cto.len = containerLengthOf s.text ∧
      payload.flatMap bitsOfByte =
        (s.text.map fun x => (lookupCode (tableOf s.text) x).getD []).flatten ++
          List.replicate pad false ∧
      pad < 8 ∧ t.status.word = 0x0002#16 ∧
      t = ((s.setEnc t.enc).setCto t.cto).setStatus t.status

/-- Rule R126: DECOMPRESS of a container PARSE accepts, all of whose windows have an entry, ends `done` with
the windows' symbols. -/
def Obligations.DecompressWritesTheTextOfTheContainer : Prop :=
  ∀ (s : State) (w p b2 b3 b4 b5 : Byte) (rest : List Byte) (n : Nat)
    (table : List (Bits × Symbol)) (symbols : List Symbol), Idle s →
    s.input = w :: p :: b2 :: b3 :: b4 :: b5 :: rest →
    n = b2.toNat * 2 ^ 24 + b3.toNat * 2 ^ 16 + b4.toNat * 2 ^ 8 + b5.toNat →
    w ≠ 0#8 → p.toNat ≤ 7 → n ≤ rest.length → (rest.length = n → p = 0#8) →
    parseChart s.cfg.symw (rest.take n) w.toNat = some table →
    symbols.length = (8 * (rest.length - n) - p.toNat) / w.toNat →
    (∀ m, m < symbols.length →
      lookupSymbol table (windowAt (payloadBits (rest.drop n) p.toNat) w.toNat m) = symbols[m]?) →
    withinCap s.cfg.txoCap symbols.length = true →
    ∃ t, exec .decompress s = .next t ∧ t.decoded = symbols ∧ t.txo.len = symbols.length ∧
      t.status.word = 0x0002#16 ∧ t = ((s.setDec t.dec).setTxo t.txo).setStatus t.status

/-- Rule R135, the round trip: for every text of at least one symbol, every symbol below `2^SYMW`,
DECOMPRESS of the container COMPRESS wrote, copied by the host into `CTI`, gives the text back. With symbols
of at most 16 bits and an index integer of at least 17, and so with the parameters of rule R7, every such
text fits the fields. -/
def Obligations.CompressedTextDecompressesToItself : Prop :=
  (∀ (p : Params) (text : List Symbol), text ≠ [] → SymbolsFit p.symw text → p.symw ≤ 16 →
    17 ≤ p.idxw → FieldsFit p text) ∧
  ∀ s : State, Idle s → 1 ≤ s.txi.len → SymbolsFit s.cfg.symw s.text → FieldsFit s.cfg s.text →
    withinCap s.cfg.ctoCap (containerLengthOf s.text) = true →
    ∃ t, exec .compress s = .next t ∧ t.status.word = 0x0002#16 ∧
      ∀ u : State, Idle u → u.cfg.symw = s.cfg.symw → u.input = t.container →
        withinCap u.cfg.txoCap s.txi.len = true →
        ∃ v, exec .decompress u = .next v ∧ v.status.word = 0x0002#16 ∧
          v.txo.len = s.txi.len ∧ v.decoded = s.text

/-- Rules R137 to R139, R145 and R147: the width, the padding and the length of a container COMPRESS wrote,
with `k` the number of distinct symbols of the text; the width is at most `SYMW`, 16 at its default. -/
def Obligations.ContainerHeaderAndLengthFollowTheText : Prop :=
  ∀ s t : State, Idle s → SymbolsFit s.cfg.symw s.text → exec .compress s = .next t →
    t.status.done = true →
    ∃ w pad, t.container[0]? = some (BitVec.ofNat 8 w) ∧
      t.container[1]? = some (BitVec.ofNat 8 pad) ∧
      w = (if s.text.dedup.length = 1 then 1 else clog2 s.text.dedup.length) ∧
      1 ≤ w ∧ w ≤ s.cfg.symw ∧ pad ≤ 7 ∧
      pad = 8 * ceilDiv (w * s.txi.len) 8 - w * s.txi.len ∧
      t.cto.len = 6 + chartSizeField t.container + ceilDiv (w * s.txi.len) 8 ∧
      (∃ table, parseChart s.cfg.symw ((t.container.drop 6).take (chartSizeField t.container)) w =
          some table ∧ table.length = s.text.dedup.length ∧
        ∀ i, i < table.length → (table.map Prod.fst)[i]? = some (bin w i)) ∧
      1 ≤ ceilDiv (w * s.txi.len) 8 ∧ 16 ≤ t.cto.len

/-- Rules R134 and R136: a command's result depends on its input alone, not on `STATUS`, the other path's
buffers, the internal stores or the free values of the rest of the state. -/
def Obligations.CommandsDependOnTheirInputAlone : Prop :=
  ∀ s u : State, Idle s → Idle u → s.cfg = u.cfg →
    (s.text = u.text → ∀ t, exec .compress s = .next t →
      ∃ v, exec .compress u = .next v ∧ v.status = t.status ∧ v.container = t.container ∧
        v.enc = t.enc) ∧
    (s.input = u.input → ∀ t, exec .decompress s = .next t →
      ∃ v, exec .decompress u = .next v ∧ v.status = t.status ∧ v.decoded = t.decoded ∧
        v.dec = t.dec)

/-- Rule R134, the frame of the two commands: every buffer and store but the command's own output, group
and `STATUS` is unchanged, element by element and in its length. -/
def Obligations.CommandsChangeOnlyTheirOwnPath : Prop :=
  (∀ s t : State, exec .compress s = .next t →
    t = ((s.setEnc t.enc).setCto t.cto).setStatus t.status ∧
    t.txi.len = s.txi.len ∧ t.cti.len = s.cti.len ∧ t.txo.len = s.txo.len ∧
    ∀ i, t.txiElem i = s.txiElem i ∧ t.ctiElem i = s.ctiElem i ∧ t.txoElem i = s.txoElem i) ∧
  (∀ s t : State, exec .decompress s = .next t →
    t = ((s.setDec t.dec).setTxo t.txo).setStatus t.status ∧
    t.txi.len = s.txi.len ∧ t.cti.len = s.cti.len ∧ t.cto.len = s.cto.len ∧
    ∀ i, t.txiElem i = s.txiElem i ∧ t.ctiElem i = s.ctiElem i ∧ t.ctoElem i = s.ctoElem i)

/-- The frames of the seven stages (rules R88, R94, R98, R102, R108, R117 and R124), whether a stage
completes or raises an error: what it changes of the stores, and that of `STATUS` a completed stage changes
`PHASE` alone (rule R19) or ends the command (rule R129), and a failed one ends it (rule R161). Every
element of every buffer but the output of SERIALIZE and UNPACK reads as before. -/
def Obligations.StagesChangeOnlyTheirOwnStores : Prop :=
  (∀ s t : State, exec .extract s = .next t →
    t = (s.setEnc { s.enc with alpha := t.enc.alpha }).setStatus t.status ∧
    (t.status = { s.status with phase := .build } ∨ ∃ e, t.status = s.status.failed e)) ∧
  (∀ s t : State, exec .build s = .next t →
    t = (s.setEnc { s.enc with width := t.enc.width, table := t.enc.table }).setStatus t.status ∧
    (t.status = { s.status with phase := .encode } ∨ ∃ e, t.status = s.status.failed e)) ∧
  (∀ s t : State, exec .encode s = .next t →
    t = (s.setEnc { s.enc with bits := t.enc.bits }).setStatus t.status ∧
    (t.status = { s.status with phase := .pack } ∨ ∃ e, t.status = s.status.failed e)) ∧
  (∀ s t : State, exec .pack s = .next t →
    t = (s.setEnc { s.enc with
      pad := t.enc.pad, padded := t.enc.padded, payload := t.enc.payload }).setStatus t.status ∧
    t.status = { s.status with phase := .serialize }) ∧
  (∀ s t : State, exec .serialize s = .next t →
    t = ((s.setEnc { s.enc with chart := t.enc.chart, chartSize := t.enc.chartSize }).setCto
      t.cto).setStatus t.status ∧
    (t.status = s.status.finished ∨ ((∃ e, t.status = s.status.failed e) ∧ t.cto = s.cto))) ∧
  (∀ s t : State, exec .parse s = .next t →
    t = (s.setDec { s.dec with
      width := t.dec.width, pad := t.dec.pad, chartSize := t.dec.chartSize,
      table := t.dec.table, payload := t.dec.payload }).setStatus t.status ∧
    (t.status = { s.status with phase := .unpack } ∨ ∃ e, t.status = s.status.failed e)) ∧
  (∀ s t : State, exec .unpack s = .next t →
    t = ((s.setDec { s.dec with bits := t.dec.bits, pos := t.dec.pos, out := t.dec.out }).setTxo
      t.txo).setStatus t.status ∧
    (t.status = s.status.finished ∨ ((∃ e, t.status = s.status.failed e) ∧ t.txo = s.txo))) ∧
  (∀ (s t : State) (i : Instr), exec i s = .next t → ∀ j,
    t.txiElem j = s.txiElem j ∧ t.ctiElem j = s.ctiElem j ∧
    (i ≠ .compress → i ≠ .serialize → t.ctoElem j = s.ctoElem j) ∧
    (i ≠ .decompress → i ≠ .unpack → t.txoElem j = s.txoElem j))

/-- Rules R18, R129 and R130: a command that ends has `BUSY = 0` and exactly one of `DONE` and `ERR`; the
value of `STATUS` is `0x0002`, or it is made of the error's code and the failing stage. -/
def Obligations.CommandEndsWithExactlyOneFlag : Prop :=
  ∀ (s t : State) (mode : BitVec 1), Idle s → execCommand mode s = .next t →
    t.status.busy = false ∧
    ((t.status.done = true ∧ t.status.err = false ∧ t.status.phase = .idle ∧
        t.status.errcode = none ∧ t.status.word = 0x0002#16) ∨
      (t.status.done = false ∧ t.status.err = true ∧ ∃ e, t.status.errcode = some e ∧
        e.raisedBy t.status.phase = true ∧
        t.status.word.toNat = e.code.toNat * 256 + t.status.phase.code.toNat * 8 + 4))

/-- Rule R146: with `SYMW = 16` and `IDXW = 32` the only error COMPRESS can end with is EmptyInputError. -/
def Obligations.CompressFailsOnlyOnEmptyInput : Prop :=
  ∀ s t : State, Idle s → s.cfg.symw = 16 → s.cfg.idxw = 32 → SymbolsFit s.cfg.symw s.text →
    exec .compress s = .next t →
    t.status.err = true → t.status.word = 0x110C#16 ∧ s.txi.len = 0

/-- Rule R157: which command can end with which error, at which stage. -/
def Obligations.EachCommandHasItsOwnErrors : Prop :=
  (∀ s t : State, Idle s → exec .compress s = .next t → t.status.err = true →
    (t.status.errcode, t.status.phase) ∈ [(some CodecError.emptyInput, Phase.extract),
      (some .emptyInput, .build), (some .alphabetTooLarge, .build), (some .unmappedSymbol, .encode),
      (some .widthOverflow, .serialize), (some .chartTooLarge, .serialize)]) ∧
  (∀ s t : State, Idle s → exec .decompress s = .next t → t.status.err = true →
    (t.status.errcode, t.status.phase) ∈ [(some CodecError.truncatedHeader, Phase.parse),
      (some .truncatedChart, .parse), (some .malformedChart, .parse), (some .invalidHeader, .parse),
      (some .unknownCode, .unpack)]) ∧
  (∀ s t : State, exec .pack s = .next t → t.status.err = s.status.err)

/-- Rules R133 and R186: every command started in an idle state ends, `done` or `error`, but for an output
that is longer than its capacity, which is refused (rule R58). The output's length is known in advance: the
container's from the text (rule R139), the text's from the container (rule R151). -/
def Obligations.EveryCommandEnds : Prop :=
  ∀ s : State, Idle s →
    ((∃ t, exec .compress s = .next t ∧ Idle t) ∨
      exec .compress s = .refused (.outputExceedsCapacity .cto) ∧
        withinCap s.cfg.ctoCap (containerLengthOf s.text) = false) ∧
    ((∃ t, exec .decompress s = .next t ∧ Idle t) ∨
      exec .decompress s = .refused (.outputExceedsCapacity .txo) ∧
        withinCap s.cfg.txoCap (textLengthOf s.input) = false)

/-- Rules R92, R130: COMPRESS of a text whose code width does not fit the index integer ends in BUILD with
AlphabetTooLargeError, `STATUS = 0x3114`, and no output. -/
def Obligations.CompressOfTooLargeAlphabetFails : Prop :=
  ∀ s : State, Idle s → s.txi.len ≠ 0 → s.cfg.idxw ≤ widthOf s.text →
    ∃ t, exec .compress s = .next t ∧ t.status.word = 0x3114#16 ∧ t.cto.len = 0 ∧
      t.enc = { EncStores.empty with alpha := alphabetOf s.text } ∧
      t = ((s.setEnc t.enc).setCto t.cto).setStatus t.status

/-- Rules R130, R160 and R161: DECOMPRESS ends with the error PARSE takes, without running UNPACK; and where
PARSE accepts the container and a window has no entry, with UnknownCodeError. -/
def Obligations.DecompressEndsWithTheFirstError : Prop :=
  (∀ (s : State) (e : CodecError), Idle s → ParseRaises (startDecompress s) e →
    DecompressFails s e ∧ ∀ t, exec .decompress s = .next t → t.status.phase = .parse ∧
      t.dec.bits = [] ∧ t.dec.pos = 0 ∧ t.dec.out = []) ∧
  ∀ (s : State) (w p b2 b3 b4 b5 : Byte) (rest : List Byte) (n m : Nat)
    (table : List (Bits × Symbol)), Idle s →
    s.input = w :: p :: b2 :: b3 :: b4 :: b5 :: rest →
    n = b2.toNat * 2 ^ 24 + b3.toNat * 2 ^ 16 + b4.toNat * 2 ^ 8 + b5.toNat →
    w ≠ 0#8 → p.toNat ≤ 7 → n ≤ rest.length → (rest.length = n → p = 0#8) →
    parseChart s.cfg.symw (rest.take n) w.toNat = some table →
    m < (8 * (rest.length - n) - p.toNat) / w.toNat →
    lookupSymbol table (windowAt (payloadBits (rest.drop n) p.toNat) w.toNat m) = none →
    DecompressFails s .unknownCode ∧
      ∀ t, exec .decompress s = .next t → t.status.word = 0x243C#16

/-- Rule R162: after an error the output buffer's length is 0. -/
def Obligations.FailedCommandLeavesNoOutput : Prop :=
  (∀ s t : State, Idle s → exec .compress s = .next t → t.status.err = true →
    t.cto.len = 0 ∧ t.container = []) ∧
  (∀ s t : State, Idle s → exec .decompress s = .next t → t.status.err = true →
    t.txo.len = 0 ∧ t.decoded = [])

/-- Rule R58: a command whose output would not fit is refused, COMPRESS as well as DECOMPRESS and its stage
UNPACK, and the host cannot set an input length above its capacity. -/
def Obligations.OutputAboveCapacityIsRefused : Prop :=
  (∀ s : State, Idle s → s.txi.len ≠ 0 → FieldsFit s.cfg s.text →
    withinCap s.cfg.ctoCap (containerLengthOf s.text) = false →
    exec .compress s = .refused (.outputExceedsCapacity .cto)) ∧
  (∀ (s : State) (w p b2 b3 b4 b5 : Byte) (rest : List Byte) (n : Nat)
    (table : List (Bits × Symbol)) (symbols : List Symbol), Idle s →
    s.input = w :: p :: b2 :: b3 :: b4 :: b5 :: rest →
    n = b2.toNat * 2 ^ 24 + b3.toNat * 2 ^ 16 + b4.toNat * 2 ^ 8 + b5.toNat →
    w ≠ 0#8 → p.toNat ≤ 7 → n ≤ rest.length → (rest.length = n → p = 0#8) →
    parseChart s.cfg.symw (rest.take n) w.toNat = some table →
    symbols.length = (8 * (rest.length - n) - p.toNat) / w.toNat →
    (∀ m, m < symbols.length →
      lookupSymbol table (windowAt (payloadBits (rest.drop n) p.toNat) w.toNat m) = symbols[m]?) →
    withinCap s.cfg.txoCap symbols.length = false →
    exec .decompress s = .refused (.outputExceedsCapacity .txo)) ∧
  (∀ (s : State) (symbols : List Symbol), s.dec.width ≠ 0#8 →
    s.dec.pad.toNat ≤ 8 * s.dec.payload.length →
    symbols.length = (8 * s.dec.payload.length - s.dec.pad.toNat) / s.dec.width.toNat →
    (∀ m, m < symbols.length →
      lookupSymbol s.dec.table
        (windowAt (payloadBits s.dec.payload s.dec.pad.toNat) s.dec.width.toNat m) = symbols[m]?) →
    withinCap s.cfg.txoCap symbols.length = false →
    exec .unpack s = .refused (.outputExceedsCapacity .txo)) ∧
  (∀ (s : State) (n : Nat),
    (withinCap s.cfg.txiCap n = false →
      performAccess (.writeTxiLen n) s = .refused (.inputLengthExceedsCapacity .txi)) ∧
    (withinCap s.cfg.ctiCap n = false →
      performAccess (.writeCtiLen n) s = .refused (.inputLengthExceedsCapacity .cti)))

/-- Rule R128: nothing of a command's progress is visible but its end. Starting a command and letting the
engine run its stages one by one gives the outcome of the command as one step. -/
def Obligations.StagedRunEqualsTheAtomicCommand : Prop :=
  ∀ s : State, Idle s →
    Host.Core.run Sys2Proof.core 6 ((s.setHost [.start 0#1]).setHostPos 0) =
      exec .compress ((s.setHost [.start 0#1]).setHostPos 1) ∧
    Host.Core.run Sys2Proof.core 3 ((s.setHost [.start 1#1]).setHostPos 0) =
      exec .decompress ((s.setHost [.start 1#1]).setHostPos 1)

/-- Rule R151: after a DECOMPRESS that ended `done`, the length of the text and each of its symbols. -/
def Obligations.DecodedTextHasTheWindowsOfItsPayload : Prop :=
  ∀ (s t : State) (w p b2 b3 b4 b5 : Byte) (rest : List Byte) (n : Nat), Idle s →
    exec .decompress s = .next t → t.status.done = true →
    s.input = w :: p :: b2 :: b3 :: b4 :: b5 :: rest →
    n = b2.toNat * 2 ^ 24 + b3.toNat * 2 ^ 16 + b4.toNat * 2 ^ 8 + b5.toNat →
    t.txo.len = (8 * (s.cti.len - 6 - n) - p.toNat) / w.toNat ∧
    ∃ table, parseChart s.cfg.symw (rest.take n) w.toNat = some table ∧
      ∀ m, m < t.txo.len →
        lookupSymbol table (windowAt (payloadBits (rest.drop n) p.toNat) w.toNat m) = t.decoded[m]?

/-- Rule R152: decoding does not depend on the order of the chart's entries. -/
def Obligations.ChartEntryOrderDoesNotMatter : Prop :=
  ∀ (s u t : State) (w p : Byte) (n : Nat) (entries entries' : List (Bits × Bits))
    (payload : List Byte), Idle s → Idle u → s.cfg = u.cfg → entries.Perm entries' →
    acceptableEntries s.cfg.symw w.toNat entries → n = (spelledChart entries).length → n < 2 ^ 32 →
    s.input = [w, p] ++ be32 n ++ spelledChart entries ++ payload →
    u.input = [w, p] ++ be32 n ++ spelledChart entries' ++ payload →
    exec .decompress s = .next t →
    ∃ v, exec .decompress u = .next v ∧ v.status = t.status ∧ v.decoded = t.decoded

/-! ### Corruption -/

/-- Rule R141, cases (a) to (e), for a container COMPRESS wrote: a cut inside the header or the chart (to fewer
than `6 + chartSize` bytes), and any change of the width or chartSize field or of the padding field to a value
above 7, is always detected, with the error named. A cut inside the payload is not among these: it can go
undetected (rule R142). -/
def Obligations.CorruptedHeaderIsDetected : Prop :=
  ∀ s t u : State, Idle s → SymbolsFit s.cfg.symw s.text → exec .compress s = .next t →
    t.status.done = true → Idle u → u.cfg.symw = s.cfg.symw →
    (∀ n, n < 6 → u.input = t.container.take n → DecompressFails u .truncatedHeader) ∧
    (∀ n, 6 ≤ n → n < 6 + chartSizeField t.container → u.input = t.container.take n →
      DecompressFails u .truncatedChart) ∧
    (∀ b, b ≠ t.container.getD 0 0#8 → u.input = t.container.set 0 b →
      DecompressFails u (if b = 0#8 then .invalidHeader else .malformedChart)) ∧
    (∀ b, 7 < b.toNat → u.input = t.container.set 1 b → DecompressFails u .invalidHeader) ∧
    (∀ n, n ≠ chartSizeField t.container → n < 2 ^ 32 →
      u.input = t.container.take 2 ++ be32 n ++ t.container.drop 6 →
      DecompressFails u
        (if t.container.length < 6 + n then .truncatedChart
         else if n = t.container.length - 6 ∧ t.container.getD 1 0#8 ≠ 0#8 then .invalidHeader
         else .malformedChart))

/-- Rule R141, case (f): a changed character inside a key of the chart is always detected. -/
def Obligations.CorruptedKeyIsDetected : Prop :=
  ∀ (s t u : State) (i j : Nat) (x : Symbol) (key : Bits) (b : Bool), Idle s →
    SymbolsFit s.cfg.symw s.text → exec .compress s = .next t → t.status.done = true → Idle u →
    u.cfg.symw = s.cfg.symw →
    (tableOf s.text)[i]? = some (x, key) → key[j]? = some b →
    u.input = t.container.take 6 ++ chartText ((tableOf s.text).set i (x, key.set j (!b))) ++
      t.container.drop (6 + chartSizeField t.container) →
    DecompressFails u
      (if key.set j (!b) ∈ (tableOf s.text).map Prod.snd then .malformedChart else .unknownCode)

/-- Rule R142: a change of the padding byte to a greater value up to 7 is not detected; DECOMPRESS ends
`done` with the text cut short. -/
def Obligations.GreaterPaddingCutsTheTextUndetected : Prop :=
  ∀ (s t u : State) (p : Byte), Idle s → SymbolsFit s.cfg.symw s.text →
    exec .compress s = .next t → t.status.done = true → Idle u → u.cfg.symw = s.cfg.symw →
    (t.container.getD 1 0#8).toNat ≤ p.toNat → p.toNat ≤ 7 →
    u.input = t.container.set 1 p → withinCap u.cfg.txoCap s.txi.len = true →
    ∃ v, exec .decompress u = .next v ∧ v.status.word = 0x0002#16 ∧
      v.decoded = s.text.take
        ((8 * ceilDiv (widthOf s.text * s.txi.len) 8 - p.toNat) / widthOf s.text)

/-! ### The invariant -/

/-- The invariant holds after reset. -/
def Obligations.InvariantHoldsAtReset : Prop := Inv State.reset

/-- Every step keeps the invariant: the memories' canonical form, every written symbol below `2^SYMW`, the
lengths within the capacities, the output buffers exactly what was committed, a legal `STATUS` (rules R17 to
R20), no partial result (rule R162), and, while a command runs, its stores exactly what its completed stages
wrote. -/
def Obligations.StepKeepsTheInvariant : Prop :=
  ∀ s t : State, Inv s → step s = .next t → Inv t

/-- From a state that meets the invariant a step always answers a next state, but for a host access that the
host cannot make (rules R42, R58; log 7), and an output above its capacity (rule R58): no other fault or
refusal of the model can occur in a run (rules R133 and R186). -/
def Obligations.StepStopsOnlyAtAccessesAndCapacities : Prop :=
  ∀ s : State, Inv s →
    (∃ t, step s = .next t) ∨
    (∃ a, nextEvent s = some (.access a) ∧ a.wellFormed s.cfg = false ∧
      ((∃ b i, step s = .refused (.noSuchElement b i)) ∨
        (∃ v, step s = .refused (.symbolAboveWidth v)) ∨
        ∃ b, step s = .refused (.inputLengthExceedsCapacity b))) ∨
    ∃ b, step s = .refused (.outputExceedsCapacity b) ∧ (b = .cto ∨ b = .txo) ∧
      capOf s.cfg b ≠ none

/-- The invariant gives what the statements about texts assume: every symbol of the text in `TXI`, and of
the text in `TXO`, is below `2^SYMW` (rules R21 and R24), also where nothing has written it. -/
def Obligations.InvariantMakesTheTextsFit : Prop :=
  ∀ s : State, Inv s → SymbolsFit s.cfg.symw s.text ∧ SymbolsFit s.cfg.symw s.decoded

/-! ### Parameters other than the defaults, and the output buffers -/

/-- Rules R105, R106, R130 and R146: with parameters that let the width or the chart outgrow its field of
the container, COMPRESS ends in SERIALIZE with WidthOverflowError, `STATUS = 0x322C`, or with
ChartTooLargeError, `STATUS = 0x332C`, and no output. -/
def Obligations.CompressBeyondTheFieldsFails : Prop :=
  ∀ s : State, Idle s → s.txi.len ≠ 0 → widthOf s.text < s.cfg.idxw →
    (255 < widthOf s.text → ∃ t, exec .compress s = .next t ∧ t.status.word = 0x322C#16 ∧
      t.cto.len = 0 ∧ t = ((s.setEnc t.enc).setCto t.cto).setStatus t.status) ∧
    (widthOf s.text ≤ 255 → 2 ^ 32 - 1 < (chartOf s.text).length →
      ∃ t, exec .compress s = .next t ∧ t.status.word = 0x332C#16 ∧
        t.cto.len = 0 ∧ t = ((s.setEnc t.enc).setCto t.cto).setStatus t.status)

/-- Rule R25, fourth row: a host write of an output buffer's element or length is ignored in every state. -/
def Obligations.OutputWritesAreIgnored : Prop :=
  ∀ s : State,
    (∀ (i : Nat) (b : Byte), elementExists s.cfg .cto i = true →
      performAccess (.writeCto i b) s = .next s) ∧
    (∀ n, performAccess (.writeCtoLen n) s = .next s) ∧
    (∀ (i : Nat) (v : Symbol), elementExists s.cfg .txo i = true → v < 2 ^ s.cfg.symw →
      performAccess (.writeTxo i v) s = .next s) ∧
    ∀ n, performAccess (.writeTxoLen n) s = .next s
end

