-- ==== Sys2Proof/Laws/Operands.lean ====
section
/-! SUPPORT. What the pure functions of spec 00_scope.md rule R9 say: one spec lemma each. -/

namespace Sys2Proof.Machine

theorem clog2From_spec (fuel n k : Nat) (hk : k ≤ 2 ^ (n + fuel)) :
    k ≤ 2 ^ clog2From fuel n k ∧ n ≤ clog2From fuel n k ∧
      ∀ m, n ≤ m → k ≤ 2 ^ m → clog2From fuel n k ≤ m := by
  induction fuel generalizing n with
  | zero => exact ⟨hk, le_refl _, fun m hm _ => hm⟩
  | succ fuel ih =>
    simp only [clog2From]
    split
    · rename_i h
      exact ⟨h, le_refl _, fun m hm _ => hm⟩
    · rename_i h
      obtain ⟨h1, h2, h3⟩ := ih (n + 1) (by rwa [Nat.add_right_comm n 1 fuel])
      refine ⟨h1, by omega, fun m hm hk => h3 m ?_ hk⟩
      rcases Nat.eq_or_lt_of_le hm with rfl | hm
      · exact absurd hk h
      · exact hm

/-- `k <= 2^clog2(k)`. -/
theorem le_two_pow_clog2 (k : Nat) : k ≤ 2 ^ clog2 k :=
  (clog2From_spec k 0 k (by simpa using Nat.lt_two_pow_self.le)).1

/-- `clog2(k)` is the least such exponent. -/
theorem clog2_le_of_le_two_pow {k m : Nat} (h : k ≤ 2 ^ m) : clog2 k ≤ m :=
  (clog2From_spec k 0 k (by simpa using Nat.lt_two_pow_self.le)).2.2 m (Nat.zero_le m) h

theorem codeWidth_pos (k : Nat) : 1 ≤ codeWidth k := le_max_left _ _

/-- Every index of an alphabet of `k` symbols fits its code width. -/
theorem le_two_pow_codeWidth (k : Nat) : k ≤ 2 ^ codeWidth k :=
  (le_two_pow_clog2 k).trans (Nat.pow_le_pow_right (by decide) (le_max_right _ _))

@[simp] theorem bin_length (n v : Nat) : (bin n v).length = n := by
  induction n with
  | zero => rfl
  | succ n ih => simp [bin, ih]

theorem foldl_val (b : Bits) (acc : Nat) :
    b.foldl (fun acc bit => 2 * acc + bit.toNat) acc = acc * 2 ^ b.length + val b := by
  induction b generalizing acc with
  | nil => simp [val]
  | cons x b ih =>
    simp only [List.foldl_cons, val, List.length_cons]
    rw [ih, ih (2 * 0 + x.toNat)]
    ring

@[simp] theorem val_nil : val [] = 0 := rfl

theorem val_cons (x : Bool) (b : Bits) : val (x :: b) = x.toNat * 2 ^ b.length + val b := by
  rw [val, List.foldl_cons, foldl_val]
  simp

theorem val_lt (b : Bits) : val b < 2 ^ b.length := by
  induction b with
  | nil => simp
  | cons x b ih =>
    rw [val_cons, List.length_cons, pow_succ]
    cases x <;> simp <;> omega

/-- `val` reads back what `bin` wrote. -/
theorem val_bin (n v : Nat) : val (bin n v) = v % 2 ^ n := by
  induction n with
  | zero => simp [bin, Nat.mod_one]
  | succ n ih =>
    rw [bin, val_cons, bin_length, ih]
    have h := Nat.testBit_eq_decide_div_mod_eq (x := v) (i := n)
    have h2 : v % 2 ^ (n + 1) = 2 ^ n * (v / 2 ^ n % 2) + v % 2 ^ n := by
      rw [pow_succ, Nat.mod_mul]; ring
    rw [h2, h]
    rcases Nat.mod_two_eq_zero_or_one (v / 2 ^ n) with h' | h' <;> simp [h']

theorem val_bin_of_lt {n v : Nat} (h : v < 2 ^ n) : val (bin n v) = v := by
  rw [val_bin, Nat.mod_eq_of_lt h]

/-- A bit string is determined by its length and its value. -/
theorem bits_eq_of_val {a b : Bits} (hl : a.length = b.length) (hv : val a = val b) : a = b := by
  induction a generalizing b with
  | nil => exact (List.eq_nil_of_length_eq_zero hl.symm).symm
  | cons x a ih =>
    cases b with
    | nil => simp at hl
    | cons y b =>
      have hl' : a.length = b.length := by simpa using hl
      rw [val_cons, val_cons, hl'] at hv
      have ha := val_lt a
      have hb := val_lt b
      rw [hl'] at ha
      have hxy : x = y := by
        cases x <;> cases y <;> simp at hv ⊢ <;> omega
      subst hxy
      rw [ih hl' (by omega)]

/-- `bin` writes back what `val` read. -/
theorem bin_val (b : Bits) : bin b.length (val b) = b :=
  bits_eq_of_val (bin_length _ _) (val_bin_of_lt (val_lt b))

@[simp] theorem bitsOfByte_length (b : Byte) : (bitsOfByte b).length = 8 := bin_length _ _

/-- Packing eight bits and unpacking the byte gives the bits back (rule R45). -/
theorem bitsOfByte_byteOfBits {b : Bits} (h : b.length = 8) : bitsOfByte (byteOfBits b) = b := by
  have hv := val_lt b
  rw [h] at hv
  rw [bitsOfByte, byteOfBits, BitVec.toNat_ofNat, Nat.mod_eq_of_lt hv, ← h, bin_val]

theorem byteOfBits_toNat {b : Bits} (h : b.length = 8) : (byteOfBits b).toNat = val b := by
  have hv := val_lt b
  rw [h] at hv
  rw [byteOfBits, BitVec.toNat_ofNat, Nat.mod_eq_of_lt hv]

theorem minbin_length (v : Nat) : (minbin v).length = max 1 (clog2 (v + 1)) := bin_length _ _

theorem minbin_length_pos (v : Nat) : 1 ≤ (minbin v).length := by
  rw [minbin_length]; exact le_max_left _ _

/-- The shortest form denotes the number. -/
theorem val_minbin (v : Nat) : val (minbin v) = v := by
  apply val_bin_of_lt
  exact lt_of_lt_of_le (Nat.lt_of_succ_le (le_two_pow_clog2 (v + 1)))
    (Nat.pow_le_pow_right (by decide) (le_max_right _ _))

theorem minbin_length_le {v n : Nat} (hn : 1 ≤ n) (h : v < 2 ^ n) : (minbin v).length ≤ n := by
  rw [minbin_length]
  exact max_le hn (clog2_le_of_le_two_pow h)

/-- The chart value of a symbol below `2^SYMW` has at most `SYMW` characters (rule R71). -/
theorem bitsOfSymbol_length_le {symw : Nat} (h1 : 1 ≤ symw) {s : Symbol} (h : s < 2 ^ symw) :
    (bitsOfSymbol s).length ≤ symw :=
  minbin_length_le h1 h

/-- A symbol's chart value denotes the symbol (rules R71 and R72). -/
@[simp] theorem symbolOfBits_bitsOfSymbol (s : Symbol) : symbolOfBits (bitsOfSymbol s) = s := by
  rw [symbolOfBits, bitsOfSymbol, val_minbin]

@[simp] theorem be32_length (n : Nat) : (be32 n).length = 4 := rfl

/-- Reading the four bytes of a size gives the size back (rule R44). -/
theorem fromBe32_be32 {n : Nat} (h : n < 2 ^ 32) :
    fromBe32 (BitVec.ofNat 8 (n / 2 ^ 24)) (BitVec.ofNat 8 (n / 2 ^ 16 % 256))
      (BitVec.ofNat 8 (n / 2 ^ 8 % 256)) (BitVec.ofNat 8 (n % 256)) = n := by
  simp only [fromBe32, BitVec.toNat_ofNat]
  omega

/-- Writing the size read from four bytes gives the bytes back (rule R44). -/
theorem be32_fromBe32 (b0 b1 b2 b3 : Byte) : be32 (fromBe32 b0 b1 b2 b3) = [b0, b1, b2, b3] := by
  have h0 := b0.isLt
  have h1 := b1.isLt
  have h2 := b2.isLt
  have h3 := b3.isLt
  simp only [be32, fromBe32, List.cons.injEq, and_true]
  refine ⟨?_, ?_, ?_, ?_⟩ <;>
    (apply BitVec.eq_of_toNat_eq; rw [BitVec.toNat_ofNat]; omega)

theorem fromBe32_lt (b0 b1 b2 b3 : Byte) : fromBe32 b0 b1 b2 b3 < 2 ^ 32 := by
  have h0 := b0.isLt
  have h1 := b1.isLt
  have h2 := b2.isLt
  have h3 := b3.isLt
  simp only [fromBe32]
  omega

theorem padLength_val (n : Nat) : (padLength n).val = (8 - n % 8) % 8 := rfl

/-- The padded length is a multiple of 8 (rule R100). -/
theorem add_padLength (n : Nat) : n + (padLength n).val = 8 * ceilDiv n 8 := by
  rw [padLength_val, ceilDiv]; omega

theorem lookupCode_mem {table : List (Symbol × Bits)} {s : Symbol} {c : Bits}
    (h : lookupCode table s = some c) : (s, c) ∈ table := by
  induction table with
  | nil => simp [lookupCode] at h
  | cons e table ih =>
    obtain ⟨t, d⟩ := e
    simp only [lookupCode] at h
    split at h
    · rename_i hts
      simp_all
    · exact List.mem_cons_of_mem _ (ih h)

theorem lookupCode_isSome {table : List (Symbol × Bits)} {s : Symbol} :
    (lookupCode table s).isSome = true ↔ ∃ c, (s, c) ∈ table := by
  induction table with
  | nil => simp [lookupCode]
  | cons e table ih =>
    obtain ⟨t, d⟩ := e
    simp only [lookupCode]
    by_cases hts : t = s
    · simp [hts]
    · simp [hts, ih, Ne.symm hts]

theorem lookupSymbol_mem {table : List (Bits × Symbol)} {w : Bits} {s : Symbol}
    (h : lookupSymbol table w = some s) : (w, s) ∈ table := by
  induction table with
  | nil => simp [lookupSymbol] at h
  | cons e table ih =>
    obtain ⟨c, t⟩ := e
    simp only [lookupSymbol] at h
    split at h
    · rename_i hcw
      simp_all
    · exact List.mem_cons_of_mem _ (ih h)

/-- Where no code occurs twice, a lookup finds exactly the table's pairs (rule R122). -/
theorem lookupSymbol_eq_some {table : List (Bits × Symbol)} (h : (table.map Prod.fst).Nodup)
    {w : Bits} {s : Symbol} : lookupSymbol table w = some s ↔ (w, s) ∈ table := by
  refine ⟨lookupSymbol_mem, fun hm => ?_⟩
  induction table with
  | nil => simp at hm
  | cons e table ih =>
    obtain ⟨c, t⟩ := e
    simp only [List.map_cons, List.nodup_cons] at h
    simp only [lookupSymbol]
    rcases List.mem_cons.mp hm with hm | hm
    · cases hm; simp
    · rw [if_neg, ih h.2 hm]
      rintro rfl
      exact h.1 (List.mem_map_of_mem (f := Prod.fst) hm)

theorem lookupSymbol_eq_none {table : List (Bits × Symbol)} {w : Bits} :
    lookupSymbol table w = none ↔ ∀ s, (w, s) ∉ table := by
  induction table with
  | nil => simp [lookupSymbol]
  | cons e table ih =>
    obtain ⟨c, t⟩ := e
    simp only [lookupSymbol]
    by_cases hcw : c = w
    · subst hcw
      simp only [↓reduceIte, reduceCtorEq, List.mem_cons, Prod.mk.injEq, true_and, not_or,
        false_iff, not_forall, not_and, not_not]
      exact ⟨t, fun h => absurd rfl h⟩
    · simp [hcw, ih, Ne.symm hcw]

end Sys2Proof.Machine
end

