-- ==== Sys2Proof/Laws/Chart.lean ====
section
/-! SUPPORT. What the chart's reading functions do on a character, a bit run, an entry and the list of the
entries. -/

namespace Sys2Proof.Machine

/-- A byte is one of the two bit characters. -/
def isBitByte (b : Byte) : Bool := b = asciiBit false || b = asciiBit true

theorem expectByte_eq_some {ch : Byte} {c rest : List Byte} :
    expectByte ch c = some rest ↔ c = ch :: rest := by
  cases c with
  | nil => simp [expectByte]
  | cons b c =>
    simp only [expectByte]
    split
    · rename_i h; subst h; simp
    · rename_i h; simp [h]

/-- Text before a character that is no bit is read back whole. -/
theorem readBits_bitText (b : Bits) {rest : List Byte} (h : ∀ x ∈ rest.head?, isBitByte x = false) :
    readBits (bitText b ++ rest) = b ∧ afterBits (bitText b ++ rest) = rest := by
  induction b with
  | nil =>
    cases rest with
    | nil => exact ⟨rfl, rfl⟩
    | cons x rest =>
      have hx : isBitByte x = false := h x rfl
      simp only [isBitByte, Bool.or_eq_false_iff, decide_eq_false_iff_not] at hx
      simp [bitText, readBits, afterBits, hx.1, hx.2]
  | cons x b ih =>
    cases x
    · exact ⟨by simpa [bitText, readBits] using ih.1, by simpa [bitText, afterBits] using ih.2⟩
    · have h10 : asciiBit true ≠ asciiBit false := by decide
      exact ⟨by simpa [bitText, readBits, h10] using ih.1, by simpa [bitText, afterBits] using ih.2⟩

/-- A run and what stands after it are the whole text. -/
theorem bitText_readBits_append (c : List Byte) : bitText (readBits c) ++ afterBits c = c := by
  induction c with
  | nil => rfl
  | cons b c ih =>
    by_cases h0 : b = asciiBit false
    · subst h0; simpa [readBits, afterBits, bitText] using ih
    · by_cases h1 : b = asciiBit true
      · subst h1
        have h10 : asciiBit true ≠ asciiBit false := by decide
        simpa [readBits, afterBits, bitText, h10] using ih
      · simp [readBits, afterBits, bitText, h0, h1]

/-- An entry's text between its key and value (rule R69). -/
def entrySpelling (key v : Bits) : List Byte :=
  [asciiQuote] ++ bitText key ++ [asciiQuote, asciiColon, asciiQuote] ++ bitText v ++ [asciiQuote]

/-- Reading an entry, in full: it reads exactly the text of a key and a value. -/
theorem readEntry_eq_some {c : List Byte} {key v : Bits} {rest : List Byte} :
    readEntry c = some (key, v, rest) ↔ c = entrySpelling key v ++ rest := by
  constructor
  · intro h
    simp only [readEntry, Option.bind_eq_some_iff, expectByte_eq_some, Option.some.injEq,
      Prod.mk.injEq] at h
    obtain ⟨c1, rfl, c2, h2, c3, rfl, c4, rfl, c5, h5, rfl, rfl, rfl⟩ := h
    have e1 := bitText_readBits_append c1
    have e4 := bitText_readBits_append c4
    rw [h2] at e1
    rw [h5] at e4
    conv_lhs => rw [← e1, ← e4]
    simp [entrySpelling]
  · rintro rfl
    have hq : isBitByte asciiQuote = false := by decide
    have k := readBits_bitText key
      (rest := [asciiQuote, asciiColon, asciiQuote] ++ bitText v ++ [asciiQuote] ++ rest)
      (by simpa using hq)
    have w := readBits_bitText v (rest := [asciiQuote] ++ rest) (by simpa using hq)
    simp only [List.append_assoc, List.cons_append, List.nil_append] at k w
    simp [readEntry, entrySpelling, expectByte, k.1, k.2, w.1, w.2]

/-- No entry begins with a closing brace, and no entry's text is empty. -/
theorem entrySpelling_length (key v : Bits) :
    (entrySpelling key v).length = key.length + v.length + 5 := by
  simp [entrySpelling, bitText]; omega

/-- Condition (c) of rule R72, as a proposition. -/
theorem valueCanonical_iff {symw : Nat} {v : Bits} :
    valueCanonical symw v = true ↔
      1 ≤ v.length ∧ v.length ≤ symw ∧ (v.length = 1 ∨ v.head? = some true) := by
  simp [valueCanonical, and_assoc]

/-- Condition (d) of rule R72, as a proposition. -/
theorem hasKey_eq_false {table : List (Bits × Symbol)} {key : Bits} :
    hasKey table key = false ↔ key ∉ table.map Prod.fst := by
  simp only [hasKey, List.any_eq_false, List.mem_map, not_exists, not_and, beq_iff_eq]

/-- The entries of a chart, spelled, a comma between (rule R69). -/
def entriesSpelling : List (Bits × Bits) → List Byte
  | [] => []
  | [e] => entrySpelling e.1 e.2
  | e :: e' :: rest => entrySpelling e.1 e.2 ++ asciiComma :: entriesSpelling (e' :: rest)

/-- Text that is the spelling of entries and a closing brace begins with the first entry, and goes on with
the brace or with a comma and the other entries. -/
theorem entriesSpelling_head {es : List (Bits × Bits)} {c z : List Byte} {key v : Bits} {r : List Byte}
    (hne : es ≠ []) (hz : c = entriesSpelling es ++ asciiRBrace :: z)
    (hr : readEntry c = some (key, v, r)) :
    ∃ es', es = (key, v) :: es' ∧ ((es' = [] ∧ r = asciiRBrace :: z) ∨
      (es' ≠ [] ∧ r = asciiComma :: (entriesSpelling es' ++ asciiRBrace :: z))) := by
  obtain ⟨e, es, rfl⟩ := List.exists_cons_of_ne_nil hne
  cases es with
  | nil =>
    rw [readEntry_eq_some.mpr hz] at hr
    simp only [Option.some.injEq, Prod.mk.injEq] at hr
    obtain ⟨rfl, rfl, rfl⟩ := hr
    exact ⟨[], rfl, .inl ⟨rfl, rfl⟩⟩
  | cons e' es =>
    rw [entriesSpelling, List.append_assoc] at hz
    rw [readEntry_eq_some.mpr hz] at hr
    simp only [Option.some.injEq, Prod.mk.injEq] at hr
    obtain ⟨rfl, rfl, rfl⟩ := hr
    exact ⟨e' :: es, rfl, .inr ⟨by simp, rfl⟩⟩

/-- What one entry must meet where the keys have `w` characters (rule R72, (b) and (c)). -/
def entryFits (symw w : Nat) (e : Bits × Bits) : Prop :=
  e.1.length = w ∧ valueCanonical symw e.2 = true

/-- The `repeat` loop of rule R72, in full: it reads exactly the spelling of one or more fitting entries with
new and different keys, and the closing brace. -/
theorem readEntries_eq_some {symw w fuel : Nat} {table table' : List (Bits × Symbol)}
    {c rest : List Byte} (hf : c.length ≤ fuel) :
    readEntries symw w fuel table c = some (table', rest) ↔
      ∃ es, es ≠ [] ∧ c = entriesSpelling es ++ asciiRBrace :: rest ∧ (∀ e ∈ es, entryFits symw w e) ∧
        (es.map Prod.fst).Nodup ∧ (∀ e ∈ es, e.1 ∉ table.map Prod.fst) ∧
        table' = table ++ es.map fun e => (e.1, symbolOfBits e.2) := by
  induction fuel generalizing table c with
  | zero =>
    have : c = [] := List.eq_nil_of_length_eq_zero (by omega)
    subst this
    simp [readEntries]
  | succ fuel ih =>
    rw [readEntries]
    cases hre : readEntry c with
    | none =>
      simp only [reduceCtorEq, false_iff, not_exists]
      rintro es ⟨hne, hc, -⟩
      obtain ⟨e, es, rfl⟩ := List.exists_cons_of_ne_nil hne
      have : ∃ r, c = entrySpelling e.1 e.2 ++ r := by
        cases es with
        | nil => exact ⟨_, hc⟩
        | cons e' es => exact ⟨_, by rw [hc, entriesSpelling, List.append_assoc]⟩
      obtain ⟨r, hr⟩ := this
      rw [readEntry_eq_some.mpr hr] at hre
      cases hre
    | some q =>
      obtain ⟨key, v, r⟩ := q
      have hc := readEntry_eq_some.mp hre
      have hlc : c.length = key.length + v.length + 5 + r.length := by
        rw [hc, List.length_append, entrySpelling_length]
      dsimp only
      split
      · rename_i hcond
        obtain ⟨h1, h2, h3⟩ := hcond
        rw [hasKey_eq_false] at h3
        cases hcm : expectByte asciiComma r with
        | some r' =>
          have hr := expectByte_eq_some.mp hcm
          dsimp only
          rw [ih (by rw [hr, List.length_cons] at hlc; omega)]
          constructor
          · rintro ⟨es, hne, hr', hok, hnd, hnk, rfl⟩
            refine ⟨(key, v) :: es, by simp, ?_, ?_, ?_, ?_, by simp⟩
            · obtain ⟨e, es, rfl⟩ := List.exists_cons_of_ne_nil hne
              rw [hc, entriesSpelling, hr, hr', List.append_assoc, List.cons_append]
            · rintro e he
              rcases List.mem_cons.mp he with rfl | he
              · exact ⟨h1, h2⟩
              · exact hok e he
            · rw [List.map_cons, List.nodup_cons]
              refine ⟨fun hm => ?_, hnd⟩
              obtain ⟨e, he, hek⟩ := List.mem_map.mp hm
              exact hnk e he (by simp [hek])
            · rintro e he
              rcases List.mem_cons.mp he with rfl | he
              · exact h3
              · exact fun hm => hnk e he (by rw [List.map_append]; exact List.mem_append_left _ hm)
          · rintro ⟨es, hne, hz, hok, hnd, hnk, rfl⟩
            obtain ⟨es', rfl, h | h⟩ := entriesSpelling_head hne hz hre
            · rw [hr] at h
              exact absurd (List.cons.inj h.2).1 (by decide)
            · rw [hr] at h
              rw [List.map_cons, List.nodup_cons] at hnd
              refine ⟨es', h.1, (List.cons.inj h.2).2, fun e he => hok e (List.mem_cons_of_mem _ he),
                hnd.2, fun e he hm => ?_, by simp⟩
              rw [List.map_append, List.mem_append, List.map_singleton, List.mem_singleton] at hm
              rcases hm with hm | hm
              · exact hnk e (List.mem_cons_of_mem _ he) hm
              · exact hnd.1 (hm ▸ List.mem_map_of_mem he)
        | none =>
          dsimp only
          cases hrb : expectByte asciiRBrace r with
          | some r' =>
            have hr := expectByte_eq_some.mp hrb
            simp only [Option.some.injEq, Prod.mk.injEq]
            constructor
            · rintro ⟨rfl, rfl⟩
              exact ⟨[(key, v)], by simp, by rw [hc, entriesSpelling, hr],
                by simpa [entryFits] using ⟨h1, h2⟩, by simp, by simpa using h3, rfl⟩
            · rintro ⟨es, hne, hz, hok, hnd, hnk, rfl⟩
              obtain ⟨es', rfl, ⟨rfl, h⟩ | h⟩ := entriesSpelling_head hne hz hre
              · rw [hr] at h
                exact ⟨rfl, (List.cons.inj h).2⟩
              · rw [h.2] at hcm; simp [expectByte] at hcm
          | none =>
            simp only [reduceCtorEq, false_iff, not_exists]
            rintro es ⟨hne, hz, -⟩
            obtain ⟨es', rfl, h | h⟩ := entriesSpelling_head hne hz hre
            · rw [h.2] at hrb; simp [expectByte] at hrb
            · rw [h.2] at hcm; simp [expectByte] at hcm
      · rename_i hcond
        simp only [reduceCtorEq, false_iff, not_exists]
        rintro es ⟨hne, hz, hok, -, hnk, -⟩
        obtain ⟨es', rfl, -⟩ := entriesSpelling_head hne hz hre
        have := hok _ (List.mem_cons_self ..)
        exact hcond ⟨this.1, this.2, hasKey_eq_false.mpr (hnk _ (List.mem_cons_self ..))⟩

/-- The chart value of a symbol below `2^SYMW` meets condition (c) of rule R72. -/
theorem bitsOfSymbol_canonical {symw : Nat} (h1 : 1 ≤ symw) {v : Nat} (h : v < 2 ^ symw) :
    valueCanonical symw (bitsOfSymbol v) = true := by
  refine valueCanonical_iff.mpr ⟨minbin_length_pos _, bitsOfSymbol_length_le h1 h, ?_⟩
  rw [bitsOfSymbol]
  by_cases h : (minbin v).length = 1
  · exact .inl h
  · have hl := minbin_length v
    obtain ⟨n, hn⟩ : ∃ n, clog2 (v + 1) = n + 1 := ⟨clog2 (v + 1) - 1, by omega⟩
    have hlt := le_two_pow_clog2 (v + 1)
    have hge : 2 ^ n ≤ v := by
      by_contra hlt'
      have := clog2_le_of_le_two_pow (k := v + 1) (m := n) (by omega)
      omega
    rw [hn] at hlt
    have hd : v / 2 ^ n = 1 := by apply Nat.div_eq_of_lt_le <;> omega
    refine .inr ?_
    rw [minbin, hn, Nat.max_eq_right (by omega), bin, List.head?_cons,
      Nat.testBit_eq_decide_div_mod_eq, hd]
    rfl

end Sys2Proof.Machine
end

