-- ==== Sys2Proof/Laws/State.lean ====
section
/-! SUPPORT. One lemma per field per update of the state, and per view of a buffer (`State.text` and its
kin), so that no later proof unfolds a record update. -/

namespace Sys2Proof.Machine

variable (s : State)

@[simp] theorem State.setStatus_cfg (x : Status) : (s.setStatus x).cfg = s.cfg := rfl
@[simp] theorem State.setStatus_status (x : Status) : (s.setStatus x).status = x := rfl
@[simp] theorem State.setStatus_txi (x : Status) : (s.setStatus x).txi = s.txi := rfl
@[simp] theorem State.setStatus_cto (x : Status) : (s.setStatus x).cto = s.cto := rfl
@[simp] theorem State.setStatus_cti (x : Status) : (s.setStatus x).cti = s.cti := rfl
@[simp] theorem State.setStatus_txo (x : Status) : (s.setStatus x).txo = s.txo := rfl
@[simp] theorem State.setStatus_enc (x : Status) : (s.setStatus x).enc = s.enc := rfl
@[simp] theorem State.setStatus_dec (x : Status) : (s.setStatus x).dec = s.dec := rfl
@[simp] theorem State.setStatus_host (x : Status) : (s.setStatus x).host = s.host := rfl
@[simp] theorem State.setStatus_hostPos (x : Status) : (s.setStatus x).hostPos = s.hostPos := rfl
@[simp] theorem State.setStatus_readData (x : Status) : (s.setStatus x).readData = s.readData := rfl
@[simp] theorem State.setStatus_epoch (x : Status) : (s.setStatus x).epoch = s.epoch := rfl
@[simp] theorem State.setStatus_freeCount (x : Status) : (s.setStatus x).freeCount = s.freeCount := rfl
@[simp] theorem State.setStatus_text (x : Status) : (s.setStatus x).text = s.text := rfl
@[simp] theorem State.setStatus_input (x : Status) : (s.setStatus x).input = s.input := rfl
@[simp] theorem State.setStatus_container (x : Status) : (s.setStatus x).container = s.container := rfl
@[simp] theorem State.setStatus_decoded (x : Status) : (s.setStatus x).decoded = s.decoded := rfl

@[simp] theorem State.setTxi_cfg (x : Buffer Symbol) : (s.setTxi x).cfg = s.cfg := rfl
@[simp] theorem State.setTxi_status (x : Buffer Symbol) : (s.setTxi x).status = s.status := rfl
@[simp] theorem State.setTxi_txi (x : Buffer Symbol) : (s.setTxi x).txi = x := rfl
@[simp] theorem State.setTxi_cto (x : Buffer Symbol) : (s.setTxi x).cto = s.cto := rfl
@[simp] theorem State.setTxi_cti (x : Buffer Symbol) : (s.setTxi x).cti = s.cti := rfl
@[simp] theorem State.setTxi_txo (x : Buffer Symbol) : (s.setTxi x).txo = s.txo := rfl
@[simp] theorem State.setTxi_enc (x : Buffer Symbol) : (s.setTxi x).enc = s.enc := rfl
@[simp] theorem State.setTxi_dec (x : Buffer Symbol) : (s.setTxi x).dec = s.dec := rfl
@[simp] theorem State.setTxi_host (x : Buffer Symbol) : (s.setTxi x).host = s.host := rfl
@[simp] theorem State.setTxi_hostPos (x : Buffer Symbol) : (s.setTxi x).hostPos = s.hostPos := rfl
@[simp] theorem State.setTxi_readData (x : Buffer Symbol) : (s.setTxi x).readData = s.readData := rfl
@[simp] theorem State.setTxi_epoch (x : Buffer Symbol) : (s.setTxi x).epoch = s.epoch := rfl
@[simp] theorem State.setTxi_freeCount (x : Buffer Symbol) : (s.setTxi x).freeCount = s.freeCount := rfl
@[simp] theorem State.setTxi_input (x : Buffer Symbol) : (s.setTxi x).input = s.input := rfl
@[simp] theorem State.setTxi_container (x : Buffer Symbol) : (s.setTxi x).container = s.container := rfl
@[simp] theorem State.setTxi_decoded (x : Buffer Symbol) : (s.setTxi x).decoded = s.decoded := rfl

@[simp] theorem State.setCto_cfg (x : Buffer Byte) : (s.setCto x).cfg = s.cfg := rfl
@[simp] theorem State.setCto_status (x : Buffer Byte) : (s.setCto x).status = s.status := rfl
@[simp] theorem State.setCto_txi (x : Buffer Byte) : (s.setCto x).txi = s.txi := rfl
@[simp] theorem State.setCto_cto (x : Buffer Byte) : (s.setCto x).cto = x := rfl
@[simp] theorem State.setCto_cti (x : Buffer Byte) : (s.setCto x).cti = s.cti := rfl
@[simp] theorem State.setCto_txo (x : Buffer Byte) : (s.setCto x).txo = s.txo := rfl
@[simp] theorem State.setCto_enc (x : Buffer Byte) : (s.setCto x).enc = s.enc := rfl
@[simp] theorem State.setCto_dec (x : Buffer Byte) : (s.setCto x).dec = s.dec := rfl
@[simp] theorem State.setCto_host (x : Buffer Byte) : (s.setCto x).host = s.host := rfl
@[simp] theorem State.setCto_hostPos (x : Buffer Byte) : (s.setCto x).hostPos = s.hostPos := rfl
@[simp] theorem State.setCto_readData (x : Buffer Byte) : (s.setCto x).readData = s.readData := rfl
@[simp] theorem State.setCto_epoch (x : Buffer Byte) : (s.setCto x).epoch = s.epoch := rfl
@[simp] theorem State.setCto_freeCount (x : Buffer Byte) : (s.setCto x).freeCount = s.freeCount := rfl
@[simp] theorem State.setCto_text (x : Buffer Byte) : (s.setCto x).text = s.text := rfl
@[simp] theorem State.setCto_input (x : Buffer Byte) : (s.setCto x).input = s.input := rfl
@[simp] theorem State.setCto_decoded (x : Buffer Byte) : (s.setCto x).decoded = s.decoded := rfl

@[simp] theorem State.setCti_cfg (x : Buffer Byte) : (s.setCti x).cfg = s.cfg := rfl
@[simp] theorem State.setCti_status (x : Buffer Byte) : (s.setCti x).status = s.status := rfl
@[simp] theorem State.setCti_txi (x : Buffer Byte) : (s.setCti x).txi = s.txi := rfl
@[simp] theorem State.setCti_cto (x : Buffer Byte) : (s.setCti x).cto = s.cto := rfl
@[simp] theorem State.setCti_cti (x : Buffer Byte) : (s.setCti x).cti = x := rfl
@[simp] theorem State.setCti_txo (x : Buffer Byte) : (s.setCti x).txo = s.txo := rfl
@[simp] theorem State.setCti_enc (x : Buffer Byte) : (s.setCti x).enc = s.enc := rfl
@[simp] theorem State.setCti_dec (x : Buffer Byte) : (s.setCti x).dec = s.dec := rfl
@[simp] theorem State.setCti_host (x : Buffer Byte) : (s.setCti x).host = s.host := rfl
@[simp] theorem State.setCti_hostPos (x : Buffer Byte) : (s.setCti x).hostPos = s.hostPos := rfl
@[simp] theorem State.setCti_readData (x : Buffer Byte) : (s.setCti x).readData = s.readData := rfl
@[simp] theorem State.setCti_epoch (x : Buffer Byte) : (s.setCti x).epoch = s.epoch := rfl
@[simp] theorem State.setCti_freeCount (x : Buffer Byte) : (s.setCti x).freeCount = s.freeCount := rfl
@[simp] theorem State.setCti_text (x : Buffer Byte) : (s.setCti x).text = s.text := rfl
@[simp] theorem State.setCti_container (x : Buffer Byte) : (s.setCti x).container = s.container := rfl
@[simp] theorem State.setCti_decoded (x : Buffer Byte) : (s.setCti x).decoded = s.decoded := rfl

@[simp] theorem State.setTxo_cfg (x : Buffer Symbol) : (s.setTxo x).cfg = s.cfg := rfl
@[simp] theorem State.setTxo_status (x : Buffer Symbol) : (s.setTxo x).status = s.status := rfl
@[simp] theorem State.setTxo_txi (x : Buffer Symbol) : (s.setTxo x).txi = s.txi := rfl
@[simp] theorem State.setTxo_cto (x : Buffer Symbol) : (s.setTxo x).cto = s.cto := rfl
@[simp] theorem State.setTxo_cti (x : Buffer Symbol) : (s.setTxo x).cti = s.cti := rfl
@[simp] theorem State.setTxo_txo (x : Buffer Symbol) : (s.setTxo x).txo = x := rfl
@[simp] theorem State.setTxo_enc (x : Buffer Symbol) : (s.setTxo x).enc = s.enc := rfl
@[simp] theorem State.setTxo_dec (x : Buffer Symbol) : (s.setTxo x).dec = s.dec := rfl
@[simp] theorem State.setTxo_host (x : Buffer Symbol) : (s.setTxo x).host = s.host := rfl
@[simp] theorem State.setTxo_hostPos (x : Buffer Symbol) : (s.setTxo x).hostPos = s.hostPos := rfl
@[simp] theorem State.setTxo_readData (x : Buffer Symbol) : (s.setTxo x).readData = s.readData := rfl
@[simp] theorem State.setTxo_epoch (x : Buffer Symbol) : (s.setTxo x).epoch = s.epoch := rfl
@[simp] theorem State.setTxo_freeCount (x : Buffer Symbol) : (s.setTxo x).freeCount = s.freeCount := rfl
@[simp] theorem State.setTxo_text (x : Buffer Symbol) : (s.setTxo x).text = s.text := rfl
@[simp] theorem State.setTxo_input (x : Buffer Symbol) : (s.setTxo x).input = s.input := rfl
@[simp] theorem State.setTxo_container (x : Buffer Symbol) : (s.setTxo x).container = s.container := rfl

@[simp] theorem State.setEnc_cfg (x : EncStores) : (s.setEnc x).cfg = s.cfg := rfl
@[simp] theorem State.setEnc_status (x : EncStores) : (s.setEnc x).status = s.status := rfl
@[simp] theorem State.setEnc_txi (x : EncStores) : (s.setEnc x).txi = s.txi := rfl
@[simp] theorem State.setEnc_cto (x : EncStores) : (s.setEnc x).cto = s.cto := rfl
@[simp] theorem State.setEnc_cti (x : EncStores) : (s.setEnc x).cti = s.cti := rfl
@[simp] theorem State.setEnc_txo (x : EncStores) : (s.setEnc x).txo = s.txo := rfl
@[simp] theorem State.setEnc_enc (x : EncStores) : (s.setEnc x).enc = x := rfl
@[simp] theorem State.setEnc_dec (x : EncStores) : (s.setEnc x).dec = s.dec := rfl
@[simp] theorem State.setEnc_host (x : EncStores) : (s.setEnc x).host = s.host := rfl
@[simp] theorem State.setEnc_hostPos (x : EncStores) : (s.setEnc x).hostPos = s.hostPos := rfl
@[simp] theorem State.setEnc_readData (x : EncStores) : (s.setEnc x).readData = s.readData := rfl
@[simp] theorem State.setEnc_epoch (x : EncStores) : (s.setEnc x).epoch = s.epoch := rfl
@[simp] theorem State.setEnc_freeCount (x : EncStores) : (s.setEnc x).freeCount = s.freeCount := rfl
@[simp] theorem State.setEnc_text (x : EncStores) : (s.setEnc x).text = s.text := rfl
@[simp] theorem State.setEnc_input (x : EncStores) : (s.setEnc x).input = s.input := rfl
@[simp] theorem State.setEnc_container (x : EncStores) : (s.setEnc x).container = s.container := rfl
@[simp] theorem State.setEnc_decoded (x : EncStores) : (s.setEnc x).decoded = s.decoded := rfl

@[simp] theorem State.setDec_cfg (x : DecStores) : (s.setDec x).cfg = s.cfg := rfl
@[simp] theorem State.setDec_status (x : DecStores) : (s.setDec x).status = s.status := rfl
@[simp] theorem State.setDec_txi (x : DecStores) : (s.setDec x).txi = s.txi := rfl
@[simp] theorem State.setDec_cto (x : DecStores) : (s.setDec x).cto = s.cto := rfl
@[simp] theorem State.setDec_cti (x : DecStores) : (s.setDec x).cti = s.cti := rfl
@[simp] theorem State.setDec_txo (x : DecStores) : (s.setDec x).txo = s.txo := rfl
@[simp] theorem State.setDec_enc (x : DecStores) : (s.setDec x).enc = s.enc := rfl
@[simp] theorem State.setDec_dec (x : DecStores) : (s.setDec x).dec = x := rfl
@[simp] theorem State.setDec_host (x : DecStores) : (s.setDec x).host = s.host := rfl
@[simp] theorem State.setDec_hostPos (x : DecStores) : (s.setDec x).hostPos = s.hostPos := rfl
@[simp] theorem State.setDec_readData (x : DecStores) : (s.setDec x).readData = s.readData := rfl
@[simp] theorem State.setDec_epoch (x : DecStores) : (s.setDec x).epoch = s.epoch := rfl
@[simp] theorem State.setDec_freeCount (x : DecStores) : (s.setDec x).freeCount = s.freeCount := rfl
@[simp] theorem State.setDec_text (x : DecStores) : (s.setDec x).text = s.text := rfl
@[simp] theorem State.setDec_input (x : DecStores) : (s.setDec x).input = s.input := rfl
@[simp] theorem State.setDec_container (x : DecStores) : (s.setDec x).container = s.container := rfl
@[simp] theorem State.setDec_decoded (x : DecStores) : (s.setDec x).decoded = s.decoded := rfl

@[simp] theorem State.setHost_cfg (x : List HostEvent) : (s.setHost x).cfg = s.cfg := rfl
@[simp] theorem State.setHost_status (x : List HostEvent) : (s.setHost x).status = s.status := rfl
@[simp] theorem State.setHost_txi (x : List HostEvent) : (s.setHost x).txi = s.txi := rfl
@[simp] theorem State.setHost_cto (x : List HostEvent) : (s.setHost x).cto = s.cto := rfl
@[simp] theorem State.setHost_cti (x : List HostEvent) : (s.setHost x).cti = s.cti := rfl
@[simp] theorem State.setHost_txo (x : List HostEvent) : (s.setHost x).txo = s.txo := rfl
@[simp] theorem State.setHost_enc (x : List HostEvent) : (s.setHost x).enc = s.enc := rfl
@[simp] theorem State.setHost_dec (x : List HostEvent) : (s.setHost x).dec = s.dec := rfl
@[simp] theorem State.setHost_host (x : List HostEvent) : (s.setHost x).host = x := rfl
@[simp] theorem State.setHost_hostPos (x : List HostEvent) : (s.setHost x).hostPos = s.hostPos := rfl
@[simp] theorem State.setHost_readData (x : List HostEvent) : (s.setHost x).readData = s.readData := rfl
@[simp] theorem State.setHost_epoch (x : List HostEvent) : (s.setHost x).epoch = s.epoch := rfl
@[simp] theorem State.setHost_freeCount (x : List HostEvent) : (s.setHost x).freeCount = s.freeCount := rfl
@[simp] theorem State.setHost_text (x : List HostEvent) : (s.setHost x).text = s.text := rfl
@[simp] theorem State.setHost_input (x : List HostEvent) : (s.setHost x).input = s.input := rfl
@[simp] theorem State.setHost_container (x : List HostEvent) : (s.setHost x).container = s.container := rfl
@[simp] theorem State.setHost_decoded (x : List HostEvent) : (s.setHost x).decoded = s.decoded := rfl

@[simp] theorem State.setHostPos_cfg (n : Nat) : (s.setHostPos n).cfg = s.cfg := rfl
@[simp] theorem State.setHostPos_status (n : Nat) : (s.setHostPos n).status = s.status := rfl
@[simp] theorem State.setHostPos_txi (n : Nat) : (s.setHostPos n).txi = s.txi := rfl
@[simp] theorem State.setHostPos_cto (n : Nat) : (s.setHostPos n).cto = s.cto := rfl
@[simp] theorem State.setHostPos_cti (n : Nat) : (s.setHostPos n).cti = s.cti := rfl
@[simp] theorem State.setHostPos_txo (n : Nat) : (s.setHostPos n).txo = s.txo := rfl
@[simp] theorem State.setHostPos_enc (n : Nat) : (s.setHostPos n).enc = s.enc := rfl
@[simp] theorem State.setHostPos_dec (n : Nat) : (s.setHostPos n).dec = s.dec := rfl
@[simp] theorem State.setHostPos_host (n : Nat) : (s.setHostPos n).host = s.host := rfl
@[simp] theorem State.setHostPos_readData (n : Nat) : (s.setHostPos n).readData = s.readData := rfl
@[simp] theorem State.setHostPos_epoch (n : Nat) : (s.setHostPos n).epoch = s.epoch := rfl
@[simp] theorem State.setHostPos_freeCount (n : Nat) : (s.setHostPos n).freeCount = s.freeCount := rfl
@[simp] theorem State.setHostPos_text (n : Nat) : (s.setHostPos n).text = s.text := rfl
@[simp] theorem State.setHostPos_input (n : Nat) : (s.setHostPos n).input = s.input := rfl
@[simp] theorem State.setHostPos_container (n : Nat) : (s.setHostPos n).container = s.container := rfl
@[simp] theorem State.setHostPos_decoded (n : Nat) : (s.setHostPos n).decoded = s.decoded := rfl
@[simp] theorem State.setHostPos_hostPos (n : Nat) : (s.setHostPos n).hostPos = n := rfl

@[simp] theorem State.setRead_cfg (x : ReadValue) : (s.setRead x).cfg = s.cfg := rfl
@[simp] theorem State.setRead_status (x : ReadValue) : (s.setRead x).status = s.status := rfl
@[simp] theorem State.setRead_txi (x : ReadValue) : (s.setRead x).txi = s.txi := rfl
@[simp] theorem State.setRead_cto (x : ReadValue) : (s.setRead x).cto = s.cto := rfl
@[simp] theorem State.setRead_cti (x : ReadValue) : (s.setRead x).cti = s.cti := rfl
@[simp] theorem State.setRead_txo (x : ReadValue) : (s.setRead x).txo = s.txo := rfl
@[simp] theorem State.setRead_enc (x : ReadValue) : (s.setRead x).enc = s.enc := rfl
@[simp] theorem State.setRead_dec (x : ReadValue) : (s.setRead x).dec = s.dec := rfl
@[simp] theorem State.setRead_host (x : ReadValue) : (s.setRead x).host = s.host := rfl
@[simp] theorem State.setRead_hostPos (x : ReadValue) : (s.setRead x).hostPos = s.hostPos := rfl
@[simp] theorem State.setRead_readData (x : ReadValue) : (s.setRead x).readData = some x := rfl
@[simp] theorem State.setRead_epoch (x : ReadValue) : (s.setRead x).epoch = s.epoch := rfl
@[simp] theorem State.setRead_freeCount (x : ReadValue) : (s.setRead x).freeCount = s.freeCount := rfl
@[simp] theorem State.setRead_text (x : ReadValue) : (s.setRead x).text = s.text := rfl
@[simp] theorem State.setRead_input (x : ReadValue) : (s.setRead x).input = s.input := rfl
@[simp] theorem State.setRead_container (x : ReadValue) : (s.setRead x).container = s.container := rfl
@[simp] theorem State.setRead_decoded (x : ReadValue) : (s.setRead x).decoded = s.decoded := rfl

@[simp] theorem State.nextFree_cfg : s.nextFree.cfg = s.cfg := rfl
@[simp] theorem State.nextFree_status : s.nextFree.status = s.status := rfl
@[simp] theorem State.nextFree_txi : s.nextFree.txi = s.txi := rfl
@[simp] theorem State.nextFree_cto : s.nextFree.cto = s.cto := rfl
@[simp] theorem State.nextFree_cti : s.nextFree.cti = s.cti := rfl
@[simp] theorem State.nextFree_txo : s.nextFree.txo = s.txo := rfl
@[simp] theorem State.nextFree_enc : s.nextFree.enc = s.enc := rfl
@[simp] theorem State.nextFree_dec : s.nextFree.dec = s.dec := rfl
@[simp] theorem State.nextFree_host : s.nextFree.host = s.host := rfl
@[simp] theorem State.nextFree_hostPos : s.nextFree.hostPos = s.hostPos := rfl
@[simp] theorem State.nextFree_readData : s.nextFree.readData = s.readData := rfl
@[simp] theorem State.nextFree_epoch : s.nextFree.epoch = s.epoch := rfl
@[simp] theorem State.nextFree_freeCount : s.nextFree.freeCount = s.freeCount + 1 := rfl
@[simp] theorem State.nextFree_text : s.nextFree.text = s.text := rfl
@[simp] theorem State.nextFree_input : s.nextFree.input = s.input := rfl
@[simp] theorem State.nextFree_container : s.nextFree.container = s.container := rfl
@[simp] theorem State.nextFree_decoded : s.nextFree.decoded = s.decoded := rfl

@[simp] theorem setPhase_cfg (p : Phase) : (setPhase p s).cfg = s.cfg := rfl
@[simp] theorem setPhase_txi (p : Phase) : (setPhase p s).txi = s.txi := rfl
@[simp] theorem setPhase_cto (p : Phase) : (setPhase p s).cto = s.cto := rfl
@[simp] theorem setPhase_cti (p : Phase) : (setPhase p s).cti = s.cti := rfl
@[simp] theorem setPhase_txo (p : Phase) : (setPhase p s).txo = s.txo := rfl
@[simp] theorem setPhase_enc (p : Phase) : (setPhase p s).enc = s.enc := rfl
@[simp] theorem setPhase_dec (p : Phase) : (setPhase p s).dec = s.dec := rfl
@[simp] theorem setPhase_host (p : Phase) : (setPhase p s).host = s.host := rfl
@[simp] theorem setPhase_hostPos (p : Phase) : (setPhase p s).hostPos = s.hostPos := rfl
@[simp] theorem setPhase_readData (p : Phase) : (setPhase p s).readData = s.readData := rfl
@[simp] theorem setPhase_epoch (p : Phase) : (setPhase p s).epoch = s.epoch := rfl
@[simp] theorem setPhase_freeCount (p : Phase) : (setPhase p s).freeCount = s.freeCount := rfl
@[simp] theorem setPhase_text (p : Phase) : (setPhase p s).text = s.text := rfl
@[simp] theorem setPhase_input (p : Phase) : (setPhase p s).input = s.input := rfl
@[simp] theorem setPhase_container (p : Phase) : (setPhase p s).container = s.container := rfl
@[simp] theorem setPhase_decoded (p : Phase) : (setPhase p s).decoded = s.decoded := rfl
@[simp] theorem setPhase_status (p : Phase) : (setPhase p s).status = { s.status with phase := p } := rfl

@[simp] theorem raiseError_cfg (e : CodecError) : (raiseError e s).cfg = s.cfg := rfl
@[simp] theorem raiseError_txi (e : CodecError) : (raiseError e s).txi = s.txi := rfl
@[simp] theorem raiseError_cto (e : CodecError) : (raiseError e s).cto = s.cto := rfl
@[simp] theorem raiseError_cti (e : CodecError) : (raiseError e s).cti = s.cti := rfl
@[simp] theorem raiseError_txo (e : CodecError) : (raiseError e s).txo = s.txo := rfl
@[simp] theorem raiseError_enc (e : CodecError) : (raiseError e s).enc = s.enc := rfl
@[simp] theorem raiseError_dec (e : CodecError) : (raiseError e s).dec = s.dec := rfl
@[simp] theorem raiseError_host (e : CodecError) : (raiseError e s).host = s.host := rfl
@[simp] theorem raiseError_hostPos (e : CodecError) : (raiseError e s).hostPos = s.hostPos := rfl
@[simp] theorem raiseError_readData (e : CodecError) : (raiseError e s).readData = s.readData := rfl
@[simp] theorem raiseError_epoch (e : CodecError) : (raiseError e s).epoch = s.epoch := rfl
@[simp] theorem raiseError_freeCount (e : CodecError) : (raiseError e s).freeCount = s.freeCount := rfl
@[simp] theorem raiseError_text (e : CodecError) : (raiseError e s).text = s.text := rfl
@[simp] theorem raiseError_input (e : CodecError) : (raiseError e s).input = s.input := rfl
@[simp] theorem raiseError_container (e : CodecError) : (raiseError e s).container = s.container := rfl
@[simp] theorem raiseError_decoded (e : CodecError) : (raiseError e s).decoded = s.decoded := rfl
@[simp] theorem raiseError_status (e : CodecError) : (raiseError e s).status = s.status.failed e := rfl

end Sys2Proof.Machine
end

