-- ==== Sys2Proof/Laws/Memory.lean ====
section
/-! SUPPORT. The laws of a buffer's memory: a read after a write, and that every memory operation keeps
the canonical form. -/

namespace Sys2Proof.Machine

variable {α : Type}

/-- The head of a memory stands below every later index. -/
theorem Memory.wf_cons {a : Nat} {v : α} {m : Memory α} :
    Memory.wf ((a, v) :: m) = true ↔ (∀ e ∈ m, a < e.1) ∧ Memory.wf m = true := by
  induction m generalizing a v with
  | nil => simp [Memory.wf]
  | cons b m ih =>
    obtain ⟨b, y⟩ := b
    simp only [Memory.wf, Bool.and_eq_true, decide_eq_true_eq, List.mem_cons, forall_eq_or_imp]
    constructor
    · rintro ⟨hab, hm⟩
      exact ⟨⟨hab, fun e he => lt_trans hab ((ih.mp hm).1 e he)⟩, hm⟩
    · rintro ⟨⟨hab, _⟩, hm⟩
      exact ⟨hab, hm⟩

theorem Memory.wf_nil : Memory.wf ([] : Memory α) = true := rfl

theorem Memory.mem_write {m : Memory α} {i : Nat} {v : α} {e : Nat × α}
    (h : e ∈ Memory.write m i v) : e = (i, v) ∨ e ∈ m := by
  induction m with
  | nil => simpa [Memory.write] using h
  | cons b m ih =>
    obtain ⟨a, x⟩ := b
    simp only [Memory.write] at h
    split at h
    · simpa using h
    · split at h
      · rcases List.mem_cons.mp h with h | h
        · exact .inl h
        · exact .inr (List.mem_cons_of_mem _ h)
      · rcases List.mem_cons.mp h with h | h
        · exact .inr (h ▸ List.mem_cons_self)
        · exact (ih h).imp_right (List.mem_cons_of_mem _)

/-- Writing keeps the canonical form. -/
theorem Memory.wf_write {m : Memory α} (h : Memory.wf m = true) (i : Nat) (v : α) :
    Memory.wf (Memory.write m i v) = true := by
  induction m with
  | nil => rfl
  | cons b m ih =>
    obtain ⟨a, x⟩ := b
    obtain ⟨hlt, hm⟩ := Memory.wf_cons.mp h
    simp only [Memory.write]
    split
    · rename_i hia
      refine Memory.wf_cons.mpr ⟨?_, h⟩
      simpa using ⟨hia, fun c y hc => lt_trans hia (hlt _ hc)⟩
    · split
      · rename_i _ hia
        exact Memory.wf_cons.mpr ⟨hia ▸ hlt, hm⟩
      · refine Memory.wf_cons.mpr ⟨fun e he => ?_, ih hm⟩
        rcases Memory.mem_write he with rfl | he
        · simp only; omega
        · exact hlt e he

/-- A read of the index written gives the value written. -/
@[simp] theorem Memory.read_write_same (m : Memory α) (i : Nat) (v : α) :
    Memory.read (Memory.write m i v) i = some v := by
  induction m with
  | nil => simp [Memory.write, Memory.read]
  | cons b m ih =>
    obtain ⟨a, x⟩ := b
    simp only [Memory.write]
    split
    · simp [Memory.read]
    · split
      · simp [Memory.read]
      · simp only [Memory.read]
        rw [if_neg (by omega), ih]

/-- A read of any other index gives what it gave before. -/
theorem Memory.read_write_other (m : Memory α) {i j : Nat} (v : α) (h : j ≠ i) :
    Memory.read (Memory.write m i v) j = Memory.read m j := by
  induction m with
  | nil => simp [Memory.write, Memory.read, Ne.symm h]
  | cons b m ih =>
    obtain ⟨a, x⟩ := b
    simp only [Memory.write]
    split
    · rw [Memory.read, if_neg (Ne.symm h)]
    · split
      · rename_i hia
        simp [Memory.read, ← hia, Ne.symm h]
      · simp only [Memory.read, ih]

theorem Memory.mem_ofList {n : Nat} {v : List α} {e : Nat × α}
    (h : e ∈ Memory.ofList n v) : n ≤ e.1 := by
  induction v generalizing n with
  | nil => simp [Memory.ofList] at h
  | cons x v ih =>
    rcases List.mem_cons.mp h with rfl | h
    · exact le_refl _
    · exact Nat.le_of_succ_le (ih h)

/-- A memory made of a list has the canonical form. -/
theorem Memory.wf_ofList (n : Nat) (v : List α) : Memory.wf (Memory.ofList n v) = true := by
  induction v generalizing n with
  | nil => rfl
  | cons x v ih => exact Memory.wf_cons.mpr ⟨fun e he => Memory.mem_ofList he, ih (n + 1)⟩

/-- A memory made of a list holds element `i` of the list at index `n + i`, and nothing elsewhere. -/
theorem Memory.read_ofList (n : Nat) (v : List α) (i : Nat) :
    Memory.read (Memory.ofList n v) i = if n ≤ i then v[i - n]? else none := by
  induction v generalizing n with
  | nil => simp [Memory.ofList, Memory.read]
  | cons x v ih =>
    simp only [Memory.ofList, Memory.read, ih]
    rcases lt_trichotomy n i with h | rfl | h
    · obtain ⟨k, rfl⟩ : ∃ k, i = n + 1 + k := ⟨i - (n + 1), by omega⟩
      rw [if_neg (by omega), if_pos (by omega), if_pos (by omega),
        show n + 1 + k - n = k + 1 by omega]
      simp
    · simp
    · rw [if_neg (by omega), if_neg (by omega), if_neg (by omega)]

@[simp] theorem Buffer.empty_len : (Buffer.empty α).len = 0 := rfl
@[simp] theorem Buffer.empty_cells : (Buffer.empty α).cells = [] := rfl
@[simp] theorem Buffer.holding_len (v : List α) : (Buffer.holding v).len = v.length := rfl
@[simp] theorem Buffer.holding_cells (v : List α) :
    (Buffer.holding v).cells = Memory.ofList 0 v := rfl

@[simp] theorem Buffer.contents_length (b : Buffer α) (u : Nat → α) :
    (b.contents u).length = b.len := by
  simp [Buffer.contents]

@[simp] theorem Buffer.contents_empty (u : Nat → α) : (Buffer.empty α).contents u = [] := rfl

/-- A buffer that holds `v` has the contents `v`, whatever the unwritten elements are. -/
@[simp] theorem Buffer.contents_holding (v : List α) (u : Nat → α) :
    (Buffer.holding v).contents u = v := by
  apply List.ext_getElem
  · simp
  · intro i h1 h2
    simp [Buffer.contents, Buffer.elem, Memory.read_ofList, h2]

/-- Element `i` of a buffer's contents. -/
theorem Buffer.getElem_contents (b : Buffer α) (u : Nat → α) (i : Nat)
    (h : i < (b.contents u).length) : (b.contents u)[i] = b.elem u i := by
  simp [Buffer.contents]

@[simp] theorem State.text_length (s : State) : s.text.length = s.txi.len := Buffer.contents_length _ _
@[simp] theorem State.input_length (s : State) : s.input.length = s.cti.len :=
  Buffer.contents_length _ _
@[simp] theorem State.container_length (s : State) : s.container.length = s.cto.len :=
  Buffer.contents_length _ _
@[simp] theorem State.decoded_length (s : State) : s.decoded.length = s.txo.len :=
  Buffer.contents_length _ _

/-- The reset state's memories have the canonical form. -/
theorem reset_memories_wf :
    Memory.wf State.reset.txi.cells = true ∧ Memory.wf State.reset.cto.cells = true ∧
      Memory.wf State.reset.cti.cells = true ∧ Memory.wf State.reset.txo.cells = true :=
  ⟨rfl, rfl, rfl, rfl⟩

end Sys2Proof.Machine
end

