-- ==== Sys2Proof/Laws/Ops.lean ====
section
/-! SUPPORT. What each shared operation can do, said once. -/

namespace Sys2Proof.Machine

@[simp] theorem Status.finished_busy (s : Status) : s.finished.busy = false := rfl
@[simp] theorem Status.finished_done (s : Status) : s.finished.done = true := rfl
@[simp] theorem Status.finished_err (s : Status) : s.finished.err = s.err := rfl
@[simp] theorem Status.finished_phase (s : Status) : s.finished.phase = .idle := rfl
@[simp] theorem Status.finished_errcode (s : Status) : s.finished.errcode = s.errcode := rfl
@[simp] theorem Status.failed_busy (s : Status) (e : CodecError) : (s.failed e).busy = false := rfl
@[simp] theorem Status.failed_done (s : Status) (e : CodecError) : (s.failed e).done = s.done := rfl
@[simp] theorem Status.failed_err (s : Status) (e : CodecError) : (s.failed e).err = true := rfl
@[simp] theorem Status.failed_phase (s : Status) (e : CodecError) : (s.failed e).phase = s.phase := rfl
@[simp] theorem Status.failed_errcode (s : Status) (e : CodecError) :
    (s.failed e).errcode = some e := rfl
@[simp] theorem Status.started_busy (p : Phase) : (Status.started p).busy = true := rfl
@[simp] theorem Status.started_done (p : Phase) : (Status.started p).done = false := rfl
@[simp] theorem Status.started_err (p : Phase) : (Status.started p).err = false := rfl
@[simp] theorem Status.started_phase (p : Phase) : (Status.started p).phase = p := rfl
@[simp] theorem Status.started_errcode (p : Phase) : (Status.started p).errcode = none := rfl

/-- The stage code decodes back (rule R60). -/
@[simp] theorem phaseOfCode_code (p : Phase) : phaseOfCode p.code = p := by cases p <;> rfl

theorem withinCap_zero (cap : Option Nat) : withinCap cap 0 = true := by cases cap <;> simp [withinCap]

/-- A stage of COMPRESS that gives a next state either went on or took its error. -/
theorem endEncStage_next {r : StageResult EncStores} {s t : State} {go : State → Outcome}
    (h : endEncStage r s go = .next t) :
    (r.raised = none ∧ go (s.setEnc r.stores) = .next t) ∨
      ∃ e, r.raised = some e ∧ t = raiseError e (s.setEnc r.stores) := by
  cases hr : r.raised with
  | none => exact .inl ⟨rfl, by simpa [endEncStage, hr] using h⟩
  | some e => exact .inr ⟨e, rfl, by simpa [endEncStage, hr] using h.symm⟩

/-- A stage of DECOMPRESS that gives a next state either went on or took its error. -/
theorem endDecStage_next {r : StageResult DecStores} {s t : State} {go : State → Outcome}
    (h : endDecStage r s go = .next t) :
    (r.raised = none ∧ go (s.setDec r.stores) = .next t) ∨
      ∃ e, r.raised = some e ∧ t = raiseError e (s.setDec r.stores) := by
  cases hr : r.raised with
  | none => exact .inl ⟨rfl, by simpa [endDecStage, hr] using h⟩
  | some e => exact .inr ⟨e, rfl, by simpa [endDecStage, hr] using h.symm⟩

/-- What a sequence of stages that gives a next state has done: the later stage ran exactly where the
command had not ended. -/
theorem thenStage_next {o : Outcome} {f : State → Outcome} {t : State} :
    thenStage o f = .next t ↔
      ∃ s, o = .next s ∧
        ((s.status.busy = true ∧ f s = .next t) ∨ (s.status.busy = false ∧ t = s)) := by
  cases o with
  | next s =>
    constructor
    · intro h
      refine ⟨s, rfl, ?_⟩
      cases hb : s.status.busy
      · exact .inr ⟨rfl, by simpa [thenStage, hb] using h.symm⟩
      · exact .inl ⟨rfl, by simpa [thenStage, hb] using h⟩
    · rintro ⟨s', ⟨⟩, ⟨hb, h⟩ | ⟨hb, rfl⟩⟩
      · simpa [thenStage, hb] using h
      · simp [thenStage, hb]
  | fault f => simp [thenStage]
  | refused r => simp [thenStage]

/-- Committing a container, in full. -/
theorem commitContainer_next {c : List Byte} {s t : State} (h : commitContainer c s = .next t) :
    withinCap s.cfg.ctoCap c.length = true ∧
      t = (s.setCto (Buffer.holding c)).setStatus s.status.finished := by
  unfold commitContainer at h
  split at h
  · exact ⟨‹_›, by simpa using h.symm⟩
  · cases h

/-- Committing a text, in full. -/
theorem commitText_next {x : List Symbol} {s t : State} (h : commitText x s = .next t) :
    withinCap s.cfg.txoCap x.length = true ∧
      t = (s.setTxo (Buffer.holding x)).setStatus s.status.finished := by
  unfold commitText at h
  split at h
  · exact ⟨‹_›, by simpa using h.symm⟩
  · cases h

@[simp] theorem startCompress_status (s : State) :
    (startCompress s).status = Status.started .extract := rfl
@[simp] theorem startCompress_cto (s : State) : (startCompress s).cto = Buffer.empty Byte := rfl
@[simp] theorem startCompress_enc (s : State) : (startCompress s).enc = EncStores.empty := rfl
@[simp] theorem startCompress_dec (s : State) : (startCompress s).dec = s.dec := rfl
@[simp] theorem startCompress_txi (s : State) : (startCompress s).txi = s.txi := rfl
@[simp] theorem startCompress_cti (s : State) : (startCompress s).cti = s.cti := rfl
@[simp] theorem startCompress_txo (s : State) : (startCompress s).txo = s.txo := rfl
@[simp] theorem startCompress_cfg (s : State) : (startCompress s).cfg = s.cfg := rfl
@[simp] theorem startCompress_hostPos (s : State) : (startCompress s).hostPos = s.hostPos := rfl
@[simp] theorem startCompress_host (s : State) : (startCompress s).host = s.host := rfl
@[simp] theorem startCompress_text (s : State) : (startCompress s).text = s.text := rfl
@[simp] theorem startDecompress_status (s : State) :
    (startDecompress s).status = Status.started .parse := rfl
@[simp] theorem startDecompress_txo (s : State) :
    (startDecompress s).txo = Buffer.empty Symbol := rfl
@[simp] theorem startDecompress_dec (s : State) : (startDecompress s).dec = DecStores.empty := rfl
@[simp] theorem startDecompress_enc (s : State) : (startDecompress s).enc = s.enc := rfl
@[simp] theorem startDecompress_txi (s : State) : (startDecompress s).txi = s.txi := rfl
@[simp] theorem startDecompress_cti (s : State) : (startDecompress s).cti = s.cti := rfl
@[simp] theorem startDecompress_cto (s : State) : (startDecompress s).cto = s.cto := rfl
@[simp] theorem startDecompress_cfg (s : State) : (startDecompress s).cfg = s.cfg := rfl
@[simp] theorem startDecompress_hostPos (s : State) : (startDecompress s).hostPos = s.hostPos := rfl
@[simp] theorem startDecompress_host (s : State) : (startDecompress s).host = s.host := rfl
@[simp] theorem startDecompress_input (s : State) : (startDecompress s).input = s.input := rfl

end Sys2Proof.Machine
end

