-- ==== Sys2Proof/Laws/Stages.lean ====
section
/-! SUPPORT. What each stage can do, said once: if its meaning answers a next state, then one of these. -/

namespace Sys2Proof.Machine

variable {s t : State}

/-- EXTRACT completes with the alphabet, or takes EmptyInputError with nothing written. -/
theorem execExtract_next (h : execExtract s = .next t) :
    (s.txi.len ≠ 0 ∧
        t = setPhase .build (s.setEnc { s.enc with alpha := alphabetOf s.text })) ∨
      (s.txi.len = 0 ∧ t = raiseError .emptyInput (s.setEnc s.enc)) := by
  by_cases h0 : s.txi.len = 0
  · exact .inr ⟨h0, by simpa [execExtract, extractStage, h0, endEncStage] using h.symm⟩
  · exact .inl ⟨h0, by simpa [execExtract, extractStage, h0, endEncStage, advanceTo] using h.symm⟩

/-- BUILD completes with the width and the table, or takes one of its two errors with nothing written. -/
theorem execBuild_next (h : execBuild s = .next t) :
    (s.enc.alpha.length = 0 ∧ t = raiseError .emptyInput (s.setEnc s.enc)) ∨
      (s.enc.alpha.length ≠ 0 ∧ s.cfg.idxw ≤ codeWidth s.enc.alpha.length ∧
        t = raiseError .alphabetTooLarge (s.setEnc s.enc)) ∨
      (s.enc.alpha.length ≠ 0 ∧ codeWidth s.enc.alpha.length < s.cfg.idxw ∧
        t = setPhase .encode (s.setEnc { s.enc with
          width := codeWidth s.enc.alpha.length
          table := assignCodes (codeWidth s.enc.alpha.length) 0 s.enc.alpha })) := by
  by_cases h0 : s.enc.alpha.length = 0
  · exact .inl ⟨h0, by simpa [execBuild, buildStage, h0, endEncStage] using h.symm⟩
  · by_cases hw : s.cfg.idxw ≤ codeWidth s.enc.alpha.length
    · exact .inr (.inl ⟨h0, hw, by simpa [execBuild, buildStage, h0, hw, endEncStage] using h.symm⟩)
    · exact .inr (.inr ⟨h0, by omega,
        by simpa [execBuild, buildStage, h0, hw, endEncStage, advanceTo] using h.symm⟩)

/-- ENCODE completes, or takes UnmappedSymbolError. -/
theorem execEncode_next (h : execEncode s = .next t) :
    (allMapped s.enc.table s.text = true ∧
        t = setPhase .pack (s.setEnc { s.enc with bits := encodeText s.enc.table s.text })) ∨
      (allMapped s.enc.table s.text = false ∧
        t = raiseError .unmappedSymbol
          (s.setEnc { s.enc with bits := encodeText s.enc.table s.text })) := by
  cases hm : allMapped s.enc.table s.text
  · exact .inr ⟨rfl, by simpa [execEncode, encodeStage, hm, endEncStage] using h.symm⟩
  · exact .inl ⟨rfl, by simpa [execEncode, encodeStage, hm, endEncStage, advanceTo] using h.symm⟩

/-- PACK always completes. -/
theorem execPack_eq (s : State) :
    execPack s = .next (setPhase .serialize (s.setEnc (packStage s.enc).stores)) := rfl

/-- SERIALIZE commits the container, or takes one of its two errors. -/
theorem execSerialize_next (h : execSerialize s = .next t) :
    (Config.widthMax < s.enc.width ∧ t = raiseError .widthOverflow (s.setEnc s.enc)) ∨
      (s.enc.width ≤ Config.widthMax ∧ Config.chartSizeMax < s.enc.withChart.chartSize ∧
        t = raiseError .chartTooLarge (s.setEnc s.enc.withChart)) ∨
      (s.enc.width ≤ Config.widthMax ∧ s.enc.withChart.chartSize ≤ Config.chartSizeMax ∧
        withinCap s.cfg.ctoCap s.enc.withChart.container.length = true ∧
        t = ((s.setEnc s.enc.withChart).setCto (Buffer.holding s.enc.withChart.container)).setStatus
          s.status.finished) := by
  by_cases hw : Config.widthMax < s.enc.width
  · exact .inl ⟨hw, by simpa [execSerialize, serializeStage, hw, endEncStage] using h.symm⟩
  · by_cases hc : Config.chartSizeMax < s.enc.withChart.chartSize
    · exact .inr (.inl ⟨by omega, hc,
        by simpa [execSerialize, serializeStage, hw, hc, endEncStage] using h.symm⟩)
    · have h' : commitContainer s.enc.withChart.container (s.setEnc s.enc.withChart) = .next t := by
        simpa [execSerialize, serializeStage, hw, hc, endEncStage] using h
      obtain ⟨hf, rfl⟩ := commitContainer_next h'
      exact .inr (.inr ⟨by omega, by omega, hf, rfl⟩)

/-- PARSE completes, or takes one of its errors; either way it writes group X and `STATUS` only. -/
theorem execParse_next (h : execParse s = .next t) :
    ((parseStage s.cfg.symw s.input s.dec).raised = none ∧
        t = setPhase .unpack (s.setDec (parseStage s.cfg.symw s.input s.dec).stores)) ∨
      ∃ e, (parseStage s.cfg.symw s.input s.dec).raised = some e ∧
        t = raiseError e (s.setDec (parseStage s.cfg.symw s.input s.dec).stores) := by
  rcases endDecStage_next h with ⟨hr, h⟩ | h
  · exact .inl ⟨hr, by simpa [advanceTo] using h.symm⟩
  · exact .inr h

/-- UNPACK commits the text, or takes UnknownCodeError. -/
theorem execUnpack_next (h : execUnpack s = .next t) :
    s.dec.pad.toNat ≤ 8 * s.dec.payload.length ∧
      ((s.dec.width = 0#8 ∧ lookupSymbol s.dec.table [] = none ∧
          t = raiseError .unknownCode
            (s.setDec { s.dec with bits := s.dec.unpadded, pos := 0, out := [] })) ∨
        (s.dec.width ≠ 0#8 ∧ (unpackStage s.dec).raised = none ∧
          withinCap s.cfg.txoCap s.dec.decoding.length = true ∧
          t = ((s.setDec (unpackStage s.dec).stores).setTxo
            (Buffer.holding s.dec.decoding)).setStatus s.status.finished) ∨
        (s.dec.width ≠ 0#8 ∧ (unpackStage s.dec).raised = some .unknownCode ∧
          t = raiseError .unknownCode (s.setDec (unpackStage s.dec).stores))) := by
  unfold execUnpack at h
  split at h
  · cases h
  · rename_i hp
    refine ⟨by omega, ?_⟩
    split at h
    · rename_i hw
      refine .inl ⟨hw, ?_⟩
      unfold unpackWidthZero at h
      split at h
      · exact ⟨‹_›, by simpa using h.symm⟩
      · cases h
    · rename_i hw
      rcases endDecStage_next h with ⟨hr, h⟩ | ⟨e, hr, rfl⟩
      · obtain ⟨hf, rfl⟩ := commitText_next h
        exact .inr (.inl ⟨hw, hr, hf, rfl⟩)
      · have he : e = .unknownCode := by
          simp only [unpackStage] at hr
          split at hr
          · cases hr
          · simpa using hr.symm
        subst he
        exact .inr (.inr ⟨hw, hr, rfl⟩)

@[simp] theorem consumeEvent_cfg (s : State) : (consumeEvent s).cfg = s.cfg := by
  unfold consumeEvent; split <;> rfl
@[simp] theorem consumeEvent_status (s : State) : (consumeEvent s).status = s.status := by
  unfold consumeEvent; split <;> rfl
@[simp] theorem consumeEvent_host (s : State) : (consumeEvent s).host = s.host := by
  unfold consumeEvent; split <;> rfl

/-- Where the host has a next action, taking it moves the host by one and changes nothing else. -/
theorem consumeEvent_of_event {s : State} {e : HostEvent} (h : nextEvent s = some e) :
    consumeEvent s = s.setHostPos (s.hostPos + 1) :=
  if_pos (List.getElem?_eq_some_iff.mp h).1

/-- Where the host has no next action, nothing changes. -/
theorem consumeEvent_of_none {s : State} (h : nextEvent s = none) : consumeEvent s = s :=
  if_neg (Nat.not_lt.mpr (List.getElem?_eq_none_iff.mp h))

/-- The state differs at most in how far the host has come. -/
theorem consumeEvent_eq (s : State) : consumeEvent s = s.setHostPos (consumeEvent s).hostPos := by
  unfold consumeEvent; split <;> rfl

@[simp] theorem nextEvent_withEvent (s : State) (e : HostEvent) :
    nextEvent (s.withEvent e) = some e := rfl
@[simp] theorem consumeEvent_withEvent (s : State) (e : HostEvent) :
    consumeEvent (s.withEvent e) = (s.setHost (e :: s.host.drop s.hostPos)).setHostPos 1 := by
  simp [consumeEvent, State.withEvent, State.setHostPos]

/-- What a step is where the host's next action is an access, a start or a reset. -/
theorem step_access {s : State} {a : Access} (h : nextEvent s = some (.access a)) :
    step s = performAccess a (s.setHostPos (s.hostPos + 1)) := by
  rw [← consumeEvent_of_event h]; simp only [step, nextTurn, h]
theorem step_start {s : State} {mode : BitVec 1} (h : nextEvent s = some (.start mode)) :
    step s = startCommand mode (s.setHostPos (s.hostPos + 1)) := by
  rw [← consumeEvent_of_event h]; simp only [step, nextTurn, h]
theorem step_reset {s : State} (h : nextEvent s = some .reset) :
    step s = .next (resetEngine (s.setHostPos (s.hostPos + 1))) := by
  rw [← consumeEvent_of_event h]; simp only [step, nextTurn, h]

/-- A step whose turn is an instruction's runs that instruction (rule R128). -/
theorem step_run {w : CodeWord} {i : Instr} (hn : nextTurn s = .run w) (hd : decode w = .ok i) :
    step s = exec i (consumeEvent s) := by
  simp only [step, hn, hd]

end Sys2Proof.Machine
end

