-- ==== Sys2Proof/Laws/Tables.lean ====
section
/-! SUPPORT. What the functions of the compression stages compute: the alphabet, the code table, the bits
and the payload bytes. -/

namespace Sys2Proof.Machine

theorem extractFrom_nodup (alpha text : List Symbol) (h : alpha.Nodup) :
    (extractFrom alpha text).Nodup := by
  induction text generalizing alpha with
  | nil => exact h
  | cons s text ih =>
    apply ih
    split
    · exact h
    · exact List.nodup_append.mpr ⟨h, by simp, by simp; rintro a ha rfl; contradiction⟩

theorem mem_extractFrom (alpha text : List Symbol) (x : Symbol) :
    x ∈ extractFrom alpha text ↔ x ∈ alpha ∨ x ∈ text := by
  induction text generalizing alpha with
  | nil => simp [extractFrom]
  | cons s text ih =>
    rw [extractFrom, ih]
    split
    · rename_i h
      simp only [List.mem_cons]
      constructor
      · tauto
      · rintro (h' | rfl | h')
        · exact .inl h'
        · exact .inl h
        · exact .inr h'
    · simp only [List.mem_append, List.mem_cons]
      tauto

/-- The alphabet so far stays the beginning of the alphabet. -/
theorem prefix_extractFrom (alpha text : List Symbol) : alpha <+: extractFrom alpha text := by
  induction text generalizing alpha with
  | nil => exact List.prefix_rfl
  | cons s text ih =>
    rw [extractFrom]
    split
    · exact ih alpha
    · exact (List.prefix_append alpha [s]).trans (ih _)

/-- Every symbol once (rule R86). -/
theorem alphabetOf_nodup (text : List Symbol) : (alphabetOf text).Nodup :=
  extractFrom_nodup [] text List.nodup_nil

/-- The symbols of the text and no other (rule R86). -/
theorem mem_alphabetOf {text : List Symbol} {x : Symbol} : x ∈ alphabetOf text ↔ x ∈ text := by
  rw [alphabetOf, mem_extractFrom]; simp

theorem alphabetOf_length_pos {text : List Symbol} (h : text ≠ []) : 1 ≤ (alphabetOf text).length := by
  obtain ⟨x, hx⟩ := List.exists_mem_of_ne_nil text h
  exact List.length_pos_of_mem (mem_alphabetOf.mpr hx)

/-- An alphabet of symbols below `2^SYMW` has at most `2^SYMW` of them (rule R26). -/
theorem alphabetOf_length_le {symw : Nat} {text : List Symbol} (h : ∀ x ∈ text, x < 2 ^ symw) :
    (alphabetOf text).length ≤ 2 ^ symw := by
  have hs := (alphabetOf_nodup text).subperm (l₂ := List.range (2 ^ symw))
    fun x hx => List.mem_range.mpr (h x (mem_alphabetOf.mp hx))
  simpa using hs.length_le

@[simp] theorem assignCodes_length (w i : Nat) (alpha : List Symbol) :
    (assignCodes w i alpha).length = alpha.length := by
  induction alpha generalizing i with
  | nil => rfl
  | cons s alpha ih => simp [assignCodes, ih]

theorem assignCodes_map_fst (w i : Nat) (alpha : List Symbol) :
    (assignCodes w i alpha).map Prod.fst = alpha := by
  induction alpha generalizing i with
  | nil => rfl
  | cons s alpha ih => simp [assignCodes, ih]

/-- The codes are those of the indices, in order (rule R91). -/
theorem assignCodes_map_snd (w i : Nat) (alpha : List Symbol) :
    (assignCodes w i alpha).map Prod.snd = (List.range' i alpha.length).map (bin w) := by
  induction alpha generalizing i with
  | nil => rfl
  | cons s alpha ih => simp [assignCodes, ih, List.range'_succ]

/-- All codes have the width of the table (rule R94). -/
theorem assignCodes_width {w i : Nat} {alpha : List Symbol} {e : Symbol × Bits}
    (h : e ∈ assignCodes w i alpha) : e.2.length = w := by
  have h' : e.2 ∈ (assignCodes w i alpha).map Prod.snd := List.mem_map_of_mem h
  rw [assignCodes_map_snd] at h'
  obtain ⟨j, _, hj⟩ := List.mem_map.mp h'
  rw [← hj, bin_length]

/-- The codes are pairwise different where every index fits the width (rule R94). -/
theorem assignCodes_codes_nodup {w i : Nat} {alpha : List Symbol} (h : i + alpha.length ≤ 2 ^ w) :
    ((assignCodes w i alpha).map Prod.snd).Nodup := by
  rw [assignCodes_map_snd]
  refine List.Nodup.map_on ?_ List.nodup_range'
  intro a ha b hb hab
  have ha' : a < 2 ^ w := by simp at ha; omega
  have hb' : b < 2 ^ w := by simp at hb; omega
  rw [← val_bin_of_lt ha', hab, val_bin_of_lt hb']

theorem encodeText_eq_flatten {table : List (Symbol × Bits)} {text : List Symbol}
    (h : allMapped table text = true) :
    encodeText table text = (text.map fun x => (lookupCode table x).getD []).flatten := by
  induction text with
  | nil => rfl
  | cons s text ih =>
    simp only [allMapped, List.all_cons, Bool.and_eq_true] at h
    obtain ⟨c, hc⟩ := Option.isSome_iff_exists.mp h.1
    simp [encodeText, hc, ih h.2]

/-- Where every symbol has a code of `w` bits, the bits are `w` times the symbols (rule R98). -/
theorem encodeText_length {table : List (Symbol × Bits)} {w : Nat}
    (hw : ∀ e ∈ table, e.2.length = w) {text : List Symbol} (h : allMapped table text = true) :
    (encodeText table text).length = w * text.length := by
  induction text with
  | nil => simp [encodeText]
  | cons s text ih =>
    simp only [allMapped, List.all_cons, Bool.and_eq_true] at h
    obtain ⟨c, hc⟩ := Option.isSome_iff_exists.mp h.1
    have := hw _ (lookupCode_mem hc)
    simp only [encodeText, hc, List.length_append, List.length_cons, ih h.2]
    simp only at this
    rw [this]; ring

theorem allMapped_iff {table : List (Symbol × Bits)} {text : List Symbol} :
    allMapped table text = true ↔ ∀ x ∈ text, ∃ c, (x, c) ∈ table := by
  simp only [allMapped, List.all_eq_true, lookupCode_isSome]

@[simp] theorem padBits_length (b : Bits) : (padBits b).length = 8 * ceilDiv b.length 8 := by
  rw [padBits, List.length_append, List.length_replicate, add_padLength]

@[simp] theorem packBytes_length (n : Nat) (b : Bits) : (packBytes n b).length = n := by
  induction n generalizing b with
  | zero => rfl
  | succ n ih => simp [packBytes, ih]

theorem expandBytes_eq_flatMap (p : List Byte) : expandBytes p = p.flatMap bitsOfByte := by
  induction p with
  | nil => rfl
  | cons b p ih => simp [expandBytes, ih]

@[simp] theorem expandBytes_length (p : List Byte) : (expandBytes p).length = 8 * p.length := by
  induction p with
  | nil => rfl
  | cons b p ih => simp [expandBytes, ih]; ring

/-- Unpacking the bytes gives the packed bits back (rule R45). -/
theorem expandBytes_packBytes (n : Nat) (b : Bits) (h : b.length = 8 * n) :
    expandBytes (packBytes n b) = b := by
  induction n generalizing b with
  | zero => exact (List.eq_nil_of_length_eq_zero (by simpa using h)).symm
  | succ n ih =>
    rw [packBytes, expandBytes, bitsOfByte_byteOfBits (by simp; omega), ih _ (by simp; omega),
      List.take_append_drop]

/-- Payload byte number `j` is the value of chunk `j` (rule R101). -/
theorem packBytes_getElem? (n : Nat) (b : Bits) (j : Nat) (h : j < n) :
    (packBytes n b)[j]? = some (byteOfBits ((b.drop (8 * j)).take 8)) := by
  induction n generalizing b j with
  | zero => omega
  | succ n ih =>
    cases j with
    | zero => simp [packBytes]
    | succ j => simp [packBytes, ih _ j (by omega), Nat.mul_succ, Nat.add_comm]

end Sys2Proof.Machine
end

