-- ==== Sys2Proof/Laws/Windows.lean ====
section
/-! SUPPORT. Windows of a bit string: what encoding puts into them and what the window loop reads. -/

namespace Sys2Proof.Machine

theorem windowAt_zero (b : Bits) (w : Nat) : windowAt b w 0 = b.take w := by simp [windowAt]

theorem windowAt_succ (b : Bits) (w m : Nat) : windowAt b w (m + 1) = windowAt (b.drop w) w m := by
  rw [windowAt, windowAt, Nat.succ_mul, Nat.add_comm, ← List.drop_drop]

/-- Where every code has `w` bits, window `i` of the encoded text is the code of symbol `i` (rule R98). -/
theorem windowAt_encodeText {table : List (Symbol × Bits)} {w : Nat}
    (hw : ∀ e ∈ table, e.2.length = w) {text : List Symbol} (h : allMapped table text = true)
    {i : Nat} {x : Symbol} (hx : text[i]? = some x) :
    lookupCode table x = some (windowAt (encodeText table text) w i) := by
  induction text generalizing i with
  | nil => simp at hx
  | cons y text ih =>
    simp only [allMapped, List.all_cons, Bool.and_eq_true] at h
    obtain ⟨c, hc⟩ := Option.isSome_iff_exists.mp h.1
    have hcl : c.length = w := hw _ (lookupCode_mem hc)
    rw [encodeText, hc]
    cases i with
    | zero =>
      rw [List.getElem?_cons_zero, Option.some.injEq] at hx
      rw [windowAt_zero, ← hx, hc, ← hcl, List.take_left]
    | succ i =>
      rw [List.getElem?_cons_succ] at hx
      rw [windowAt_succ, ← hcl, List.drop_left, ih h.2 hx, hcl]

/-- Windows that all have an entry are decoded to those entries (rules R121 and R122). -/
theorem decodeWindows_eq {table : List (Bits × Symbol)} {w : Nat} {bits : Bits}
    {symbols : List Symbol} (h : ∀ m, m < symbols.length →
      lookupSymbol table (windowAt bits w m) = symbols[m]?) :
    decodeWindows table w symbols.length bits = symbols := by
  induction symbols generalizing bits with
  | nil => rfl
  | cons x xs ih =>
    have h0 := h 0 (by simp)
    rw [windowAt_zero, List.getElem?_cons_zero] at h0
    rw [List.length_cons, decodeWindows, h0]
    dsimp only
    rw [ih fun m hm => ?_]
    have := h (m + 1) (by simpa using hm)
    rwa [windowAt_succ, List.getElem?_cons_succ] at this

/-- The loop ends at a window without an entry (rule R122). -/
theorem decodeWindows_length_le {table : List (Bits × Symbol)} {w n m : Nat} {bits : Bits}
    (hm : m < n) (h : lookupSymbol table (windowAt bits w m) = none) :
    (decodeWindows table w n bits).length ≤ m := by
  induction n generalizing bits m with
  | zero => omega
  | succ n ih =>
    rw [decodeWindows]
    cases m with
    | zero => rw [windowAt_zero] at h; rw [h]; simp
    | succ m =>
      rw [windowAt_succ] at h
      split
      · simp
      · rw [List.length_cons]; have := ih (by omega) h; omega

/-- Where the loop reaches the last window, every window has an entry. -/
theorem decodeWindows_getElem? {table : List (Bits × Symbol)} {w n m : Nat} {bits : Bits}
    (h : (decodeWindows table w n bits).length = n) (hm : m < n) :
    lookupSymbol table (windowAt bits w m) = (decodeWindows table w n bits)[m]? := by
  induction n generalizing bits m with
  | zero => omega
  | succ n ih =>
    rw [decodeWindows] at h ⊢
    cases hl : lookupSymbol table (bits.take w) with
    | none => rw [hl] at h; simp at h
    | some x =>
      rw [hl, List.length_cons, Nat.add_right_cancel_iff] at h
      cases m with
      | zero => rw [windowAt_zero, hl]; rfl
      | succ m => rw [windowAt_succ, ih h (by omega)]; rfl

/-- `DBITS` in the terms of the claims. -/
theorem unpadded_eq (d : DecStores) : d.unpadded = payloadBits d.payload d.pad.toNat := by
  rw [DecStores.unpadded, DecStores.bitLength, payloadBits, expandBytes_eq_flatMap]

end Sys2Proof.Machine
end

