-- ==== Sys2Proof/Laws/Commands.lean ====
section
/-! SUPPORT. What PARSE and UNPACK make of their input, said in one equation each, and the commands as
sequences of stages. -/

namespace Sys2Proof.Machine

/-- PARSE of a container whose fields are spelled out, its tests in the order of rule R117. -/
theorem parseStage_eq {symw : Nat} {d : DecStores} {w p b2 b3 b4 b5 : Byte} {rest : List Byte} {n : Nat}
    (hn : n = b2.toNat * 2 ^ 24 + b3.toNat * 2 ^ 16 + b4.toNat * 2 ^ 8 + b5.toNat) :
    parseStage symw (w :: p :: b2 :: b3 :: b4 :: b5 :: rest) d =
      let h := { d with width := w, pad := p, chartSize := BitVec.ofNat 32 n }
      let g := { h with payload := rest.drop n }
      if w = 0#8 ∨ 7 < p.toNat then ⟨h, some .invalidHeader⟩
      else if rest.length < n then ⟨h, some .truncatedChart⟩
      else if rest.length = n ∧ p ≠ 0#8 then ⟨g, some .invalidHeader⟩
      else match parseChart symw (rest.take n) w.toNat with
        | none => ⟨g, some .malformedChart⟩
        | some table => ⟨{ g with table := table }, none⟩ := by
  have hw : d.withHeader (w :: p :: b2 :: b3 :: b4 :: b5 :: rest) =
      { d with width := w, pad := p, chartSize := BitVec.ofNat 32 n } := by subst hn; rfl
  have hN : (BitVec.ofNat 32 n).toNat = n := by
    have := fromBe32_lt b2 b3 b4 b5
    rw [fromBe32, ← hn] at this
    rw [BitVec.toNat_ofNat, Nat.mod_eq_of_lt this]
  have hd : (w :: p :: b2 :: b3 :: b4 :: b5 :: rest).drop (Config.hdrLen + n) = rest.drop n := by
    rw [Nat.add_comm]; rfl
  have ht : ((w :: p :: b2 :: b3 :: b4 :: b5 :: rest).drop Config.hdrLen).take n = rest.take n := rfl
  have hl : (w :: p :: b2 :: b3 :: b4 :: b5 :: rest).length = rest.length + 6 := by simp
  have h6 : ¬rest.length + 6 < Config.hdrLen := by show ¬_ < 6; omega
  have h6n : rest.length + 6 < Config.hdrLen + n ↔ rest.length < n := by show _ < 6 + n ↔ _; omega
  have hz : (List.drop n rest).length = 0 ∧ p.toNat ≠ 0 ↔ rest.length ≤ n ∧ p ≠ 0#8 := by
    rw [List.length_drop, Nat.sub_eq_zero_iff_le]
    refine and_congr_right fun _ => not_congr ⟨fun h => BitVec.eq_of_toNat_eq (by simpa using h), ?_⟩
    rintro rfl
    rfl
  rw [parseStage, hw, hl, if_neg h6]
  unfold parseBody
  simp only [hN, payloadRegion, chartRegion, hd, ht, h6n, hz]
  by_cases a : w = 0#8 ∨ 7 < p.toNat
  · rw [if_pos a, if_pos (show w = 0#8 ∨ Config.padMax < p.toNat from a)]
  · rw [if_neg a, if_neg (show ¬(w = 0#8 ∨ Config.padMax < p.toNat) from a)]
    by_cases b : rest.length < n
    · rw [if_pos b, if_pos b]
    · rw [if_neg b, if_neg b]
      have e : rest.length ≤ n ∧ p ≠ 0#8 ↔ rest.length = n ∧ p ≠ 0#8 :=
        and_congr_left fun _ => ⟨fun h => by omega, fun h => by omega⟩
      exact if_congr e rfl (by cases parseChart symw (List.take n rest) w.toNat <;> rfl)

/-- PARSE of fewer than six bytes (rule R110). -/
theorem parseStage_short {symw : Nat} {d : DecStores} {c : List Byte} (h : c.length < 6) :
    parseStage symw c d = ⟨d, some .truncatedHeader⟩ := if_pos h

/-- What `parseBody` can raise, and that it writes the table and the payload only. -/
theorem parseBody_spec (symw : Nat) (c : List Byte) (d : DecStores) :
    ((parseBody symw c d).raised = none ∨ (parseBody symw c d).raised = some .invalidHeader ∨
        (parseBody symw c d).raised = some .malformedChart) ∧
      ∃ table payload, (parseBody symw c d).stores = { d with table := table, payload := payload } := by
  unfold parseBody
  generalize d.chartSize.toNat = n
  dsimp only
  split
  · exact ⟨.inr (.inl rfl), d.table, payloadRegion c n, rfl⟩
  · split
    · exact ⟨.inr (.inr rfl), d.table, payloadRegion c n, rfl⟩
    · exact ⟨.inl rfl, _, payloadRegion c n, rfl⟩

/-- What PARSE can raise, and that it writes its own five stores only (rule R117). -/
theorem parseStage_spec (symw : Nat) (c : List Byte) (d : DecStores) :
    (∀ e, (parseStage symw c d).raised = some e →
        e = .truncatedHeader ∨ e = .truncatedChart ∨ e = .malformedChart ∨ e = .invalidHeader) ∧
      ∃ width pad chartSize table payload, (parseStage symw c d).stores =
        { d with width := width, pad := pad, chartSize := chartSize, table := table,
                 payload := payload } := by
  unfold parseStage
  dsimp only
  have hh : d.withHeader c = { d with
    width := (d.withHeader c).width, pad := (d.withHeader c).pad,
    chartSize := (d.withHeader c).chartSize } := rfl
  generalize d.withHeader c = h at hh
  split
  · exact ⟨fun e he => .inl (Option.some.inj he).symm, d.width, d.pad, d.chartSize, d.table, d.payload, rfl⟩
  · split
    · exact ⟨fun e he => .inr (.inr (.inr (Option.some.inj he).symm)), h.width, h.pad, h.chartSize,
        d.table, d.payload, hh⟩
    · split
      · exact ⟨fun e he => .inr (.inl (Option.some.inj he).symm), h.width, h.pad, h.chartSize,
          d.table, d.payload, hh⟩
      · obtain ⟨hr, table, payload, hs⟩ := parseBody_spec symw c h
        refine ⟨fun e he => ?_, h.width, h.pad, h.chartSize, table, payload, by rw [hs, hh]⟩
        rcases hr with hr | hr | hr <;> rw [hr] at he
        · cases he
        · exact .inr (.inr (.inr (Option.some.inj he).symm))
        · exact .inr (.inr (.inl (Option.some.inj he).symm))

/-- UNPACK where its precondition holds: the work, then the commit or the error. -/
theorem execUnpack_eq {s : State} (hw : s.dec.width ≠ 0#8)
    (hp : s.dec.pad.toNat ≤ 8 * s.dec.payload.length) :
    execUnpack s =
      if s.dec.decoding.length = s.dec.windowCount then
        commitText s.dec.decoding (s.setDec (unpackStage s.dec).stores)
      else .next (raiseError .unknownCode (s.setDec (unpackStage s.dec).stores)) := by
  rw [execUnpack, if_neg (Nat.not_lt.mpr hp), if_neg hw, endDecStage]
  by_cases h : s.dec.decoding.length = s.dec.windowCount
  · have hr : (unpackStage s.dec).raised = none := by simp only [unpackStage, h, if_true]
    rw [if_pos h, hr]
    rfl
  · have hr : (unpackStage s.dec).raised = some .unknownCode := by
      simp only [unpackStage, h, if_false]
    rw [if_neg h, hr]

theorem thenStage_busy {s : State} (h : s.status.busy = true) (f : State → Outcome) :
    thenStage (.next s) f = f s := by simp [thenStage, h]

theorem thenStage_idle {s : State} (h : s.status.busy = false) (f : State → Outcome) :
    thenStage (.next s) f = .next s := by simp [thenStage, h]

theorem thenStage_assoc (o : Outcome) (f g : State → Outcome) :
    thenStage (thenStage o f) g = thenStage o fun t => thenStage (f t) g := by
  cases o with
  | next t =>
    cases hb : t.status.busy
    · rw [thenStage_idle hb, thenStage_idle hb, thenStage_idle hb]
    · rw [thenStage_busy hb, thenStage_busy hb]
  | fault r => rfl
  | refused r => rfl

/-- DECOMPRESS of an idle engine: the start, PARSE, then UNPACK (rule R126). -/
theorem exec_decompress_eq {s : State} (hi : Idle s) :
    exec .decompress s = thenStage (execParse (startDecompress s)) execUnpack := by
  have hb : s.status.busy = false := hi
  rw [exec, execDecompress, hb, runDecompress, thenStage_busy rfl]
  rfl

/-- COMPRESS of an idle engine: the start, then the five stages (rule R125). -/
theorem exec_compress_eq {s : State} (hi : Idle s) :
    exec .compress s = thenStage (execExtract (startCompress s)) fun t => thenStage (execBuild t)
      fun t => thenStage (execEncode t) fun t => thenStage (execPack t) execSerialize := by
  have hb : s.status.busy = false := hi
  rw [exec, execCompress, hb, runCompress, thenStage_busy rfl]
  simp only [thenStage_assoc]
  rfl

/-- A text is mapped whole by the table made of its own alphabet (rule R97). -/
theorem allMapped_tableOf (text : List Symbol) : allMapped (tableOf text) text = true := by
  rw [allMapped_iff]
  intro x hx
  have : x ∈ (tableOf text).map Prod.fst := by
    rw [tableOf, assignCodes_map_fst]; exact mem_alphabetOf.mpr hx
  obtain ⟨e, he, rfl⟩ := List.mem_map.mp this
  exact ⟨e.2, he⟩

/-- One step of a run. -/
theorem run_succ_next {s t : State} (h : step s = .next t) (k : Nat) :
    Host.Core.run Sys2Proof.core (k + 1) s = Host.Core.run Sys2Proof.core k t := by
  have : Sys2Proof.core.step s = .next t := h
  simp only [Host.Core.run, this]

end Sys2Proof.Machine
end

