-- ==== Sys2Proof/Laws/PerInstr.lean ====
section
/-! SUPPORT. The statements made of every instruction, one lemma per constructor. -/

namespace Sys2Proof.Laws.EncodedWord

/-- An instruction is well formed and its code word decodes to it (rules R59 and R60). -/
def Statement (i : Instr) : Prop := i.wellFormed = true ∧ decode (encode i) = .ok i

theorem compress : Statement .compress := ⟨rfl, rfl⟩
theorem decompress : Statement .decompress := ⟨rfl, rfl⟩
theorem extract : Statement .extract := ⟨rfl, rfl⟩
theorem build : Statement .build := ⟨rfl, rfl⟩
theorem encode : Statement .encode := ⟨rfl, rfl⟩
theorem pack : Statement .pack := ⟨rfl, rfl⟩
theorem serialize : Statement .serialize := ⟨rfl, rfl⟩
theorem parse : Statement .parse := ⟨rfl, rfl⟩
theorem unpack : Statement .unpack := ⟨rfl, rfl⟩

end Sys2Proof.Laws.EncodedWord
end

