-- ==== Sys2Proof/Tests/Slice0.lean ====
section
/-! SUPPORT. The model's own tests, their expected values from the vectors of spec/95_test_vectors.md or
written out from the encodings of spec/30_encoding.md; the smoke test of well-formedness; and, for every
statement with hypotheses, a witness that meets them all. -/

namespace Sys2Proof.Tests

-- One theorem at a time: side by side their checks need more threads than the memory limit allows.
set_option Elab.async false

open Sys2Proof.Machine

/-- Symbols, bytes and bits from numbers. -/
def sy (l : List Nat) : List Symbol := l
def hx (l : List Nat) : List Byte := l.map (BitVec.ofNat 8)
def bs (l : List Nat) : Bits := l.map (· == 1)

/-- The reset state with a text in `TXI`, or with a container in `CTI`. -/
def textState (t : List Nat) : State := State.reset.setTxi (Buffer.holding (sy t))
def inputState (c : List Byte) : State := State.reset.setCti (Buffer.holding c)

/-- The reset state in which a command runs and is in stage `p`. -/
def inStage (p : Phase) (s : State) : State := s.setStatus (Status.started p)

/-- Parameters with capacity 2 for every buffer, symbols of 8 bits and a code-index integer of 2 bits. -/
def smallParams : Params :=
  { symw := 8, idxw := 2, txiCap := some 2, ctoCap := some 2, ctiCap := some 2, txoCap := some 2 }

/-- A state with those parameters. -/
def smallState : State := { textState [1, 2] with cfg := smallParams }

/-- The outcome is a next state that meets `p`. -/
def ends (o : Outcome) (p : State → Bool) : Bool :=
  match o with
  | .next t => p t
  | .fault _ => false
  | .refused _ => false

theorem ends_iff {o : Outcome} {p : State → Bool} :
    ends o p = true ↔ ∃ t, o = .next t ∧ p t = true := by
  cases o <;> simp [ends]

/-- The fault or the refusal an outcome is. -/
def faultOf : Outcome → Option Fault
  | .next _ => none
  | .fault f => some f
  | .refused _ => none
def refusalOf : Outcome → Option Refusal
  | .next _ => none
  | .fault _ => none
  | .refused r => some r

/-- The 15 bytes of the chart of the text `a`, V-CHART-2, and the container V-COMP-2. -/
def chartA : List Byte :=
  hx [0x7B, 0x22, 0x30, 0x22, 0x3A, 0x22, 0x31, 0x31, 0x30, 0x30, 0x30, 0x30, 0x31, 0x22, 0x7D]
def containerA : List Byte := hx [0x01, 0x07, 0x00, 0x00, 0x00, 0x0F] ++ chartA ++ hx [0x00]

/-- The 46 bytes of the chart of the text `aabc` and its container, the worked example X1. -/
def chartX1 : List Byte :=
  hx [0x7B, 0x22, 0x30, 0x30, 0x22, 0x3A, 0x22, 0x31, 0x31, 0x30, 0x30, 0x30, 0x30, 0x31, 0x22, 0x2C] ++
  hx [0x22, 0x30, 0x31, 0x22, 0x3A, 0x22, 0x31, 0x31, 0x30, 0x30, 0x30, 0x31, 0x30, 0x22, 0x2C] ++
  hx [0x22, 0x31, 0x30, 0x22, 0x3A, 0x22, 0x31, 0x31, 0x30, 0x30, 0x30, 0x31, 0x31, 0x22, 0x7D]
def containerX1 : List Byte := hx [0x02, 0x00, 0x00, 0x00, 0x00, 0x2E] ++ chartX1 ++ hx [0x06]

/-- The table of X1, both ways round. -/
def tableX1 : List (Symbol × Bits) := [(97, bs [0, 0]), (98, bs [0, 1]), (99, bs [1, 0])]
def decX1 : DecStores :=
  { DecStores.empty with
    width := 2#8, chartSize := 46#32, table := tableX1.map Prod.swap, payload := hx [0x06] }

/-! ### Decoding: the words of rules R59 and R60, written out -/

theorem test_decode_compress : decode (.cmd 0b0#1) = .ok .compress := by decide
theorem test_decode_decompress : decode (.cmd 0b1#1) = .ok .decompress := by decide
theorem test_decode_idle : decode (.phase 0b000#3) = .error .idleIsNoStage := by decide
theorem test_decode_extract : decode (.phase 0b001#3) = .ok .extract := by decide
theorem test_decode_build : decode (.phase 0b010#3) = .ok .build := by decide
theorem test_decode_encode : decode (.phase 0b011#3) = .ok .encode := by decide
theorem test_decode_pack : decode (.phase 0b100#3) = .ok .pack := by decide
theorem test_decode_serialize : decode (.phase 0b101#3) = .ok .serialize := by decide
theorem test_decode_parse : decode (.phase 0b110#3) = .ok .parse := by decide
theorem test_decode_unpack : decode (.phase 0b111#3) = .ok .unpack := by decide

/-- Table words by their own widths. -/
theorem test_decode_numbers :
    decodeTableWord 1 0 = some .compress ∧ decodeTableWord 1 1 = some .decompress ∧
      decodeTableWord 3 1 = some .extract ∧ decodeTableWord 8 1 = some .decompress ∧
      decodeTableWord 8 7 = some .unpack ∧ decodeTableWord 3 0 = none ∧
      decodeTableWord 1 2 = none ∧ decodeTableWord 3 8 = none ∧ decodeTableWord 2 0 = none := by decide

theorem test_decode_byte_above_format : decodeByte 8#8 = .error .bitsAboveFormat := by decide

/-! ### Well-formedness: an ill-formed access for each check, which the check refuses -/

theorem test_wf_instructions :
    [Instr.compress, .decompress, .extract, .build, .encode, .pack, .serialize, .parse,
      .unpack].all Instr.wellFormed = true := by decide

theorem test_wf_elements_refused :
    [Access.writeTxi 2 0, .writeCti 2 0, .writeCto 2 0, .writeTxo 2 0, .readTxi 2, .readCto 2,
      .readCti 2, .readTxo 2].all (fun a => !a.wellFormed smallParams) = true := by decide

theorem test_wf_lengths_refused :
    [Access.writeTxiLen 3, .writeCtiLen 3].all (fun a => !a.wellFormed smallParams) = true := by decide

theorem test_wf_symbols_refused :
    [Access.writeTxi 0 256, .writeTxo 0 256].all (fun a => !a.wellFormed smallParams) = true := by decide

theorem test_wf_accepted :
    [Access.writeTxi 1 255, .writeCti 1 0, .writeCto 1 0, .writeTxo 1 255, .readTxi 1, .readCto 1,
      .readCti 1, .readTxo 1, .writeTxiLen 2, .writeCtiLen 2, .writeCtoLen 9, .writeTxoLen 9,
      .writeStatus 0, .readStatus, .readCmd, .readTxiLen, .readCtoLen, .readCtiLen,
      .readTxoLen].all (fun a => a.wellFormed smallParams) = true := by decide

/-! ### The pure functions (V-FN-1 to V-FN-7) -/

theorem test_clog2 :
    [1, 2, 3, 4, 5, 8, 9, 16, 17].map clog2 = [0, 1, 2, 2, 3, 3, 4, 4, 5] := by decide +kernel
theorem test_minbin :
    [0, 1, 10, 65].map minbin = [bs [0], bs [1], bs [1, 0, 1, 0], bs [1, 0, 0, 0, 0, 0, 1]] := by
  decide +kernel
theorem test_be32 :
    be32 2490368 = hx [0x00, 0x26, 0x00, 0x00] ∧ fromBe32 0x00 0x00 0x01 0x00 = 256 := by
  decide +kernel

/-! ### The commands (V-COMP-1, V-COMP-16, V-DEC-1, V-DEC-8) -/

theorem test_compress_x1 :
    ends (exec .compress (textState [97, 97, 98, 99])) (fun t =>
      t.status.word == 0x0002#16 && t.container == containerX1) = true := by decide +kernel
theorem test_compress_empty :
    ends (exec .compress State.reset) (fun t =>
      t.status.word == 0x110C#16 && t.cto.len == 0) = true := by decide +kernel
theorem test_decompress_x1 :
    ends (exec .decompress (inputState containerX1)) (fun t =>
      t.status.word == 0x0002#16 && t.decoded == sy [97, 97, 98, 99]) = true := by decide +kernel
theorem test_decompress_unknown_code :
    ends (exec .decompress (inputState (containerX1.set 52 0x07))) (fun t =>
      t.status.word == 0x243C#16 && t.txo.len == 0) = true := by decide +kernel

/-! ### Symbols of 8 bits, the other width decision D5 names -/

/-- A value of nine characters, 256, is malformed where symbols have 8 bits and is a symbol where they have
16 (rule R72 (c)). -/
theorem test_chart_value_width :
    parseChart 8 (hx [0x7B, 0x22, 0x30, 0x22, 0x3A, 0x22] ++
        hx [0x31, 0x30, 0x30, 0x30, 0x30, 0x30, 0x30, 0x30, 0x30, 0x22, 0x7D]) 1 = none ∧
      parseChart 16 (hx [0x7B, 0x22, 0x30, 0x22, 0x3A, 0x22] ++
        hx [0x31, 0x30, 0x30, 0x30, 0x30, 0x30, 0x30, 0x30, 0x30, 0x22, 0x7D]) 1 =
        some [(bs [0], 256)] := by decide +kernel
/-- V-COMP-2; the container does not depend on `SYMW`. -/
theorem test_compress_a_eight_bits :
    ends (exec .compress { textState [97] with cfg := { Params.default with symw := 8 } }) (fun t =>
      t.status.word == 0x0002#16 && t.container == containerA) = true := by decide +kernel

/-! ### The stages -/

/-- V-EXTRACT-5. -/
theorem test_extract_order :
    ends (exec .extract (textState [97, 98, 114, 97, 99, 97, 100, 97, 98, 114, 97])) (fun t =>
      t.enc.alpha == sy [97, 98, 114, 99, 100] && t.status.phase == .build) = true := by decide +kernel
/-- V-EXTRACT-9: what stands above the length is never looked at. -/
theorem test_extract_above_length :
    ends (exec .extract (State.reset.setTxi
      { cells := [(0, 5), (1, 5), (2, 9)], len := 2 })) (fun t => t.enc.alpha == sy [5]) = true := by
  decide +kernel
/-- V-BUILD-1, the guarding test: one symbol has width 1. -/
theorem test_build_one_symbol :
    ends (exec .build (State.reset.setEnc { EncStores.empty with alpha := sy [97] })) (fun t =>
      t.enc.width == 1 && t.enc.table == [(97, bs [0])]) = true := by decide +kernel
/-- V-BUILD-12: `IDXW = 2` and three symbols. -/
theorem test_build_too_large :
    ends (exec .build (inStage .build
      (smallState.setEnc { EncStores.empty with alpha := sy [1, 2, 3] }))) (fun t =>
      t.status.word == 0x3114#16 && t.enc.table == []) = true := by decide +kernel
/-- V-ENCODE-1. -/
theorem test_encode_x1 :
    ends (exec .encode ((textState [97, 97, 98, 99]).setEnc
      { EncStores.empty with table := tableX1 })) (fun t =>
      t.enc.bits == bs [0, 0, 0, 0, 0, 1, 1, 0]) = true := by decide +kernel
/-- V-ENCODE-9 and V-STATUS-9. -/
theorem test_encode_unmapped :
    ends (exec .encode (inStage .encode ((textState [97, 100]).setEnc
      { EncStores.empty with table := tableX1 }))) (fun t =>
      t.status.word == 0x121C#16) = true := by decide +kernel
/-- V-PACK-8. -/
theorem test_pack_two_bytes :
    ends (exec .pack (State.reset.setEnc
      { EncStores.empty with bits := bs [0, 0, 0, 0, 0, 1, 0, 1, 0, 0, 1, 1, 1, 0, 0] })) (fun t =>
      t.enc.pad == 1 && t.enc.payload == hx [0x05, 0x38]) = true := by decide +kernel
/-- V-PACK-12. -/
theorem test_pack_nine_ones :
    ends (exec .pack (State.reset.setEnc
      { EncStores.empty with bits := bs [1, 1, 1, 1, 1, 1, 1, 1, 1] })) (fun t =>
      t.enc.pad == 7 && t.enc.payload == hx [0xFF, 0x80]) = true := by decide +kernel
/-- V-SER-7: 255 is the largest width that passes. -/
theorem test_serialize_widest :
    ends (exec .serialize (State.reset.setEnc { EncStores.empty with width := 255 })) (fun t =>
      t.container == hx [0xFF, 0x00, 0x00, 0x00, 0x00, 0x02, 0x7B, 0x7D]) = true := by decide +kernel
/-- V-SER-6 and V-STATUS-12. -/
theorem test_serialize_too_wide :
    ends (exec .serialize (inStage .serialize
      (State.reset.setEnc { EncStores.empty with width := 256 }))) (fun t =>
      t.status.word == 0x322C#16 && t.cto.len == 0) = true := by decide +kernel
/-- V-PARSE-1. -/
theorem test_parse_x1 :
    ends (exec .parse (inputState containerX1)) (fun t => t.dec == decX1) = true := by decide +kernel
/-- V-PARSE-5: twenty bytes of X1. -/
theorem test_parse_truncated :
    ends (exec .parse (inStage .parse (inputState (containerX1.take 20)))) (fun t =>
      t.status.word == 0x2234#16) = true := by decide +kernel
/-- V-UNPACK-4: the last two bits fill no window. -/
theorem test_unpack_partial_window :
    ends (exec .unpack (State.reset.setDec { DecStores.empty with
      width := 3#8, table := [(bs [0, 0, 0], 97), (bs [1, 1, 1], 98)], payload := hx [0x1F] }))
      (fun t => t.decoded == sy [97, 98] && t.dec.pos == 6) = true := by decide +kernel
/-- V-UNPACK-5. -/
theorem test_unpack_unknown :
    ends (exec .unpack (inStage .unpack (State.reset.setDec { DecStores.empty with
      width := 3#8, table := [(bs [0, 0, 0], 97), (bs [1, 1, 1], 98)], payload := hx [0x07] })))
      (fun t => t.status.word == 0x243C#16 && t.txo.len == 0) = true := by decide +kernel

/-- Every row's code word, placed after reset, runs to a next state. -/
theorem test_placed_words_run :
    [(1, 0), (1, 1), (3, 1), (3, 2), (3, 3), (3, 4), (3, 5), (3, 6), (3, 7), (8, 0), (8, 7)].all
      (fun p => ends (step (State.reset.withFetchWord p.1 p.2)) fun _ => true) = true := by
  decide +kernel

/-! ### Witnesses: every statement's hypotheses can be met together -/

theorem witness_StepRunsTheDecodedInstruction :
    (nextTurn (inStage .pack State.reset) = .run (.phase 4#3) ∧ decode (.phase 4#3) = .ok .pack) ∧
    nextEvent (State.reset.setHost [.command 1#1]) = some (.command 1#1) ∧
    (nextEvent (inStage .unpack State.reset) = none ∧
      (inStage .unpack State.reset).status.busy = true ∧
      decode (.phase (inStage .unpack State.reset).status.phase.code) = .ok .unpack) ∧
    (nextEvent ((inStage .extract State.reset).setHost [.yield]) = some .yield ∧
      decode (.phase (inStage .extract State.reset).status.phase.code) = .ok .extract) ∧
    nextEvent (State.reset.setHost [.access (.writeTxi 0 97)]) = some (.access (.writeTxi 0 97)) ∧
    nextEvent ((State.reset.setHost [.yield, .start 0#1]).setHostPos 1) = some (.start 0#1) := by decide

theorem witness_PlacedTableWordIsRunByTheNextStep :
    decodeTableWord 1 0 = some .compress ∧ encode .compress = .cmd 0#1 ∧
      decodeTableWord 3 7 = some .unpack ∧ encode .unpack = .phase 7#3 := by decide

theorem witness_IdleEngineWaitsForTheHost : nextEvent State.reset = none ∧ Idle State.reset := ⟨rfl, rfl⟩

theorem witness_CommandWriteWhileBusyIsIgnored :
    (inStage .parse State.reset).status.busy = true ∧
    nextEvent ((inStage .parse State.reset).setHost [.command 0#1]) = some (.command 0#1) ∧
    nextEvent ((inStage .parse State.reset).setHost [.start 1#1]) = some (.start 1#1) := by decide

theorem witness_CommandStartSetsStatusAndEmptiesItsPath : Idle State.reset := rfl

theorem witness_InputWritesArePerformedOnlyWhileIdle :
    Idle smallState ∧ (inStage .extract smallState).status.busy = true ∧
      elementExists smallState.cfg .txi 1 = true ∧ 255 < 2 ^ smallState.cfg.symw ∧
      elementExists smallState.cfg .cti 1 = true ∧
      withinCap smallState.cfg.txiCap 2 = true ∧ withinCap smallState.cfg.ctiCap 2 = true := by
  exact ⟨rfl, by decide, by decide, by decide, by decide, by decide, by decide⟩

/-- The last element below the length, and the first at it. -/
theorem witness_HostReadsReturnTheCurrentValueWhileIdle :
    Idle smallState ∧ elementExists smallState.cfg .txi 1 = true ∧ 1 < smallState.txi.len ∧
      (inStage .build smallState).status.busy = true ∧
      elementExists smallState.cfg .cto 0 = true ∧ smallState.cto.len ≤ 0 ∧
      (let s := (inputState (hx [1])).setCto (Buffer.holding (hx [2]))
       let u := s.setTxo (Buffer.holding (sy [3]))
       Idle u ∧ 0 < u.cti.len ∧ 0 < u.cto.len ∧ 0 < u.txo.len ∧ elementExists u.cfg .txo 0 = true ∧
         u.cti.len ≤ 1 ∧ u.txo.len ≤ 1) := by
  exact ⟨rfl, by decide, by decide, by decide, by decide, by decide, rfl, by decide, by decide,
    by decide, by decide, by decide, by decide⟩

theorem witness_AccessesCompleteExactlyWhereTheyExist :
    (Access.readTxi 1).wellFormed smallState.cfg = true ∧
      (Access.readTxi 2).wellFormed smallState.cfg = false ∧
      (Access.writeTxi 1 255).wellFormed smallState.cfg = true ∧
      (Access.writeTxi 1 256).wellFormed smallState.cfg = false ∧
      (Access.writeTxiLen 2).wellFormed smallState.cfg = true ∧
      (Access.writeTxiLen 3).wellFormed smallState.cfg = false := by decide

theorem witness_ResetAbandonsWhateverRuns :
    nextEvent ((inStage .encode smallState).setHost [.reset, .yield]) = some .reset := by decide

theorem witness_ExtractKeepsFirstOccurrenceOrder : (textState [97]).txi.len ≠ 0 := by decide

theorem witness_EmptyTextRaisesEmptyInput : Idle State.reset ∧ State.reset.txi.len = 0 := ⟨rfl, rfl⟩

/-- The width just below `IDXW`: two symbols, `IDXW = 2`. -/
theorem witness_BuildAssignsIndexCodesOfLeastWidth :
    let s := smallState.setEnc { EncStores.empty with alpha := sy [1, 2] }
    s.enc.alpha ≠ [] ∧ codeWidth s.enc.alpha.length < s.cfg.idxw := by decide +kernel

theorem witness_BuildRaisesItsErrorsBeforeWriting :
    State.reset.enc.alpha = [] ∧
    (let s := smallState.setEnc { EncStores.empty with alpha := sy [1, 2, 3] }
     s.enc.alpha ≠ [] ∧ s.cfg.idxw ≤ codeWidth s.enc.alpha.length) := by decide +kernel

/-- The text `ac` with the table of X1, and a text with a symbol the table lacks. -/
def encodeState : State := (textState [97, 99]).setEnc { EncStores.empty with table := tableX1 }
def unmappedState : State := (textState [97, 100]).setEnc { EncStores.empty with table := tableX1 }

theorem witness_EncodeConcatenatesTheCodes :
    (∀ x ∈ encodeState.text, ∃ c, (x, c) ∈ encodeState.enc.table) ∧
      (∀ e ∈ encodeState.enc.table, e.2.length = 2) ∧ encodeState.text[1]? = some 99 := by
  have h : encodeState.text = sy [97, 99] := by decide +kernel
  rw [h]
  refine ⟨fun x hx => ?_, by decide, by decide⟩
  simp only [sy, List.mem_cons, List.not_mem_nil, or_false] at hx
  rcases hx with rfl | rfl
  · exact ⟨bs [0, 0], by decide⟩
  · exact ⟨bs [1, 0], by decide⟩

theorem witness_UnmappedSymbolRaises :
    (100 : Symbol) ∈ unmappedState.text ∧ ∀ c, ((100 : Symbol), c) ∉ unmappedState.enc.table := by
  have h : unmappedState.text = sy [97, 100] := by decide +kernel
  rw [h]
  refine ⟨by decide, fun c hc => ?_⟩
  have h' : (100 : Symbol) ∈ unmappedState.enc.table.map Prod.fst := List.mem_map_of_mem hc
  exact absurd h' (by decide)

/-- The greatest width, and a container that fills `CTO` exactly. -/
def widestState : State :=
  { State.reset.setEnc { EncStores.empty with width := 255 } with
    cfg := { Params.default with ctoCap := some 8 } }

theorem witness_SerializeWritesTheContainer :
    widestState.enc.width ≤ 255 ∧ (chartText widestState.enc.table).length ≤ 2 ^ 32 - 1 ∧
      withinCap widestState.cfg.ctoCap
        (6 + (chartText widestState.enc.table).length + widestState.enc.payload.length) = true := by
  have h : (chartText widestState.enc.table).length = 2 := by decide
  rw [h]
  exact ⟨by decide, by omega, by decide⟩

/-- A table with one code of `n` bits. -/
def longCodeState (n : Nat) : State :=
  State.reset.setEnc { EncStores.empty with table := [(0, List.replicate n true)] }

theorem longCode_chart_length (n : Nat) :
    n < (chartText (longCodeState n).enc.table).length := by
  simp only [longCodeState, State.setEnc_enc, chartText, entriesText, entryText, bitText,
    List.length_append, List.length_map, List.length_replicate, List.length_cons, List.length_nil]
  omega

/-- A width of 256, and a code of `2^32 - 1` bits, which makes a chart too large for its size field. -/
theorem witness_SerializeRaisesItsErrorsInOrder :
    255 < (State.reset.setEnc { EncStores.empty with width := 256 }).enc.width ∧
      (longCodeState (2 ^ 32 - 1)).enc.width ≤ 255 ∧
      2 ^ 32 - 1 < (chartText (longCodeState (2 ^ 32 - 1)).enc.table).length :=
  ⟨by decide, Nat.zero_le _, longCode_chart_length _⟩

theorem witness_ChartLengthHasItsClosedForm :
    tableX1 ≠ [] ∧ (∀ e ∈ tableX1, e.2.length = 2) ∧ sy [97] ≠ [] ∧
      SymbolsFit 16 (sy [0, 65535]) := ⟨by decide, by decide, by decide, by decide, by decide⟩

theorem witness_ChartReaderInvertsTheWriter :
    codesDiffer 2 tableX1 ∧ SymbolsFit 7 (tableX1.map Prod.fst) :=
  ⟨⟨by decide, by decide⟩, by decide, by decide⟩

theorem witness_ParseReadsHeaderChartAndPayload :
    (inputState containerX1).input = 2 :: 0 :: 0 :: 0 :: 0 :: 46 :: (chartX1 ++ hx [6]) ∧
      (chartX1 ++ hx [6]).length = 47 ∧
      parseChart 16 ((chartX1 ++ hx [6]).take 46) (2 : Byte).toNat = some (tableX1.map Prod.swap) := by
  decide +kernel

/-- The container that is all header and chart: the padding must be 0 there. -/
theorem witness_ParseReadsHeaderChartAndPayload_empty_payload :
    (inputState (hx [1, 0, 0, 0, 0, 2, 0x7B, 0x7D])).input =
        1 :: 0 :: 0 :: 0 :: 0 :: 2 :: hx [0x7B, 0x7D] ∧
      (hx [0x7B, 0x7D]).length = 2 ∧ parseChart 16 ((hx [0x7B, 0x7D]).take 2) (1 : Byte).toNat = some [] := by
  decide +kernel

/-- One input per clause: five bytes; width 0; padding 8; one byte short of the chart; no payload but
padding; a chart that is none. -/
theorem witness_ParseRaisesTheFirstErrorInOrder :
    (inputState (containerA.take 5)).cti.len < 6 ∧
    (inputState (containerA.set 0 0)).input = 0 :: 7 :: 0 :: 0 :: 0 :: 15 :: (chartA ++ hx [0]) ∧
    (inputState (containerA.set 1 8)).input = 1 :: 8 :: 0 :: 0 :: 0 :: 15 :: (chartA ++ hx [0]) ∧
    ((inputState (containerA.take 20)).input = 1 :: 7 :: 0 :: 0 :: 0 :: 15 :: chartA.take 14 ∧
      (inputState (containerA.take 20)).cti.len < 6 + 15) ∧
    ((inputState (containerA.take 21)).input = 1 :: 7 :: 0 :: 0 :: 0 :: 15 :: chartA ∧
      (inputState (containerA.take 21)).cti.len = 6 + 15) ∧
    ((inputState (containerA.set 6 0x5B)).input =
        1 :: 7 :: 0 :: 0 :: 0 :: 15 :: ((chartA ++ hx [0]).set 0 0x5B) ∧
      6 + 15 ≤ (inputState (containerA.set 6 0x5B)).cti.len ∧
      (inputState (containerA.set 6 0x5B)).cti.len ≠ 6 + 15 ∧
      parseChart 16 (((chartA ++ hx [0]).set 0 0x5B).take 15) (1 : Byte).toNat = none) := by
  decide +kernel

theorem witness_ParseInvertsSerialize :
    let s := { State.reset.setEnc
        { EncStores.empty with width := 2, table := tableX1, payload := hx [6] } with
      cfg := { Params.default with ctoCap := some 53 } }
    1 ≤ s.enc.width ∧ s.enc.width ≤ 255 ∧ codesDiffer s.enc.width s.enc.table ∧
      SymbolsFit s.cfg.symw (s.enc.table.map Prod.fst) ∧ (inputState containerX1).cfg.symw = s.cfg.symw ∧
      (s.enc.payload ≠ [] ∨ s.enc.pad = 0) ∧ (chartText s.enc.table).length ≤ 2 ^ 32 - 1 ∧
      withinCap s.cfg.ctoCap (6 + (chartText s.enc.table).length + s.enc.payload.length) = true ∧
      (exec .serialize s = .next (((s.setEnc s.enc.withChart).setCto
          (Buffer.holding s.enc.withChart.container)).setStatus s.status.finished) ∧
        (inputState containerX1).input = s.enc.withChart.container) := by
  refine ⟨by decide, by decide, ⟨by decide, by decide⟩, ⟨by decide, by decide⟩, rfl, by decide,
    by decide +kernel, by decide +kernel, ?_, by decide +kernel⟩
  rfl

theorem witness_UnpackDecodesTheWholeWindows :
    let s := State.reset.setDec decX1
    s.dec.width ≠ 0#8 ∧ s.dec.pad.toNat ≤ 8 * s.dec.payload.length ∧
      (sy [97, 97, 98, 99]).length =
        (8 * s.dec.payload.length - s.dec.pad.toNat) / s.dec.width.toNat ∧
      (∀ m, m < 4 → lookupSymbol s.dec.table (windowAt (payloadBits s.dec.payload s.dec.pad.toNat)
        s.dec.width.toNat m) = (sy [97, 97, 98, 99])[m]?) ∧
      withinCap s.cfg.txoCap 4 = true := by decide +kernel

theorem witness_UnknownWindowRaisesAndDeliversNothing :
    ((tableX1.map Prod.swap).map Prod.fst).Nodup ∧
    let s := State.reset.setDec { decX1 with payload := hx [0x07] }
    s.dec.width ≠ 0#8 ∧ s.dec.pad.toNat ≤ 8 * s.dec.payload.length ∧
      3 < (8 * s.dec.payload.length - s.dec.pad.toNat) / s.dec.width.toNat ∧
      lookupSymbol s.dec.table (windowAt (payloadBits s.dec.payload s.dec.pad.toNat)
        s.dec.width.toNat 3) = none := by decide +kernel

theorem witness_UnpackStopsOutsideItsPrecondition :
    (let s := State.reset.setDec { DecStores.empty with pad := 1#8 }
     8 * s.dec.payload.length < s.dec.pad.toNat) ∧
    (let s := State.reset.setDec { DecStores.empty with table := [([], 5)] }
     s.dec.pad.toNat ≤ 8 * s.dec.payload.length ∧ s.dec.width = 0#8 ∧ ([], 5) ∈ s.dec.table) ∧
    (State.reset.dec.pad.toNat ≤ 8 * State.reset.dec.payload.length ∧
      State.reset.dec.width = 0#8 ∧ State.reset.dec.table = []) := by decide

/-- A container of exactly the capacity. -/
theorem witness_CompressWritesTheContainerOfTheText :
    let s := { textState [97] with cfg := { Params.default with ctoCap := some 22 } }
    Idle s ∧ s.txi.len ≠ 0 ∧ FieldsFit s.cfg s.text ∧
      withinCap s.cfg.ctoCap (containerLengthOf s.text) = true :=
  ⟨rfl, by decide, ⟨by decide +kernel, by decide +kernel, by decide +kernel⟩, by decide +kernel⟩

theorem witness_DecompressWritesTheTextOfTheContainer :
    Idle (inputState containerA) ∧
    (inputState containerA).input = 1 :: 7 :: 0 :: 0 :: 0 :: 15 :: (chartA ++ hx [0]) ∧
      15 ≤ (chartA ++ hx [0]).length ∧ (chartA ++ hx [0]).length ≠ 15 ∧
      parseChart 16 ((chartA ++ hx [0]).take 15) (1 : Byte).toNat = some [(bs [0], 97)] ∧
      (sy [97]).length = (8 * ((chartA ++ hx [0]).length - 15) - 7) / 1 ∧
      (∀ m, m < 1 → lookupSymbol [(bs [0], 97)]
        (windowAt (payloadBits ((chartA ++ hx [0]).drop 15) 7) 1 m) = (sy [97])[m]?) ∧
      withinCap (inputState containerA).cfg.txoCap 1 = true :=
  ⟨rfl, by decide +kernel, by decide, by decide, by decide +kernel, by decide, by decide +kernel,
    by decide⟩

/-- The symbols of a text just loaded fit. -/
theorem fit_textState (l : List Nat) (h : ∀ x ∈ l, x < 2 ^ 16) :
    SymbolsFit (textState l).cfg.symw (textState l).text := by
  have : (textState l).text = l := Buffer.contents_holding _ _
  rw [this]
  exact ⟨(by decide : 1 ≤ Params.default.symw), h⟩

theorem fitA : SymbolsFit (textState [97]).cfg.symw (textState [97]).text :=
  fit_textState _ (by decide)

theorem witness_CompressedTextDecompressesToItself :
    Idle (textState [97]) ∧ 1 ≤ (textState [97]).txi.len ∧
      sy [97] ≠ [] ∧ SymbolsFit Params.default.symw (sy [97]) ∧ Params.default.symw ≤ 16 ∧
      17 ≤ Params.default.idxw ∧ SymbolsFit (textState [97]).cfg.symw (textState [97]).text ∧
      FieldsFit (textState [97]).cfg (textState [97]).text ∧
      withinCap (textState [97]).cfg.ctoCap (containerLengthOf (textState [97]).text) = true ∧
      Idle (inputState containerA) ∧ (inputState containerA).cfg.symw = (textState [97]).cfg.symw ∧
      ends (exec .compress (textState [97])) (fun t => (inputState containerA).input == t.container) =
        true ∧
      withinCap (inputState containerA).cfg.txoCap (textState [97]).txi.len = true :=
  ⟨rfl, by decide, by decide, ⟨by decide, by decide⟩, by decide, by decide, fitA,
    ⟨by decide +kernel, by decide +kernel, by decide +kernel⟩, by decide, rfl, rfl, by decide +kernel,
    by decide⟩

theorem witness_ContainerHeaderAndLengthFollowTheText :
    Idle (textState [97]) ∧ SymbolsFit (textState [97]).cfg.symw (textState [97]).text ∧
      ∃ t, exec .compress (textState [97]) = .next t ∧ t.status.done = true :=
  ⟨rfl, fitA, ends_iff.mp (by decide +kernel)⟩

/-- Two states that differ in everything but the input. -/
theorem witness_CommandsDependOnTheirInputAlone :
    let s := textState [97]
    let u := (s.setStatus (Status.finished (Status.started .unpack))).setDec decX1
    Idle s ∧ Idle u ∧ s.cfg = u.cfg ∧ s.text = u.text ∧ s.input = u.input ∧
      ends (exec .compress s) (fun _ => true) = true ∧
      ends (exec .decompress s) (fun _ => true) = true :=
  ⟨rfl, rfl, rfl, rfl, rfl, by decide +kernel, by decide +kernel⟩

theorem witness_CommandsChangeOnlyTheirOwnPath :
    (∃ t, exec .compress (textState [97]) = .next t ∧ decide (t.cto.len = 22) = true) ∧
    ∃ t, exec .decompress (inputState containerA) = .next t ∧ decide (t.txo.len = 1) = true :=
  ⟨ends_iff.mp (by decide +kernel), ends_iff.mp (by decide +kernel)⟩

/-- Every instruction takes a next state after reset, and EXTRACT one that completes. -/
theorem witness_StagesChangeOnlyTheirOwnStores :
    [Instr.compress, .decompress, .extract, .build, .encode, .pack, .serialize, .parse, .unpack].all
      (fun i => ends (exec i State.reset) fun _ => true) = true ∧
    ends (exec .extract (textState [97])) (fun t => t.status.phase == .build) = true := by
  decide +kernel

theorem witness_CommandEndsWithExactlyOneFlag :
    Idle State.reset ∧ ends (execCommand 0#1 State.reset) (fun t => t.status.err) = true ∧
      ends (execCommand 1#1 (inputState containerA)) (fun t => t.status.done) = true :=
  ⟨rfl, by decide +kernel, by decide +kernel⟩

theorem witness_CompressFailsOnlyOnEmptyInput :
    Idle State.reset ∧ State.reset.cfg.symw = 16 ∧ State.reset.cfg.idxw = 32 ∧
      SymbolsFit State.reset.cfg.symw State.reset.text ∧
      ∃ t, exec .compress State.reset = .next t ∧ t.status.err = true :=
  ⟨rfl, rfl, rfl, ⟨by decide, by simp [State.text, State.reset]⟩, ends_iff.mp (by decide +kernel)⟩

theorem witness_EachCommandHasItsOwnErrors :
    Idle State.reset ∧ (∃ t, exec .compress State.reset = .next t ∧ t.status.err = true) ∧
      (∃ t, exec .decompress State.reset = .next t ∧ t.status.err = true) ∧
      ∃ t, exec .pack State.reset = .next t ∧ (fun _ => true) t = true :=
  ⟨rfl, ends_iff.mp (by decide +kernel), ends_iff.mp (by decide +kernel),
    ends_iff.mp (by decide +kernel)⟩

/-- An idle state, and for each command one whose output is longer than its capacity. -/
theorem witness_EveryCommandEnds :
    Idle State.reset ∧
    (let s := { textState [97] with cfg := { Params.default with ctoCap := some 21 } }
     Idle s ∧ refusalOf (exec .compress s) = some (.outputExceedsCapacity .cto)) ∧
    (let s := { inputState containerA with cfg := { Params.default with txoCap := some 0 } }
     Idle s ∧ refusalOf (exec .decompress s) = some (.outputExceedsCapacity .txo)) :=
  ⟨rfl, ⟨rfl, by decide +kernel⟩, rfl, by decide +kernel⟩

theorem witness_CompressOfTooLargeAlphabetFails :
    let s := { textState [1, 2, 3] with cfg := { Params.default with idxw := 2 } }
    Idle s ∧ s.txi.len ≠ 0 ∧ s.cfg.idxw ≤ widthOf s.text := ⟨rfl, by decide, by decide +kernel⟩

theorem witness_DecompressEndsWithTheFirstError :
    (Idle State.reset ∧ ParseRaises (startDecompress State.reset) .truncatedHeader) ∧
    (Idle (inputState (containerX1.set 52 7)) ∧
      (inputState (containerX1.set 52 7)).input = 2 :: 0 :: 0 :: 0 :: 0 :: 46 :: (chartX1 ++ hx [7]) ∧
      (chartX1 ++ hx [7]).length = 47 ∧
      parseChart 16 ((chartX1 ++ hx [7]).take 46) (2 : Byte).toNat = some (tableX1.map Prod.swap) ∧
      3 < (8 * (47 - 46) - 0) / 2 ∧
      lookupSymbol (tableX1.map Prod.swap)
        (windowAt (payloadBits ((chartX1 ++ hx [7]).drop 46) 0) 2 3) = none) :=
  ⟨⟨rfl, DecStores.empty, rfl, rfl, rfl, rfl⟩, rfl, by decide +kernel, by decide, by decide +kernel,
    by decide, by decide +kernel⟩

theorem witness_FailedCommandLeavesNoOutput :
    Idle State.reset ∧ (∃ t, exec .compress State.reset = .next t ∧ t.status.err = true) ∧
      ∃ t, exec .decompress State.reset = .next t ∧ t.status.err = true :=
  ⟨rfl, ends_iff.mp (by decide +kernel), ends_iff.mp (by decide +kernel)⟩

/-- Outputs one element above the capacity. -/
theorem witness_OutputAboveCapacityIsRefused :
    (let s := { textState [97] with cfg := { Params.default with ctoCap := some 21 } }
     Idle s ∧ s.txi.len ≠ 0 ∧ FieldsFit s.cfg s.text ∧
       withinCap s.cfg.ctoCap (containerLengthOf s.text) = false) ∧
    (let s := { inputState containerA with cfg := { Params.default with txoCap := some 0 } }
     Idle s ∧ s.input = 1 :: 7 :: 0 :: 0 :: 0 :: 15 :: (chartA ++ hx [0]) ∧
       (chartA ++ hx [0]).length = 16 ∧
       parseChart s.cfg.symw ((chartA ++ hx [0]).take 15) (1 : Byte).toNat = some [(bs [0], 97)] ∧
       (sy [97]).length = (8 * ((chartA ++ hx [0]).length - 15) - 7) / 1 ∧
       (∀ m, m < 1 → lookupSymbol [(bs [0], 97)]
         (windowAt (payloadBits ((chartA ++ hx [0]).drop 15) 7) 1 m) = (sy [97])[m]?) ∧
       withinCap s.cfg.txoCap 1 = false) ∧
    (let s := { State.reset.setDec decX1 with cfg := { Params.default with txoCap := some 3 } }
     s.dec.width ≠ 0#8 ∧ s.dec.pad.toNat ≤ 8 * s.dec.payload.length ∧
       (sy [97, 97, 98, 99]).length =
         (8 * s.dec.payload.length - s.dec.pad.toNat) / s.dec.width.toNat ∧
       (∀ m, m < 4 → lookupSymbol s.dec.table (windowAt (payloadBits s.dec.payload s.dec.pad.toNat)
         s.dec.width.toNat m) = (sy [97, 97, 98, 99])[m]?) ∧
       withinCap s.cfg.txoCap 4 = false) ∧
    withinCap smallState.cfg.txiCap 3 = false ∧ withinCap smallState.cfg.ctiCap 3 = false :=
  ⟨⟨rfl, by decide, ⟨by decide +kernel, by decide +kernel, by decide +kernel⟩, by decide +kernel⟩,
    ⟨rfl, by decide +kernel, by decide, by decide +kernel, by decide, by decide +kernel, by decide⟩,
    by decide +kernel, by decide, by decide⟩

theorem witness_StagedRunEqualsTheAtomicCommand : Idle (textState [97]) := rfl

theorem witness_DecodedTextHasTheWindowsOfItsPayload :
    Idle (inputState containerA) ∧
    (∃ t, exec .decompress (inputState containerA) = .next t ∧ t.status.done = true) ∧
    (inputState containerA).input = 1 :: 7 :: 0 :: 0 :: 0 :: 15 :: (chartA ++ hx [0]) :=
  ⟨rfl, ends_iff.mp (by decide +kernel), by decide +kernel⟩

/-- The two orders of a chart with two entries (V-DEC-19). -/
theorem witness_ChartEntryOrderDoesNotMatter :
    let e := (bs [0], bs [1, 1, 0, 0, 0, 0, 1])
    let f := (bs [1], bs [1, 1, 0, 0, 0, 1, 0])
    let s := inputState ([1, 4] ++ be32 29 ++ spelledChart [e, f] ++ hx [0x50])
    let u := inputState ([1, 4] ++ be32 29 ++ spelledChart [f, e] ++ hx [0x50])
    Idle s ∧ Idle u ∧ s.cfg = u.cfg ∧ [e, f].Perm [f, e] ∧ acceptableEntries s.cfg.symw 1 [e, f] ∧
      29 = (spelledChart [e, f]).length ∧
      s.input = [1, 4] ++ be32 29 ++ spelledChart [e, f] ++ hx [0x50] ∧
      u.input = [1, 4] ++ be32 29 ++ spelledChart [f, e] ++ hx [0x50] ∧
      ends (exec .decompress s) (fun t => t.decoded == sy [97, 98, 97, 98]) = true :=
  ⟨rfl, rfl, rfl, by decide, ⟨by decide, by decide, by decide⟩, by decide +kernel, by decide +kernel,
    by decide +kernel, by decide +kernel⟩

/-- One corrupted container per clause, at the ends of the clause's range. -/
theorem witness_CorruptedHeaderIsDetected :
    Idle (textState [97]) ∧ SymbolsFit (textState [97]).cfg.symw (textState [97]).text ∧
    Idle (inputState containerA) ∧ (inputState containerA).cfg.symw = (textState [97]).cfg.symw ∧
    ends (exec .compress (textState [97])) (fun t => t.status.done && chartSizeField t.container == 15 &&
      (inputState (containerA.take 0)).input == t.container.take 0 &&
      (inputState (containerA.take 5)).input == t.container.take 5 &&
      (inputState (containerA.take 6)).input == t.container.take 6 &&
      (inputState (containerA.take 20)).input == t.container.take 20 &&
      (inputState (containerA.set 0 0)).input == t.container.set 0 0 &&
      (inputState (containerA.set 0 2)).input == t.container.set 0 2 &&
      t.container.getD 0 0 == 1 &&
      (inputState (containerA.set 1 8)).input == t.container.set 1 8 &&
      [0, 14, 16, 17, 4294967295].all fun n =>
        (inputState (containerA.take 2 ++ be32 n ++ containerA.drop 6)).input ==
          t.container.take 2 ++ be32 n ++ t.container.drop 6) = true :=
  ⟨rfl, fitA, rfl, rfl, by decide +kernel⟩

/-- The second key of the two-symbol chart repeated, and the one key of the one-symbol chart changed to a
new key. -/
theorem witness_CorruptedKeyIsDetected :
    Idle (textState [97]) ∧ SymbolsFit (textState [97]).cfg.symw (textState [97]).text ∧
    Idle (textState [97, 98]) ∧
    SymbolsFit (textState [97, 98]).cfg.symw (textState [97, 98]).text ∧
    (tableOf (textState [97]).text)[0]? = some (97, bs [0]) ∧ (bs [0])[0]? = some false ∧
    ends (exec .compress (textState [97])) (fun t => t.status.done &&
      (inputState (containerA.set 8 0x31)).input ==
        t.container.take 6 ++ chartText ((tableOf (textState [97]).text).set 0 (97, bs [1])) ++
          t.container.drop (6 + chartSizeField t.container)) = true ∧
    (tableOf (textState [97, 98]).text)[1]? = some (98, bs [1]) ∧ (bs [1])[0]? = some true ∧
    bs [0] ∈ (tableOf (textState [97, 98]).text).map Prod.snd ∧
    ends (exec .compress (textState [97, 98])) (fun t => t.status.done) = true :=
  ⟨rfl, fitA, rfl, fit_textState _ (by decide), by decide +kernel, by decide, by decide +kernel,
    by decide +kernel, by decide, by decide +kernel, by decide +kernel⟩

/-- X1 with padding 1 (V-DEC-9), and with its own padding. -/
theorem witness_GreaterPaddingCutsTheTextUndetected :
    Idle (textState [97, 97, 98, 99]) ∧
    SymbolsFit (textState [97, 97, 98, 99]).cfg.symw (textState [97, 97, 98, 99]).text ∧
    Idle (inputState (containerX1.set 1 1)) ∧
    ends (exec .compress (textState [97, 97, 98, 99])) (fun t => t.status.done &&
      decide ((t.container.getD 1 0).toNat ≤ 0) &&
      (inputState (containerX1.set 1 0)).input == t.container.set 1 0 &&
      (inputState (containerX1.set 1 1)).input == t.container.set 1 1 &&
      (inputState (containerX1.set 1 7)).input == t.container.set 1 7) = true ∧
    withinCap (inputState (containerX1.set 1 1)).cfg.txoCap 4 = true :=
  ⟨rfl, fit_textState _ (by decide), rfl, by decide +kernel, by decide⟩

/-- The reset state with other parameters, a text and host actions waiting. -/
def waitingState (p : Params) (t : List Nat) (h : List HostEvent) : State :=
  { textState t with cfg := p, host := h }

/-- Such a state meets the invariant. -/
theorem waitingState_inv (p : Params) (t : List Nat) (h : List HostEvent)
    (hw : Memory.wf (Buffer.holding (sy t)).cells = true) (hs : 1 ≤ p.symw)
    (hf : ∀ e ∈ (Buffer.holding (sy t)).cells, e.2 < 2 ^ p.symw)
    (hl : withinCap p.txiCap (Buffer.holding (sy t)).len = true) (ho : withinCap p.ctoCap 0 = true)
    (hi : withinCap p.ctiCap 0 = true) (hx : withinCap p.txoCap 0 = true) :
    Inv (waitingState p t h) := by
  refine ⟨⟨hw, rfl, rfl, rfl⟩, hs, ⟨hf, fun e he => ?_⟩, ⟨hl, ho, hi, hx⟩,
    ⟨fun i => ?_, fun i => ?_⟩, ⟨(fun h => nomatch h), fun _ => ⟨rfl, fun _ => rfl⟩, (fun h => nomatch h)⟩,
    ⟨fun _ => rfl, fun _ => rfl⟩, (fun h => nomatch h)⟩
  · cases he
  all_goals simp [waitingState, textState, State.reset, Buffer.empty, Memory.read]

/-- The invariant of such a state with the text `a`, at the defaults and with small buffers. -/
theorem waitingA_inv (h : List HostEvent) : Inv (waitingState Params.default [97] h) :=
  waitingState_inv _ _ _ (by decide) (by decide) (by decide) rfl rfl rfl rfl

theorem waitingSmall_inv (h : List HostEvent) :
    Inv (waitingState { smallParams with idxw := 32 } [97] h) :=
  waitingState_inv _ _ _ (by decide) (by decide) (by decide) (by decide) rfl rfl rfl

/-- A state with the invariant in which a command starts, one in which it runs as one step, and one in
which the largest symbol is written. -/
theorem witness_StepKeepsTheInvariant :
    (Inv (waitingState Params.default [97] [.start 0#1]) ∧
      ends (step (waitingState Params.default [97] [.start 0#1])) (fun t => t.status.busy) = true) ∧
    (Inv (waitingState Params.default [97] [.command 0#1]) ∧
      ends (step (waitingState Params.default [97] [.command 0#1])) (fun t => t.status.done) = true) ∧
    Inv (waitingState Params.default [97] [.access (.writeTxi 0 65535)]) ∧
      ends (step (waitingState Params.default [97] [.access (.writeTxi 0 65535)]))
        (fun t => t.txi.cells == [(0, 65535)]) = true :=
  ⟨⟨waitingA_inv _, by decide +kernel⟩, ⟨waitingA_inv _, by decide +kernel⟩, waitingA_inv _,
    by decide +kernel⟩

/-- One state with the invariant for each outcome. -/
theorem witness_StepStopsOnlyAtAccessesAndCapacities :
    let s := waitingState { smallParams with idxw := 32 } [97]
    (Inv (s []) ∧ ends (step (s [])) (fun _ => true) = true) ∧
    (Inv (s [.access (.readTxi 2)]) ∧
      refusalOf (step (s [.access (.readTxi 2)])) = some (.noSuchElement .txi 2)) ∧
    (Inv (s [.access (.writeTxi 1 256)]) ∧
      refusalOf (step (s [.access (.writeTxi 1 256)])) = some (.symbolAboveWidth 256)) ∧
    (Inv (s [.access (.writeCtiLen 3)]) ∧
      refusalOf (step (s [.access (.writeCtiLen 3)])) = some (.inputLengthExceedsCapacity .cti)) ∧
    Inv (s [.command 0#1]) ∧
      refusalOf (step (s [.command 0#1])) = some (.outputExceedsCapacity .cto) :=
  ⟨⟨waitingSmall_inv _, by decide +kernel⟩, ⟨waitingSmall_inv _, by decide +kernel⟩,
    ⟨waitingSmall_inv _, by decide +kernel⟩, ⟨waitingSmall_inv _, by decide +kernel⟩,
    waitingSmall_inv _, by decide +kernel⟩

theorem witness_InvariantMakesTheTextsFit : Inv (waitingState Params.default [97] []) := waitingA_inv _

/-- The state whose text is `0, 1, …, n - 1`, with symbols and a code-index integer of 300 bits. -/
def rangeState (n : Nat) : State :=
  { State.reset.setTxi (Buffer.holding (List.range n)) with
    cfg := { Params.default with symw := 300, idxw := 300 } }

/-- That text is its own alphabet, and its width is the least with a code for every symbol. -/
theorem rangeState_facts (n : Nat) :
    (rangeState n).txi.len = n ∧ (alphabetOf (rangeState n).text).length = n ∧
      (∀ m, n ≤ 2 ^ m → 1 ≤ m → widthOf (rangeState n).text ≤ m) ∧
      (∀ m, 2 ^ m < n → m < widthOf (rangeState n).text) := by
  have ht : (rangeState n).text = List.range n := Buffer.contents_holding _ _
  have ha : (alphabetOf (List.range n)).length = n := by
    have hp : (alphabetOf (List.range n)).Perm (List.range n) :=
      (List.perm_ext_iff_of_nodup (alphabetOf_nodup _) List.nodup_range).mpr fun _ => mem_alphabetOf
    simpa using hp.length_eq
  rw [ht, widthOf, ha]
  refine ⟨by simp [rangeState], rfl, fun m h h1 => max_le h1 (clog2_le_of_le_two_pow h), fun m h => ?_⟩
  by_contra hm
  exact absurd ((le_two_pow_codeWidth n).trans
    (Nat.pow_le_pow_right (by decide) (Nat.not_lt.mp hm))) (Nat.not_le.mpr h)

/-- A chart is longer than its table. -/
theorem chartText_length_gt (table : List (Symbol × Bits)) : table.length < (chartText table).length := by
  have h : ∀ l : List (Symbol × Bits), l.length ≤ (entriesText l).length := by
    intro l
    induction l with
    | nil => exact Nat.le_refl _
    | cons e l ih =>
      cases l with
      | nil => simp [entriesText, entryText]
      | cons e' l =>
        rw [entriesText, List.length_append, List.length_append]
        simp only [List.length_cons, List.length_nil] at ih ⊢
        omega
  have := h table
  simp only [chartText, List.length_append, List.length_cons, List.length_nil]
  omega

/-- `2^255 + 1` symbols, whose width is 256; and `2^32` symbols, whose chart does not fit its size field. -/
theorem witness_CompressBeyondTheFieldsFails :
    (Idle (rangeState (2 ^ 255 + 1)) ∧ (rangeState (2 ^ 255 + 1)).txi.len ≠ 0 ∧
      widthOf (rangeState (2 ^ 255 + 1)).text < (rangeState (2 ^ 255 + 1)).cfg.idxw ∧
      255 < widthOf (rangeState (2 ^ 255 + 1)).text) ∧
    Idle (rangeState (2 ^ 32)) ∧ (rangeState (2 ^ 32)).txi.len ≠ 0 ∧
      widthOf (rangeState (2 ^ 32)).text < (rangeState (2 ^ 32)).cfg.idxw ∧
      widthOf (rangeState (2 ^ 32)).text ≤ 255 ∧
      2 ^ 32 - 1 < (chartOf (rangeState (2 ^ 32)).text).length := by
  have hc : ∀ n, (rangeState n).cfg.idxw = 300 := fun _ => rfl
  have hi : ∀ n, Idle (rangeState n) := fun _ => rfl
  rw [hc, hc]
  refine ⟨⟨hi _, ?_, ?_, (rangeState_facts _).2.2.2 _ (Nat.lt_succ_self _)⟩, hi _, ?_, ?_, ?_, ?_⟩
  · rw [(rangeState_facts _).1]; exact Nat.succ_ne_zero _
  · exact Nat.lt_of_le_of_lt ((rangeState_facts _).2.2.1 256 (by norm_num) (by decide)) (by decide)
  · rw [(rangeState_facts _).1]; norm_num
  · exact Nat.lt_of_le_of_lt ((rangeState_facts _).2.2.1 32 (Nat.le_refl _) (by decide)) (by decide)
  · exact Nat.le_trans ((rangeState_facts _).2.2.1 32 (Nat.le_refl _) (by decide)) (by decide)
  · have h := chartText_length_gt (tableOf (rangeState (2 ^ 32)).text)
    have hl : (tableOf (rangeState (2 ^ 32)).text).length = 2 ^ 32 := by
      rw [tableOf, assignCodes_length]; exact (rangeState_facts _).2.1
    rw [hl] at h
    exact Nat.lt_of_le_of_lt (Nat.sub_le _ _) h

theorem witness_OutputWritesAreIgnored :
    elementExists smallState.cfg .cto 1 = true ∧ elementExists smallState.cfg .txo 1 = true ∧
      255 < 2 ^ smallState.cfg.symw := by decide

end Sys2Proof.Tests
end

section
/-! PROOF. Where a host access completes, and by which name it is refused elsewhere. -/

namespace Sys2Proof.Machine

variable {s : State} {o : Outcome}

/-- The outcome is one of the three refusals of a host access (log 7). -/
def RefusedAsAccess (o : Outcome) : Prop :=
  (∃ b i, o = .refused (.noSuchElement b i)) ∨ (∃ v, o = .refused (.symbolAboveWidth v)) ∨
    ∃ b, o = .refused (.inputLengthExceedsCapacity b)

/-- The outcome is a next state where the check `ok` passes, and an access's refusal where it fails. -/
def CompletesExactlyIf (ok : Bool) (o : Outcome) : Prop :=
  (ok = true → ∃ t, o = .next t) ∧ (ok = false → RefusedAsAccess o)

theorem completesExactlyIf_true (h : ∃ t, o = .next t) : CompletesExactlyIf true o :=
  ⟨fun _ => h, nofun⟩

/-- A check in front of an outcome: both must pass, and a failing one refuses. -/
theorem CompletesExactlyIf.guard {c ok : Bool} {r : Refusal} (h : CompletesExactlyIf ok o)
    (hr : RefusedAsAccess (.refused r)) :
    CompletesExactlyIf (c && ok) (if c then o else .refused r) := by
  cases c with
  | false => exact ⟨nofun, fun _ => hr⟩
  | true => exact h

theorem CompletesExactlyIf.onElement {ok : Bool} (h : CompletesExactlyIf ok o) (b : BufName) (i : Nat) :
    CompletesExactlyIf (elementExists s.cfg b i && ok) (onElement s b i o) :=
  h.guard (.inl ⟨b, i, rfl⟩)

/-- Where the outcome behind a check is a next state, the check decides alone. -/
theorem completesExactlyIf_guard {c : Bool} {r : Refusal} (h : ∃ t, o = .next t)
    (hr : RefusedAsAccess (.refused r)) : CompletesExactlyIf c (if c then o else .refused r) := by
  simpa using (completesExactlyIf_true h).guard (c := c) hr

theorem completesExactlyIf_onElement (h : ∃ t, o = .next t) (b : BufName) (i : Nat) :
    CompletesExactlyIf (elementExists s.cfg b i) (onElement s b i o) :=
  completesExactlyIf_guard h (.inl ⟨b, i, rfl⟩)

theorem completesExactlyIf_onSymbol (h : ∃ t, o = .next t) (v : Symbol) :
    CompletesExactlyIf (symbolFits s.cfg v) (onSymbol s v o) :=
  completesExactlyIf_guard h (.inr (.inl ⟨v, rfl⟩))

theorem completesExactlyIf_onLength (h : ∃ t, o = .next t) (b : BufName) (n : Nat) :
    CompletesExactlyIf (withinCap (capOf s.cfg b) n) (onLength s b n o) :=
  completesExactlyIf_guard h (.inr (.inr ⟨b, rfl⟩))

theorem whenIdle_next (s : State) (write : State → State) : ∃ t, whenIdle s write = .next t :=
  ⟨_, rfl⟩

theorem hostRead_next (s : State) (current : Bool) (now : ReadValue) (free : Nat → ReadValue) :
    ∃ t, hostRead s current now free = .next t := by
  cases current with
  | false => exact ⟨_, rfl⟩
  | true => exact ⟨_, rfl⟩

/-- A well-formed access completes and every other is refused as an access (rules R11, R25, R42, R58). -/
theorem performAccess_completesExactlyIf_wellFormed (a : Access) (s : State) :
    CompletesExactlyIf (a.wellFormed s.cfg) (performAccess a s) := by
  cases a with
  | writeTxi i v => exact (completesExactlyIf_onSymbol (whenIdle_next s _) v).onElement .txi i
  | writeTxiLen n => exact completesExactlyIf_onLength (whenIdle_next s _) .txi n
  | writeCti i b => exact completesExactlyIf_onElement (whenIdle_next s _) .cti i
  | writeCtiLen n => exact completesExactlyIf_onLength (whenIdle_next s _) .cti n
  | writeCto i b => exact completesExactlyIf_onElement ⟨s, rfl⟩ .cto i
  | writeTxo i v => exact (completesExactlyIf_onSymbol ⟨s, rfl⟩ v).onElement .txo i
  | writeStatus | writeCtoLen | writeTxoLen | readCmd => exact completesExactlyIf_true ⟨_, rfl⟩
  | readStatus | readTxiLen | readCtoLen | readCtiLen | readTxoLen =>
    refine completesExactlyIf_true ?_
    dsimp only [performAccess]
    exact hostRead_next s _ _ _
  | readTxi i => exact completesExactlyIf_onElement (hostRead_next s _ _ _) .txi i
  | readCto i => exact completesExactlyIf_onElement (hostRead_next s _ _ _) .cto i
  | readCti i => exact completesExactlyIf_onElement (hostRead_next s _ _ _) .cti i
  | readTxo i => exact completesExactlyIf_onElement (hostRead_next s _ _ _) .txo i

/-- Settles O13: each access is a chain of checks, and `Access.wellFormed` is their conjunction. -/
theorem accessesCompleteExactlyWhereTheyExist : Obligations.AccessesCompleteExactlyWhereTheyExist :=
  fun s a => performAccess_completesExactlyIf_wellFormed a s

end Sys2Proof.Machine
end

section
/-! PROOF. The layout of `STATUS`, the state after reset, and what each host access answers, idle and busy
(rules R16, R25, R41). -/

namespace Sys2Proof.Machine

variable {α : Type} {s : State}

/-! ### The layout of `STATUS` -/

/-- The number of two fields side by side. -/
theorem toNat_append_eq_add {m n : Nat} (x : BitVec m) (y : BitVec n) :
    (x ++ y).toNat = x.toNat * 2 ^ n + y.toNat := by
  rw [BitVec.toNat_append, ← Nat.shiftLeft_add_eq_or_of_lt y.isLt, Nat.shiftLeft_eq]

/-- The status word as a number, its fields weighted by their place (rule R16). -/
theorem Status.word_toNat (st : Status) :
    st.word.toNat = (errCode st.errcode).toNat * 256 + st.phase.code.toNat * 8 + st.err.toNat * 4 +
      st.done.toNat * 2 + st.busy.toNat := by
  simp only [Status.word, toNat_append_eq_add, BitVec.toNat_ofBool, BitVec.toNat_ofNat]
  omega

/-- A bit, from the value of the word. -/
theorem getLsbD_eq_of_toNat {w i : Nat} {x : BitVec w} {b : Bool} (h : x.toNat / 2 ^ i % 2 = b.toNat) :
    x.getLsbD i = b := by
  rw [BitVec.getLsbD, Nat.testBit_eq_decide_div_mod_eq, h]
  cases b <;> rfl

/-- A field, from the value of the word. -/
theorem extractLsb'_eq_of_toNat {w start n : Nat} {x : BitVec w} {y : BitVec n}
    (h : x.toNat / 2 ^ start % 2 ^ n = y.toNat) : x.extractLsb' start n = y := by
  apply BitVec.eq_of_toNat_eq
  rw [BitVec.extractLsb'_toNat, Nat.shiftRight_eq_div_pow, h]

/-- Settles O4: each field is read off the word's value, the lower fields being below its weight. -/
theorem statusWordLaysOutItsFields : Obligations.StatusWordLaysOutItsFields := by
  refine ⟨fun st => ?_, rfl, fun _ _ => rfl⟩
  have hw := st.word_toNat
  have hc := (errCode st.errcode).isLt
  have hp := st.phase.code.isLt
  have he := Bool.toNat_lt st.err
  have hd := Bool.toNat_lt st.done
  have hb := Bool.toNat_lt st.busy
  refine ⟨getLsbD_eq_of_toNat ?_, getLsbD_eq_of_toNat ?_, getLsbD_eq_of_toNat ?_,
    extractLsb'_eq_of_toNat ?_, extractLsb'_eq_of_toNat ?_, extractLsb'_eq_of_toNat ?_⟩ <;> rw [hw]
  case refine_5 => rw [BitVec.toNat_ofNat]; omega
  all_goals omega

/-- A `STATUS` read while busy has `BUSY` at 1 and the reserved bits at 0 (rules R16 and R25). -/
theorem busyStatusWord_fields (free : BitVec 16) :
    (busyStatusWord free).getLsbD 0 = true ∧ (busyStatusWord free).extractLsb' 6 2 = 0#2 := by
  constructor
  · simp [busyStatusWord]
  · ext i hi
    interval_cases i <;> simp [busyStatusWord]

/-- Settles O14: the values the definition of the reset state gives the fields. -/
theorem resetStateHoldsTheSpecifiedValues : Obligations.ResetStateHoldsTheSpecifiedValues :=
  ⟨rfl, rfl, rfl, rfl, rfl, rfl, rfl, rfl, rfl, rfl, rfl, rfl⟩

/-! ### Elements of a buffer -/

theorem Buffer.elem_write_same (b : Buffer α) (u : Nat → α) (i : Nat) (v : α) :
    Buffer.elem { b with cells := Memory.write b.cells i v } u i = v := by
  simp [Buffer.elem]

theorem Buffer.elem_write_other (b : Buffer α) (u : Nat → α) {i j : Nat} (v : α) (h : j ≠ i) :
    Buffer.elem { b with cells := Memory.write b.cells i v } u j = b.elem u j := by
  simp [Buffer.elem, Memory.read_write_other _ v h]

/-! ### The checks and the two forms of an access -/

theorem onElement_exists {b : BufName} {i : Nat} (h : elementExists s.cfg b i = true) (o : Outcome) :
    onElement s b i o = o := if_pos h

theorem onSymbol_fits {v : Symbol} (h : v < 2 ^ s.cfg.symw) (o : Outcome) : onSymbol s v o = o :=
  if_pos (decide_eq_true h)

theorem onLength_within {b : BufName} {n : Nat} (h : withinCap (capOf s.cfg b) n = true) (o : Outcome) :
    onLength s b n o = o := if_pos h

theorem whenIdle_idle (h : Idle s) (write : State → State) : whenIdle s write = .next (write s) := by
  rw [whenIdle, h]; rfl

theorem whenIdle_busy (h : s.status.busy = true) (write : State → State) :
    whenIdle s write = .next s := by
  rw [whenIdle, h]; rfl

theorem hostRead_current {current : Bool} (h : current = true) (now : ReadValue)
    (free : Nat → ReadValue) : hostRead s current now free = .next (s.setRead now) := if_pos h

theorem hostRead_open {current : Bool} (h : current = false) (now : ReadValue)
    (free : Nat → ReadValue) :
    hostRead s current now free = .next ((s.setRead (free s.freeCount)).nextFree) := by
  rw [hostRead, h]; rfl

section ElementReads
variable {b : BufName} {i n : Nat} (he : elementExists s.cfg b i = true) (now : ReadValue)
  (free : Nat → ReadValue)
include he

/-- An element read while idle and below the length gives the current value, … -/
theorem elementRead_current (h : Idle s) (hi : i < n) :
    onElement s b i (hostRead s (!s.status.busy && decide (i < n)) now free) = .next (s.setRead now) := by
  have hc : (!s.status.busy && decide (i < n)) = true := by rw [h, decide_eq_true hi]; rfl
  rw [onElement_exists he, hostRead_current hc]

/-- … and elsewhere the next free one. -/
theorem elementRead_open (h : s.status.busy = true ∨ n ≤ i) :
    onElement s b i (hostRead s (!s.status.busy && decide (i < n)) now free) =
      .next ((s.setRead (free s.freeCount)).nextFree) := by
  have hc : (!s.status.busy && decide (i < n)) = false := by
    obtain h | h := h
    · rw [h]; rfl
    · rw [decide_eq_false (Nat.not_lt.mpr h), Bool.and_false]
  rw [onElement_exists he, hostRead_open hc]

end ElementReads

/-! ### Writes -/

theorem performAccess_writeTxi {i : Nat} {v : Symbol} (he : elementExists s.cfg .txi i = true)
    (hv : v < 2 ^ s.cfg.symw) :
    performAccess (.writeTxi i v) s =
      whenIdle s fun t => t.setTxi { t.txi with cells := Memory.write t.txi.cells i v } := by
  rw [performAccess, onElement_exists he, onSymbol_fits hv]

theorem performAccess_writeCti {i : Nat} {b : Byte} (he : elementExists s.cfg .cti i = true) :
    performAccess (.writeCti i b) s =
      whenIdle s fun t => t.setCti { t.cti with cells := Memory.write t.cti.cells i b } := by
  rw [performAccess, onElement_exists he]

/-- Settles O11: the checks pass, and `BUSY` decides whether the write is performed. -/
theorem inputWritesArePerformedOnlyWhileIdle : Obligations.InputWritesArePerformedOnlyWhileIdle := by
  refine ⟨fun s i v he hv => ?_, fun s i b he => ?_, fun s n hn => ?_, fun s n hn => ?_⟩
  · rw [performAccess_writeTxi he hv]
    exact ⟨fun hi => ⟨_, whenIdle_idle hi _, Buffer.elem_write_same _ _ _ _,
      fun j hj => Buffer.elem_write_other _ _ _ hj, rfl, rfl⟩, fun hb => whenIdle_busy hb _⟩
  · rw [performAccess_writeCti he]
    exact ⟨fun hi => ⟨_, whenIdle_idle hi _, Buffer.elem_write_same _ _ _ _,
      fun j hj => Buffer.elem_write_other _ _ _ hj, rfl, rfl⟩, fun hb => whenIdle_busy hb _⟩
  · rw [performAccess, onLength_within (b := .txi) hn]
    exact ⟨fun hi => whenIdle_idle hi _, fun hb => whenIdle_busy hb _⟩
  · rw [performAccess, onLength_within (b := .cti) hn]
    exact ⟨fun hi => whenIdle_idle hi _, fun hb => whenIdle_busy hb _⟩

/-- Settles O60: behind its checks a write of an output buffer answers the state as it was. -/
theorem outputWritesAreIgnored : Obligations.OutputWritesAreIgnored := fun s =>
  ⟨fun _ _ he => onElement_exists he (.next s), fun _ => rfl,
    fun _ _ he hv => (onElement_exists he _).trans (onSymbol_fits hv (.next s)), fun _ => rfl⟩

/-! ### Reads -/

/-- Settles O12: `BUSY` decides what a register read gives, `BUSY` and the length what an element's does. -/
theorem hostReadsReturnTheCurrentValueWhileIdle :
    Obligations.HostReadsReturnTheCurrentValueWhileIdle := by
  refine ⟨fun s hi => ?registers, fun s i hi => ?elements, fun _ => rfl, fun s hb => ?status,
    fun s hb => ?lengths, fun s i => ?openElements⟩
  case registers =>
    have hc : (!s.status.busy) = true := by rw [hi]; rfl
    dsimp only [performAccess]
    exact ⟨hostRead_current hc _ _, hostRead_current hc _ _, hostRead_current hc _ _,
      hostRead_current hc _ _, hostRead_current hc _ _⟩
  case elements =>
    exact ⟨fun he hl => elementRead_current he _ _ hi hl, fun he hl => elementRead_current he _ _ hi hl,
      fun he hl => elementRead_current he _ _ hi hl, fun he hl => elementRead_current he _ _ hi hl⟩
  case status =>
    have hc : (!s.status.busy) = false := by rw [hb]; rfl
    dsimp only [performAccess]
    exact ⟨_, hostRead_open hc _ _, busyStatusWord_fields _⟩
  case lengths =>
    have hc : (!s.status.busy) = false := by rw [hb]; rfl
    dsimp only [performAccess]
    exact ⟨⟨_, hostRead_open hc _ _⟩, ⟨_, hostRead_open hc _ _⟩, ⟨_, hostRead_open hc _ _⟩,
      ⟨_, hostRead_open hc _ _⟩⟩
  case openElements =>
    exact ⟨fun he h => ⟨_, BitVec.isLt _, elementRead_open he _ _ h⟩,
      fun he h => ⟨_, elementRead_open he _ _ h⟩, fun he h => ⟨_, elementRead_open he _ _ h⟩,
      fun he h => ⟨_, BitVec.isLt _, elementRead_open he _ _ h⟩⟩

end Sys2Proof.Machine
end

section
/-! PROOF. The values of `STATUS` while a command runs and after it has ended, stage by stage and for a whole
command (rules R18 to R20, R129, R130). -/

namespace Sys2Proof.Machine

variable {s t : State} {p q : Phase} {e : CodecError} {f g : State → Outcome}

/-- The values of `STATUS` after a command has ended, `done` or by an error a stage raises (rules R129 and
R130). -/
def Status.Ended (st : Status) : Prop :=
  st = { busy := false, done := true, err := false, phase := .idle, errcode := none } ∨
    ∃ e p, CodecError.raisedBy e p = true ∧ st = (Status.started p).failed e

theorem setPhase_started (hs : s.status = Status.started p) (q : Phase) :
    (setPhase q s).status = Status.started q := by
  rw [setPhase_status, hs]; rfl

theorem raiseError_started (hs : s.status = Status.started p) (e : CodecError) :
    (raiseError e s).status = (Status.started p).failed e := by
  rw [raiseError_status, hs]

theorem Status.ended_finished (hs : s.status = Status.started p) : s.status.finished.Ended :=
  .inl (by rw [hs]; rfl)

theorem Status.ended_raiseError (hs : s.status = Status.started p) (he : e.raisedBy p = true) :
    (raiseError e s).status.Ended :=
  .inr ⟨e, p, he, raiseError_started hs e⟩

theorem Status.Ended.busy {st : Status} (h : st.Ended) : st.busy = false := by
  obtain rfl | ⟨e, p, -, rfl⟩ := h <;> rfl

/-- PARSE's errors are those the table of rule R153 gives it. -/
theorem parseStage_raisedBy {symw : Nat} {c : List Byte} {d : DecStores}
    (h : (parseStage symw c d).raised = some e) : e.raisedBy .parse = true := by
  obtain rfl | rfl | rfl | rfl := (parseStage_spec symw c d).1 e h <;> rfl

/-! ### What a completed or failed stage leaves in `STATUS` -/

theorem execExtract_status (hs : s.status = Status.started .extract) (h : execExtract s = .next t) :
    t.status = Status.started .build ∨ t.status.Ended := by
  obtain ⟨-, rfl⟩ | ⟨-, rfl⟩ := execExtract_next h
  · exact .inl (setPhase_started hs _)
  · exact .inr (Status.ended_raiseError hs rfl)

theorem execBuild_status (hs : s.status = Status.started .build) (h : execBuild s = .next t) :
    t.status = Status.started .encode ∨ t.status.Ended := by
  obtain ⟨-, rfl⟩ | ⟨-, -, rfl⟩ | ⟨-, -, rfl⟩ := execBuild_next h
  · exact .inr (Status.ended_raiseError hs rfl)
  · exact .inr (Status.ended_raiseError hs rfl)
  · exact .inl (setPhase_started hs _)

theorem execEncode_status (hs : s.status = Status.started .encode) (h : execEncode s = .next t) :
    t.status = Status.started .pack ∨ t.status.Ended := by
  obtain ⟨-, rfl⟩ | ⟨-, rfl⟩ := execEncode_next h
  · exact .inl (setPhase_started hs _)
  · exact .inr (Status.ended_raiseError hs rfl)

theorem execPack_status (hs : s.status = Status.started .pack) (h : execPack s = .next t) :
    t.status = Status.started .serialize := by
  cases h
  exact setPhase_started hs _

theorem execSerialize_status (hs : s.status = Status.started .serialize)
    (h : execSerialize s = .next t) : t.status.Ended := by
  obtain ⟨-, rfl⟩ | ⟨-, -, rfl⟩ | ⟨-, -, -, rfl⟩ := execSerialize_next h
  · exact Status.ended_raiseError hs rfl
  · exact Status.ended_raiseError hs rfl
  · exact Status.ended_finished hs

theorem execParse_status (hs : s.status = Status.started .parse) (h : execParse s = .next t) :
    t.status = Status.started .unpack ∨ t.status.Ended := by
  obtain ⟨-, rfl⟩ | ⟨e, he, rfl⟩ := execParse_next h
  · exact .inl (setPhase_started hs _)
  · exact .inr (Status.ended_raiseError hs (parseStage_raisedBy he))

theorem execUnpack_status (hs : s.status = Status.started .unpack) (h : execUnpack s = .next t) :
    t.status.Ended := by
  obtain ⟨-, ⟨-, -, rfl⟩ | ⟨-, -, -, rfl⟩ | ⟨-, -, rfl⟩⟩ := execUnpack_next h
  · exact Status.ended_raiseError hs rfl
  · exact Status.ended_finished hs
  · exact Status.ended_raiseError hs rfl

/-! ### Chains of stages -/

/-- From a state with `P`, a next state of `f` has `Q`. -/
def Leads (P : State → Prop) (f : State → Outcome) (Q : State → Prop) : Prop :=
  ∀ s t, P s → f s = .next t → Q t

/-- The stage in phase `p` runs, with `I` true of the state. -/
def InStage (I : State → Prop) (p : Phase) (s : State) : Prop := s.status = Status.started p ∧ I s

/-- The command has ended, with `I` true of the state. -/
def AtEnd (I : State → Prop) (s : State) : Prop := s.status.Ended ∧ I s

/-- A stage and the rest of its command: the rest runs exactly where the stage went on (rules R132, R160). -/
theorem Leads.thenStage {I : State → Prop}
    (hf : Leads (InStage I p) f fun t => InStage I q t ∨ AtEnd I t)
    (hg : Leads (InStage I q) g (AtEnd I)) :
    Leads (InStage I p) (fun s => thenStage (f s) g) (AtEnd I) := by
  intro s t hs h
  obtain ⟨u, hu, ⟨hb, hg'⟩ | ⟨hb, rfl⟩⟩ := thenStage_next.mp h
  · obtain hq | he := hf s u hs hu
    · exact hg u t hq hg'
    · rw [he.1.busy] at hb; cases hb
  · obtain hq | he := hf s t hs hu
    · rw [hq.1] at hb; cases hb
    · exact he

/-- A predicate every stage of COMPRESS keeps while it runs. -/
structure KeptByCompress (I : State → Prop) : Prop where
  start : ∀ s, Idle s → I s → I (startCompress s)
  extract : Leads (InStage I .extract) execExtract I
  build : Leads (InStage I .build) execBuild I
  encode : Leads (InStage I .encode) execEncode I
  pack : Leads (InStage I .pack) execPack I
  serialize : Leads (InStage I .serialize) execSerialize I

/-- A predicate every stage of DECOMPRESS keeps while it runs. -/
structure KeptByDecompress (I : State → Prop) : Prop where
  start : ∀ s, Idle s → I s → I (startDecompress s)
  parse : Leads (InStage I .parse) execParse I
  unpack : Leads (InStage I .unpack) execUnpack I

/-- A whole COMPRESS ends, and keeps what its start and its stages keep. -/
theorem KeptByCompress.exec_compress {I : State → Prop} (k : KeptByCompress I) (hi : Idle s) (hI : I s)
    (h : exec .compress s = .next t) : AtEnd I t := by
  rw [exec_compress_eq hi] at h
  have pack : Leads (InStage I .pack) (fun s => thenStage (execPack s) execSerialize) (AtEnd I) :=
    .thenStage (fun s t hs h => .inl ⟨execPack_status hs.1 h, k.pack s t hs h⟩)
      fun s t hs h => ⟨execSerialize_status hs.1 h, k.serialize s t hs h⟩
  have encode := Leads.thenStage (fun s t hs h => (execEncode_status hs.1 h).imp
    (⟨·, k.encode s t hs h⟩) (⟨·, k.encode s t hs h⟩)) pack
  have build := Leads.thenStage (fun s t hs h => (execBuild_status hs.1 h).imp
    (⟨·, k.build s t hs h⟩) (⟨·, k.build s t hs h⟩)) encode
  have extract := Leads.thenStage (fun s t hs h => (execExtract_status hs.1 h).imp
    (⟨·, k.extract s t hs h⟩) (⟨·, k.extract s t hs h⟩)) build
  exact extract _ t ⟨rfl, k.start s hi hI⟩ h

/-- A whole DECOMPRESS ends, and keeps what its start and its stages keep. -/
theorem KeptByDecompress.exec_decompress {I : State → Prop} (k : KeptByDecompress I) (hi : Idle s)
    (hI : I s) (h : exec .decompress s = .next t) : AtEnd I t := by
  rw [exec_decompress_eq hi] at h
  have parse : Leads (InStage I .parse) (fun s => thenStage (execParse s) execUnpack) (AtEnd I) :=
    .thenStage (fun s t hs h => (execParse_status hs.1 h).imp
      (⟨·, k.parse s t hs h⟩) (⟨·, k.parse s t hs h⟩))
      fun s t hs h => ⟨execUnpack_status hs.1 h, k.unpack s t hs h⟩
  exact parse _ t ⟨rfl, k.start s hi hI⟩ h

/-- The one-bit mode has no third command (rule R59). -/
theorem decodeCmd_eq (mode : BitVec 1) :
    decodeCmd mode = .compress ∨ decodeCmd mode = .decompress := by
  unfold decodeCmd
  split
  · exact .inl rfl
  · exact .inr rfl

/-- A command started in an idle state ends, and keeps what every stage keeps. -/
theorem execCommand_atEnd {I : State → Prop} (kc : KeptByCompress I) (kd : KeptByDecompress I)
    {mode : BitVec 1} (hi : Idle s) (hI : I s) (h : execCommand mode s = .next t) : AtEnd I t := by
  rw [execCommand] at h
  obtain hm | hm := decodeCmd_eq mode <;> rw [hm] at h
  · exact kc.exec_compress hi hI h
  · exact kd.exec_decompress hi hI h

/-- A command started in an idle state leaves one of the end values in `STATUS`. -/
theorem execCommand_status {mode : BitVec 1} (hi : Idle s) (h : execCommand mode s = .next t) :
    t.status.Ended :=
  have trivially {P : State → Prop} {f : State → Outcome} : Leads P f fun _ => True :=
    fun _ _ _ _ => trivial
  (execCommand_atEnd (I := fun _ => True)
    ⟨fun _ _ _ => trivial, trivially, trivially, trivially, trivially, trivially⟩
    ⟨fun _ _ _ => trivial, trivially, trivially⟩ hi trivial h).1

/-- Settles O41: the end values have exactly one flag, and the word is the sum of their fields. -/
theorem commandEndsWithExactlyOneFlag : Obligations.CommandEndsWithExactlyOneFlag := by
  intro s t mode hi h
  have hend := execCommand_status hi h
  refine ⟨hend.busy, ?_⟩
  obtain hd | ⟨e, p, he, hf⟩ := hend
  · rw [hd]
    exact .inl ⟨rfl, rfl, rfl, rfl, rfl⟩
  · rw [hf]
    exact .inr ⟨rfl, rfl, e, rfl, he, by rw [Status.word_toNat]; simp [errCode]⟩

end Sys2Proof.Machine
end

section
/-! PROOF. The invariant: what it says of the buffers and of the control state, one rule per form a state
takes, each stage and each host access, and the step (rules R127 to R132, R162). -/

namespace Sys2Proof.Machine

variable {α : Type} {s t : State} {p q : Phase} {e : CodecError}

/-! ### Buffers -/

theorem Memory.mem_of_read {m : Memory α} {i : Nat} {v : α} (h : Memory.read m i = some v) :
    (i, v) ∈ m := by
  induction m with
  | nil => cases h
  | cons b m ih =>
    obtain ⟨a, x⟩ := b
    rw [Memory.read] at h
    split at h
    · rename_i ha
      rw [ha, Option.some.inj h]
      exact List.mem_cons_self
    · exact List.mem_cons_of_mem _ (ih h)

theorem Memory.snd_mem_of_mem_ofList {n : Nat} {v : List α} {c : Nat × α}
    (h : c ∈ Memory.ofList n v) : c.2 ∈ v := by
  induction v generalizing n with
  | nil => cases h
  | cons x v ih =>
    obtain rfl | h := List.mem_cons.mp h
    · exact List.mem_cons_self
    · exact List.mem_cons_of_mem _ (ih h)

/-- A buffer in canonical form, its length within `cap`, every written element meeting `fits`. -/
structure BufferOk (cap : Option Nat) (fits : α → Prop) (b : Buffer α) : Prop where
  canonical : Memory.wf b.cells = true
  fits : ∀ c ∈ b.cells, fits c.2
  length : withinCap cap b.len = true

section Buffers
variable {cap : Option Nat} {fits : α → Prop} {b : Buffer α}

theorem bufferOk_empty : BufferOk cap fits (Buffer.empty α) := ⟨rfl, nofun, withinCap_zero cap⟩

theorem bufferOk_holding {v : List α} (hv : ∀ x ∈ v, fits x) (hl : withinCap cap v.length = true) :
    BufferOk cap fits (Buffer.holding v) :=
  ⟨Memory.wf_ofList 0 v, fun _ hc => hv _ (Memory.snd_mem_of_mem_ofList hc), hl⟩

theorem BufferOk.write (h : BufferOk cap fits b) (i : Nat) {v : α} (hv : fits v) :
    BufferOk cap fits { b with cells := Memory.write b.cells i v } := by
  refine ⟨Memory.wf_write h.canonical i v, fun c hc => ?_, h.length⟩
  obtain rfl | hc := Memory.mem_write hc
  · exact hv
  · exact h.fits c hc

theorem BufferOk.setLen (h : BufferOk cap fits b) {n : Nat} (hn : withinCap cap n = true) :
    BufferOk cap fits { b with len := n } :=
  ⟨h.canonical, h.fits, hn⟩

/-- Where the written and the unwritten elements meet a condition, the contents do. -/
theorem BufferOk.contents (h : BufferOk cap fits b) {unwritten : Nat → α}
    (hu : ∀ i, fits (unwritten i)) : ∀ x ∈ b.contents unwritten, fits x := by
  intro x hx
  obtain ⟨i, -, rfl⟩ := List.mem_map.mp hx
  rw [Buffer.elem]
  cases hr : Memory.read b.cells i with
  | none => exact hu i
  | some v => exact h.fits _ (Memory.mem_of_read hr)

theorem filled_empty : (Buffer.empty α).filled := fun i => by simp [Memory.read]

theorem filled_holding (v : List α) : (Buffer.holding v).filled := fun i => by
  simp [Memory.read_ofList]

end Buffers

/-- What the invariant says of the parameters and the four buffers. -/
structure BuffersOk (s : State) : Prop where
  symw : 1 ≤ s.cfg.symw
  txi : BufferOk s.cfg.txiCap (· < 2 ^ s.cfg.symw) s.txi
  cti : BufferOk s.cfg.ctiCap (fun _ => True) s.cti
  cto : BufferOk s.cfg.ctoCap (fun _ => True) s.cto ∧ s.cto.filled
  txo : BufferOk s.cfg.txoCap (· < 2 ^ s.cfg.symw) s.txo ∧ s.txo.filled

/-- What the invariant says of `STATUS`, the output lengths and the stores. -/
structure ControlOk (s : State) : Prop where
  status : s.status.legal
  noPartial : (s.status.phase.ofCompress = true → s.cto.len = 0) ∧
    (s.status.phase.ofDecompress = true → s.txo.len = 0)
  stores : s.status.busy = true →
    s.enc.ready s.text s.cfg.idxw s.status.phase ∧ s.dec.ready s.cfg.symw s.status.phase

/-- The invariant is its two halves. -/
theorem inv_iff : Inv s ↔ BuffersOk s ∧ ControlOk s := by
  constructor
  · rintro ⟨⟨hi, hco, hci, hxo⟩, hw, ⟨hsi, hso⟩, ⟨hli, hlco, hlci, hlo⟩, ⟨hfc, hfx⟩, hst, hnp, hstores⟩
    exact ⟨⟨hw, ⟨hi, hsi, hli⟩, ⟨hci, fun _ _ => trivial, hlci⟩, ⟨⟨hco, fun _ _ => trivial, hlco⟩, hfc⟩,
      ⟨⟨hxo, hso, hlo⟩, hfx⟩⟩, hst, hnp, hstores⟩
  · rintro ⟨⟨hw, ⟨hi, hsi, hli⟩, ⟨hci, -, hlci⟩, ⟨⟨hco, -, hlco⟩, hfc⟩, ⟨⟨hxo, hso, hlo⟩, hfx⟩⟩, hst, hnp,
      hstores⟩
    exact ⟨⟨hi, hco, hci, hxo⟩, hw, ⟨hsi, hso⟩, ⟨hli, hlco, hlci, hlo⟩, ⟨hfc, hfx⟩, hst, hnp, hstores⟩

theorem Inv.buffers (h : Inv s) : BuffersOk s := (inv_iff.mp h).1

/-- Settles O58: written symbols fit by the invariant, unwritten ones are `SYMW` bits wide. -/
theorem invariantMakesTheTextsFit : Obligations.InvariantMakesTheTextsFit := fun _ h =>
  ⟨⟨h.width, h.buffers.txi.contents fun _ => BitVec.isLt _⟩,
    ⟨h.width, h.buffers.txo.1.contents fun _ => BitVec.isLt _⟩⟩

/-! ### The forms a state takes: running, failed, finished, just reset -/

theorem Status.legal_started (hp : p ≠ .idle) : (Status.started p).legal :=
  ⟨fun _ => ⟨rfl, rfl, hp⟩, fun _ => ⟨rfl, nofun⟩, nofun⟩

/-- While a command runs, `STATUS` is what its start made it but for `PHASE`. -/
theorem Status.legal.eq_started {st : Status} (h : st.legal) (hb : st.busy = true) :
    st = Status.started st.phase := by
  obtain ⟨hbusy, hok, -⟩ := h
  obtain ⟨hd, he, -⟩ := hbusy hb
  obtain ⟨hc, -⟩ := hok he
  obtain ⟨busy, done, err, phase, errcode⟩ := st
  simp only at hb hd he hc
  subst hb hd he hc
  rfl

theorem Status.Ended.legal {st : Status} (h : st.Ended) : st.legal := by
  obtain rfl | ⟨e, p, he, rfl⟩ := h
  · exact ⟨nofun, fun _ => ⟨rfl, fun _ => rfl⟩, nofun⟩
  · exact ⟨nofun, nofun, fun _ => ⟨rfl, e, rfl, he⟩⟩

/-- A stage of COMPRESS asks nothing of group X. -/
theorem DecStores.ready_of_ofCompress (hp : p.ofCompress = true) (symw : Nat) (d : DecStores) :
    d.ready symw p := by
  cases p with
  | parse | unpack | idle => cases hp
  | extract | build | encode | pack | serialize => exact trivial

/-- A stage of DECOMPRESS asks nothing of group C. -/
theorem EncStores.ready_of_ofDecompress (hp : p.ofDecompress = true) (text : List Symbol) (idxw : Nat)
    (x : EncStores) : x.ready text idxw p := by
  cases p with
  | parse | unpack => exact trivial
  | idle | extract | build | encode | pack | serialize => cases hp

theorem Phase.ofDecompress_of_ofCompress (hp : p.ofCompress = true) : p.ofDecompress = false := by
  cases p with
  | idle | parse | unpack => cases hp
  | extract | build | encode | pack | serialize => rfl

theorem Phase.ne_idle_of_ofCompress (hp : p.ofCompress = true) : p ≠ .idle := by
  rintro rfl; cases hp

theorem Phase.ne_idle_of_ofDecompress (hp : p.ofDecompress = true) : p ≠ .idle := by
  rintro rfl; cases hp

/-- A stage of COMPRESS is running. -/
theorem inv_of_compressing (hb : BuffersOk t) (hs : t.status = Status.started p)
    (hp : p.ofCompress = true) (h0 : t.cto.len = 0) (hx : t.enc.ready t.text t.cfg.idxw p) : Inv t := by
  refine inv_iff.mpr ⟨hb, ?_, ⟨fun _ => h0, ?_⟩, fun _ => ?_⟩ <;> rw [hs]
  · exact Status.legal_started (Phase.ne_idle_of_ofCompress hp)
  · intro hd
    rw [Status.started_phase, Phase.ofDecompress_of_ofCompress hp] at hd
    cases hd
  · exact ⟨hx, DecStores.ready_of_ofCompress hp _ _⟩

/-- A stage of DECOMPRESS is running. -/
theorem inv_of_decompressing (hb : BuffersOk t) (hs : t.status = Status.started p)
    (hp : p.ofDecompress = true) (h0 : t.txo.len = 0) (hd : t.dec.ready t.cfg.symw p) : Inv t := by
  refine inv_iff.mpr ⟨hb, ?_, ⟨?_, fun _ => h0⟩, fun _ => ?_⟩ <;> rw [hs]
  · exact Status.legal_started (Phase.ne_idle_of_ofDecompress hp)
  · intro hc
    rw [Status.started_phase] at hc
    rw [Phase.ofDecompress_of_ofCompress hc] at hp
    cases hp
  · exact ⟨EncStores.ready_of_ofDecompress hp _ _ _, hd⟩

/-- A stage has just ended its command with an error it raises; group C or group X may have changed. -/
theorem Inv.raiseError (h : Inv s) (hs : s.status = Status.started p) (he : e.raisedBy p = true)
    (x : EncStores) (d : DecStores) : Inv (Machine.raiseError e ((s.setEnc x).setDec d)) := by
  have hst : (Machine.raiseError e ((s.setEnc x).setDec d)).status = (Status.started p).failed e :=
    raiseError_started hs e
  refine inv_iff.mpr ⟨{ h.buffers with }, ?_, ?_, ?_⟩ <;> rw [hst]
  · exact Status.Ended.legal (.inr ⟨e, p, he, rfl⟩)
  · have hn := h.noPartial
    rw [hs] at hn
    exact hn
  · exact nofun

theorem Inv.raiseError_setEnc (h : Inv s) (hs : s.status = Status.started p)
    (he : e.raisedBy p = true) (x : EncStores) : Inv (Machine.raiseError e (s.setEnc x)) :=
  h.raiseError hs he x s.dec

theorem Inv.raiseError_setDec (h : Inv s) (hs : s.status = Status.started p)
    (he : e.raisedBy p = true) (d : DecStores) : Inv (Machine.raiseError e (s.setDec d)) :=
  h.raiseError hs he s.enc d

/-- A command has just ended `done`. -/
theorem inv_of_finished (hb : BuffersOk t) (hs : s.status = Status.started p)
    (ht : t.status = s.status.finished) : Inv t := by
  refine inv_iff.mpr ⟨hb, ?_, ?_, ?_⟩ <;> rw [ht]
  · exact (Status.ended_finished hs).legal
  · exact ⟨nofun, nofun⟩
  · exact nofun

/-- Every piece of the engine's state has its reset value; the parameters and the model's own fields have
any. -/
theorem inv_of_reset (cfg : Params) (host : List HostEvent) (hostPos : Nat) (readData : Option ReadValue)
    (epoch freeCount : Nat) (hw : 1 ≤ cfg.symw) :
    Inv { State.reset with cfg, host, hostPos, readData, epoch, freeCount } :=
  inv_iff.mpr ⟨⟨hw, bufferOk_empty, bufferOk_empty, ⟨bufferOk_empty, filled_empty⟩,
    ⟨bufferOk_empty, filled_empty⟩⟩,
    ⟨nofun, fun _ => ⟨rfl, fun _ => rfl⟩, nofun⟩, ⟨fun _ => rfl, fun _ => rfl⟩, nofun⟩

/-- Settles O55: `State.reset` is the reset state with the default parameters. -/
theorem invariantHoldsAtReset : Obligations.InvariantHoldsAtReset :=
  inv_of_reset Params.default [] 0 none 0 0 (by decide)

/-! ### The stages of COMPRESS -/

/-- While a command runs, group C holds what its completed stages wrote. -/
theorem Inv.encReady (h : Inv s) (hs : s.status = Status.started p) :
    s.enc.ready s.text s.cfg.idxw p := by
  have hr := (h.stores (by rw [hs]; rfl)).1
  rwa [hs] at hr

/-- While a command runs, group X holds what its completed stages wrote. -/
theorem Inv.decReady (h : Inv s) (hs : s.status = Status.started p) : s.dec.ready s.cfg.symw p := by
  have hr := (h.stores (by rw [hs]; rfl)).2
  rwa [hs] at hr

/-- A completed stage of COMPRESS hands over to the next one with its stores written. -/
theorem Inv.advanceCompress (h : Inv s) (hs : s.status = Status.started p) (hp : p.ofCompress = true)
    (hq : q.ofCompress = true) {x : EncStores} (hx : x.ready s.text s.cfg.idxw q) :
    Inv (setPhase q (s.setEnc x)) :=
  inv_of_compressing { h.buffers with } (setPhase_started hs q) hq (h.noPartial.1 (by rw [hs]; exact hp)) hx

theorem inv_startCompress (h : Inv s) : Inv (startCompress s) :=
  inv_of_compressing { h.buffers with cto := ⟨bufferOk_empty, filled_empty⟩ } rfl rfl rfl trivial

theorem inv_execExtract (h : Inv s) (hs : s.status = Status.started .extract)
    (hx : execExtract s = .next t) : Inv t := by
  obtain ⟨hl, rfl⟩ | ⟨-, rfl⟩ := execExtract_next hx
  · have htext : s.text ≠ [] := by rwa [← List.length_pos_iff, State.text_length, Nat.pos_iff_ne_zero]
    exact h.advanceCompress hs rfl rfl ⟨htext, rfl⟩
  · exact h.raiseError_setEnc hs rfl s.enc

theorem inv_execBuild (h : Inv s) (hs : s.status = Status.started .build)
    (hx : execBuild s = .next t) : Inv t := by
  obtain ⟨-, rfl⟩ | ⟨-, -, rfl⟩ | ⟨-, hw, rfl⟩ := execBuild_next hx
  · exact h.raiseError_setEnc hs rfl s.enc
  · exact h.raiseError_setEnc hs rfl s.enc
  · obtain ⟨htext, halpha⟩ := h.encReady hs
    exact h.advanceCompress hs rfl rfl ⟨htext, halpha, rfl, hw, rfl⟩

theorem inv_execEncode (h : Inv s) (hs : s.status = Status.started .encode)
    (hx : execEncode s = .next t) : Inv t := by
  obtain ⟨-, rfl⟩ | ⟨-, rfl⟩ := execEncode_next hx
  · obtain ⟨htext, halpha, hwidth, hw, htable⟩ := h.encReady hs
    exact h.advanceCompress hs rfl rfl ⟨htext, halpha, hwidth, hw, htable, rfl⟩
  · exact h.raiseError_setEnc hs rfl _

theorem inv_execPack (h : Inv s) (hs : s.status = Status.started .pack)
    (hx : execPack s = .next t) : Inv t := by
  cases hx
  obtain ⟨htext, halpha, hwidth, hw, htable, hbits⟩ := h.encReady hs
  exact h.advanceCompress hs rfl rfl ⟨htext, halpha, hwidth, hw, htable, hbits, rfl, rfl, rfl⟩

theorem inv_execSerialize (h : Inv s) (hs : s.status = Status.started .serialize)
    (hx : execSerialize s = .next t) : Inv t := by
  obtain ⟨-, rfl⟩ | ⟨-, -, rfl⟩ | ⟨-, -, hcap, rfl⟩ := execSerialize_next hx
  · exact h.raiseError_setEnc hs rfl s.enc
  · exact h.raiseError_setEnc hs rfl _
  · have hcto := bufferOk_holding (fits := fun _ => True) (fun _ _ => trivial) hcap
    exact inv_of_finished { h.buffers with cto := ⟨hcto, filled_holding _⟩ } hs rfl

/-- Every stage of COMPRESS keeps the invariant. -/
theorem inv_keptByCompress : KeptByCompress Inv where
  start _ _ h := inv_startCompress h
  extract _ _ h := inv_execExtract h.2 h.1
  build _ _ h := inv_execBuild h.2 h.1
  encode _ _ h := inv_execEncode h.2 h.1
  pack _ _ h := inv_execPack h.2 h.1
  serialize _ _ h := inv_execSerialize h.2 h.1

/-! ### The stages of DECOMPRESS -/

/-- What the stage UNPACK may assume of a table the chart reader accepted for keys of `w` characters. -/
def TableFits (symw w : Nat) (table : List (Bits × Symbol)) : Prop :=
  (∀ e ∈ table, e.1.length = w) ∧ (table.map Prod.fst).Nodup ∧ ∀ e ∈ table, e.2 < 2 ^ symw

/-- The `repeat` loop of rule R72 makes a table of different keys of `w` characters and symbols below
`2^SYMW`. -/
theorem readEntries_tableFits {symw w fuel : Nat} {table : List (Bits × Symbol)} {c rest : List Byte}
    (hf : c.length ≤ fuel) (h : readEntries symw w fuel [] c = some (table, rest)) :
    TableFits symw w table := by
  obtain ⟨es, -, -, hfits, hnodup, -, rfl⟩ := (readEntries_eq_some hf).mp h
  rw [List.nil_append]
  refine ⟨?_, by simpa [Function.comp_def] using hnodup, ?_⟩ <;> intro e he <;>
    obtain ⟨e', he', rfl⟩ := List.mem_map.mp he <;> obtain ⟨hkey, hvalue⟩ := hfits e' he'
  · exact hkey
  · obtain ⟨-, hlen, -⟩ := valueCanonical_iff.mp hvalue
    exact (val_lt e'.2).trans_le (Nat.pow_le_pow_right (by decide) hlen)

theorem readBody_tableFits {symw w : Nat} {table : List (Bits × Symbol)} {c rest : List Byte}
    (h : readBody symw w c = some (table, rest)) : TableFits symw w table := by
  unfold readBody at h
  split at h
  · cases h
    exact ⟨nofun, List.nodup_nil, nofun⟩
  · exact readEntries_tableFits le_rfl h

theorem parseChart_tableFits {symw w : Nat} {c : List Byte} {table : List (Bits × Symbol)}
    (h : parseChart symw c w = some table) : TableFits symw w table := by
  unfold parseChart at h
  split at h
  · cases h
  · split at h
    · rename_i hbody
      cases h
      exact readBody_tableFits hbody
    · cases h
    · cases h

/-- The last part of PARSE establishes UNPACK's precondition from the header's checks (rule R112). -/
theorem parseBody_ready {symw : Nat} {c : List Byte} {d : DecStores} (hw : d.width ≠ 0#8)
    (hp : d.pad.toNat ≤ Config.padMax) (h : (parseBody symw c d).raised = none) :
    (parseBody symw c d).stores.ready symw .unpack := by
  unfold parseBody at h ⊢
  dsimp only at h ⊢
  split at h
  · cases h
  · rename_i hpayload
    split at h
    · cases h
    · rename_i table htable
      obtain ⟨hkeys, hnodup, hsymbols⟩ := parseChart_tableFits htable
      rw [if_neg hpayload]
      exact ⟨hw, hp, by dsimp only [Config.padMax] at hp ⊢; omega, hkeys, hnodup, hsymbols⟩

/-- PARSE that completes has established UNPACK's precondition (rules R112 and R117). -/
theorem parseStage_ready {symw : Nat} {c : List Byte} {d : DecStores}
    (h : (parseStage symw c d).raised = none) : (parseStage symw c d).stores.ready symw .unpack := by
  unfold parseStage at h ⊢
  dsimp only at h ⊢
  split at h
  · cases h
  · split at h
    · cases h
    · split at h
      · cases h
      · rename_i hlen hheader hchart
        rw [if_neg hlen, if_neg hheader, if_neg hchart]
        obtain ⟨hw, hp⟩ := not_or.mp hheader
        exact parseBody_ready hw (Nat.le_of_not_lt hp) h

/-- The window loop delivers symbols of its table only (rule R121). -/
theorem exists_mem_table_of_mem_decodeWindows {table : List (Bits × Symbol)} {w n : Nat} {bits : Bits}
    {x : Symbol} (h : x ∈ decodeWindows table w n bits) : ∃ key, (key, x) ∈ table := by
  induction n generalizing bits with
  | zero => cases h
  | succ n ih =>
    rw [decodeWindows] at h
    cases hl : lookupSymbol table (bits.take w) with
    | none => rw [hl] at h; cases h
    | some y =>
      rw [hl] at h
      obtain rfl | h := List.mem_cons.mp h
      · exact ⟨_, lookupSymbol_mem hl⟩
      · exact ih h

theorem inv_startDecompress (h : Inv s) : Inv (startDecompress s) :=
  inv_of_decompressing { h.buffers with txo := ⟨bufferOk_empty, filled_empty⟩ } rfl rfl rfl trivial

theorem inv_execParse (h : Inv s) (hs : s.status = Status.started .parse)
    (hx : execParse s = .next t) : Inv t := by
  obtain ⟨hr, rfl⟩ | ⟨e, he, rfl⟩ := execParse_next hx
  · exact inv_of_decompressing { h.buffers with } (setPhase_started hs .unpack) rfl
      (h.noPartial.2 (by rw [hs]; rfl)) (parseStage_ready hr)
  · exact h.raiseError_setDec hs (parseStage_raisedBy he) _

theorem inv_execUnpack (h : Inv s) (hs : s.status = Status.started .unpack)
    (hx : execUnpack s = .next t) : Inv t := by
  obtain ⟨-, ⟨-, -, rfl⟩ | ⟨-, -, hcap, rfl⟩ | ⟨-, -, rfl⟩⟩ := execUnpack_next hx
  · exact h.raiseError_setDec hs rfl _
  · have hfits : ∀ x ∈ s.dec.decoding, x < 2 ^ s.cfg.symw := by
      intro x hx
      obtain ⟨-, -, -, -, -, hsymbols⟩ := h.decReady hs
      obtain ⟨key, hkey⟩ := exists_mem_table_of_mem_decodeWindows hx
      exact hsymbols _ hkey
    have htxo := bufferOk_holding (fits := (· < 2 ^ s.cfg.symw)) hfits hcap
    exact inv_of_finished { h.buffers with txo := ⟨htxo, filled_holding _⟩ } hs rfl
  · exact h.raiseError_setDec hs rfl _

/-- Every stage of DECOMPRESS keeps the invariant. -/
theorem inv_keptByDecompress : KeptByDecompress Inv where
  start _ _ h := inv_startDecompress h
  parse _ _ h := inv_execParse h.2 h.1
  unpack _ _ h := inv_execUnpack h.2 h.1

/-! ### The host's actions -/

/-- What the invariant does not speak of: how far the host has come, the last read and the free values. -/
theorem Inv.setHostPos (h : Inv s) (n : Nat) : Inv (s.setHostPos n) :=
  inv_iff.mpr ⟨{ h.buffers with }, h.status, h.noPartial, h.stores⟩

theorem Inv.setRead (h : Inv s) (x : ReadValue) : Inv (s.setRead x) :=
  inv_iff.mpr ⟨{ h.buffers with }, h.status, h.noPartial, h.stores⟩

theorem Inv.nextFree (h : Inv s) : Inv s.nextFree :=
  inv_iff.mpr ⟨{ h.buffers with }, h.status, h.noPartial, h.stores⟩

theorem Inv.consumeEvent (h : Inv s) : Inv (consumeEvent s) := by
  rw [consumeEvent_eq]
  exact h.setHostPos _

/-- While the engine is idle the host may fill `TXI`. -/
theorem Inv.setTxi (h : Inv s) (hi : Idle s) {b : Buffer Symbol}
    (hb : BufferOk s.cfg.txiCap (· < 2 ^ s.cfg.symw) b) : Inv (s.setTxi b) :=
  inv_iff.mpr ⟨{ h.buffers with txi := hb }, h.status, h.noPartial,
    fun hbusy => absurd (hi.symm.trans hbusy) (by decide)⟩

/-- While the engine is idle the host may fill `CTI`. -/
theorem Inv.setCti (h : Inv s) {b : Buffer Byte} (hb : BufferOk s.cfg.ctiCap (fun _ => True) b) :
    Inv (s.setCti b) :=
  inv_iff.mpr ⟨{ h.buffers with cti := hb }, h.status, h.noPartial, h.stores⟩

theorem onElement_next {b : BufName} {i : Nat} {o : Outcome} (h : onElement s b i o = .next t) :
    o = .next t := by
  unfold onElement at h
  split at h
  · exact h
  · cases h

theorem onSymbol_next {v : Symbol} {o : Outcome} (h : onSymbol s v o = .next t) :
    v < 2 ^ s.cfg.symw ∧ o = .next t := by
  unfold onSymbol at h
  split at h
  · rename_i hv
    exact ⟨of_decide_eq_true hv, h⟩
  · cases h

theorem onLength_next {b : BufName} {n : Nat} {o : Outcome} (h : onLength s b n o = .next t) :
    withinCap (capOf s.cfg b) n = true ∧ o = .next t := by
  unfold onLength at h
  split at h
  · exact ⟨‹_›, h⟩
  · cases h

/-- An input write that answers a next state was ignored or performed. -/
theorem whenIdle_next_cases {write : State → State} (h : whenIdle s write = .next t) :
    (s.status.busy = true ∧ t = s) ∨ (Idle s ∧ t = write s) := by
  cases hb : s.status.busy with
  | true => rw [whenIdle_busy hb] at h; cases h; exact .inl ⟨rfl, rfl⟩
  | false => rw [whenIdle_idle hb] at h; cases h; exact .inr ⟨hb, rfl⟩

theorem inv_hostRead {current : Bool} {now : ReadValue} {free : Nat → ReadValue} (h : Inv s)
    (hr : hostRead s current now free = .next t) : Inv t := by
  cases current with
  | true => cases hr; exact h.setRead now
  | false => cases hr; exact (h.setRead _).nextFree

/-- A host write that the engine performs only while idle keeps the invariant if its performance does. -/
theorem inv_whenIdle {write : State → State} (h : Inv s) (hw : Idle s → Inv (write s))
    (hx : whenIdle s write = .next t) : Inv t := by
  obtain ⟨-, rfl⟩ | ⟨hi, rfl⟩ := whenIdle_next_cases hx
  · exact h
  · exact hw hi

/-- Every host access keeps the invariant (rule R25). -/
theorem inv_performAccess {a : Access} (h : Inv s) (hx : performAccess a s = .next t) : Inv t := by
  cases a with
  | writeTxi i v =>
    obtain ⟨hv, hx⟩ := onSymbol_next (onElement_next hx)
    exact inv_whenIdle h (fun hi => h.setTxi hi (h.buffers.txi.write i hv)) hx
  | writeTxiLen n =>
    obtain ⟨hn, hx⟩ := onLength_next hx
    exact inv_whenIdle h (fun hi => h.setTxi hi (h.buffers.txi.setLen hn)) hx
  | writeCti i b =>
    exact inv_whenIdle h (fun _ => h.setCti (h.buffers.cti.write i trivial)) (onElement_next hx)
  | writeCtiLen n =>
    obtain ⟨hn, hx⟩ := onLength_next hx
    exact inv_whenIdle h (fun _ => h.setCti (h.buffers.cti.setLen hn)) hx
  | writeStatus | writeCtoLen | writeTxoLen => cases hx; exact h
  | writeCto i b => cases onElement_next hx; exact h
  | writeTxo i v => cases (onSymbol_next (onElement_next hx)).2; exact h
  | readCmd => cases hx; exact h.setRead _
  | readStatus | readTxiLen | readCtoLen | readCtiLen | readTxoLen =>
    dsimp only [performAccess] at hx
    exact inv_hostRead h hx
  | readTxi i | readCto i | readCti i | readTxo i => exact inv_hostRead h (onElement_next hx)

theorem inv_startCommand {mode : BitVec 1} (h : Inv s) (hx : startCommand mode s = .next t) : Inv t := by
  refine inv_whenIdle h (fun _ => ?_) hx
  obtain hm | hm := decodeCmd_eq mode <;> rw [hm]
  · exact inv_startCompress h
  · exact inv_startDecompress h

/-- A `CMD` write to a busy engine is ignored (rule R131). -/
theorem execCommand_busy (mode : BitVec 1) (hb : s.status.busy = true) : execCommand mode s = .next s := by
  rw [execCommand]
  obtain hm | hm := decodeCmd_eq mode <;> rw [hm] <;> exact if_pos hb

/-- A command as one step keeps the invariant. -/
theorem inv_execCommand {mode : BitVec 1} (h : Inv s) (hx : execCommand mode s = .next t) : Inv t := by
  cases hb : s.status.busy with
  | true => rw [execCommand_busy mode hb] at hx; cases hx; exact h
  | false => exact (execCommand_atEnd inv_keptByCompress inv_keptByDecompress hb h hx).2

/-! ### The step -/

/-- The stage `PHASE` names, run while a command runs, keeps the invariant. -/
theorem inv_execStage {i : Instr} (h : Inv s) (hb : s.status.busy = true)
    (hd : decode (.phase s.status.phase.code) = .ok i) (hx : exec i s = .next t) : Inv t := by
  have hs := h.status.eq_started hb
  cases hp : s.status.phase <;> rw [hp] at hs hd <;> cases hd
  case extract => exact inv_execExtract h hs hx
  case build => exact inv_execBuild h hs hx
  case encode => exact inv_execEncode h hs hx
  case pack => exact inv_execPack h hs hx
  case serialize => exact inv_execSerialize h hs hx
  case parse => exact inv_execParse h hs hx
  case unpack => exact inv_execUnpack h hs hx

/-- Whose turn can be an instruction's: a command's by the host, or a running stage's. -/
theorem nextTurn_run {w : CodeWord} (h : nextTurn s = .run w) :
    (∃ mode, w = .cmd mode) ∨ (s.status.busy = true ∧ w = .phase s.status.phase.code) := by
  have engine (h : engineTurn s = .run w) : s.status.busy = true ∧ w = .phase s.status.phase.code := by
    unfold engineTurn at h
    split at h
    · cases h; exact ⟨‹_›, rfl⟩
    · cases h
  unfold nextTurn at h
  split at h
  · exact .inr (engine h)
  · exact .inr (engine h)
  · cases h
  · cases h; exact .inl ⟨_, rfl⟩
  · cases h
  · cases h

/-- What a step that answers a next state has done: a command, a stage, an access, a start, a reset or
nothing, after the host moved past its action. -/
theorem step_next (h : step s = .next t) :
    (∃ mode, execCommand mode (consumeEvent s) = .next t) ∨
    (∃ i, s.status.busy = true ∧ decode (.phase s.status.phase.code) = .ok i ∧
      exec i (consumeEvent s) = .next t) ∨
    (∃ a, performAccess a (consumeEvent s) = .next t) ∨
    (∃ mode, startCommand mode (consumeEvent s) = .next t) ∨
    t = resetEngine (consumeEvent s) ∨ t = consumeEvent s := by
  cases ht : nextTurn s with
  | run w =>
    cases hd : decode w with
    | error r => simp [step, ht, hd] at h
    | ok i =>
      rw [step_run ht hd] at h
      obtain ⟨mode, rfl⟩ | ⟨hb, rfl⟩ := nextTurn_run ht
      · cases hd; exact .inl ⟨mode, h⟩
      · exact .inr (.inl ⟨i, hb, hd, h⟩)
  | access a => exact .inr (.inr (.inl ⟨a, by simpa [step, ht] using h⟩))
  | start mode => exact .inr (.inr (.inr (.inl ⟨mode, by simpa [step, ht] using h⟩)))
  | reset => exact .inr (.inr (.inr (.inr (.inl (by simpa [step, ht] using h.symm)))))
  | idle => exact .inr (.inr (.inr (.inr (.inr (by simpa [step, ht] using h.symm)))))

/-- Settles O56: the host moves past its action, then each form of step keeps the invariant. -/
theorem stepKeepsTheInvariant : Obligations.StepKeepsTheInvariant := by
  intro s t h hstep
  have h' := h.consumeEvent
  obtain ⟨mode, hx⟩ | ⟨i, hb, hd, hx⟩ | ⟨a, hx⟩ | ⟨mode, hx⟩ | rfl | rfl := step_next hstep
  · exact inv_execCommand h' hx
  · rw [← consumeEvent_status] at hb hd
    exact inv_execStage h' hb hd hx
  · exact inv_performAccess h' hx
  · exact inv_startCommand h' hx
  · exact inv_of_reset _ _ _ _ _ _ h'.width
  · exact h'

end Sys2Proof.Machine
end

section
/-! PROOF. What each stage and each command may change: its own stores and output, and `STATUS` (rules R43
and R134). -/

namespace Sys2Proof.Machine

variable {s t u : State}

/-! ### The frame of each stage -/

/-- Rule R88. -/
theorem execExtract_frame (h : execExtract s = .next t) :
    t = (s.setEnc { s.enc with alpha := t.enc.alpha }).setStatus t.status ∧
      (t.status = { s.status with phase := .build } ∨ ∃ e, t.status = s.status.failed e) := by
  obtain ⟨-, rfl⟩ | ⟨-, rfl⟩ := execExtract_next h
  · exact ⟨rfl, .inl rfl⟩
  · exact ⟨rfl, .inr ⟨_, rfl⟩⟩

/-- Rule R94. -/
theorem execBuild_frame (h : execBuild s = .next t) :
    t = (s.setEnc { s.enc with width := t.enc.width, table := t.enc.table }).setStatus t.status ∧
      (t.status = { s.status with phase := .encode } ∨ ∃ e, t.status = s.status.failed e) := by
  obtain ⟨-, rfl⟩ | ⟨-, -, rfl⟩ | ⟨-, -, rfl⟩ := execBuild_next h
  · exact ⟨rfl, .inr ⟨_, rfl⟩⟩
  · exact ⟨rfl, .inr ⟨_, rfl⟩⟩
  · exact ⟨rfl, .inl rfl⟩

/-- Rule R98. -/
theorem execEncode_frame (h : execEncode s = .next t) :
    t = (s.setEnc { s.enc with bits := t.enc.bits }).setStatus t.status ∧
      (t.status = { s.status with phase := .pack } ∨ ∃ e, t.status = s.status.failed e) := by
  obtain ⟨-, rfl⟩ | ⟨-, rfl⟩ := execEncode_next h
  · exact ⟨rfl, .inl rfl⟩
  · exact ⟨rfl, .inr ⟨_, rfl⟩⟩

/-- Rule R102. -/
theorem execPack_frame (h : execPack s = .next t) :
    t = (s.setEnc { s.enc with
        pad := t.enc.pad, padded := t.enc.padded, payload := t.enc.payload }).setStatus t.status ∧
      t.status = { s.status with phase := .serialize } := by
  cases h
  exact ⟨rfl, rfl⟩

/-- Rule R108. -/
theorem execSerialize_frame (h : execSerialize s = .next t) :
    t = ((s.setEnc { s.enc with chart := t.enc.chart, chartSize := t.enc.chartSize }).setCto
        t.cto).setStatus t.status ∧
      (t.status = s.status.finished ∨ ((∃ e, t.status = s.status.failed e) ∧ t.cto = s.cto)) := by
  obtain ⟨-, rfl⟩ | ⟨-, -, rfl⟩ | ⟨-, -, -, rfl⟩ := execSerialize_next h
  · exact ⟨rfl, .inr ⟨⟨_, rfl⟩, rfl⟩⟩
  · exact ⟨rfl, .inr ⟨⟨_, rfl⟩, rfl⟩⟩
  · exact ⟨rfl, .inl rfl⟩

/-- PARSE writes its five stores only, as far as it comes in the order of rule R117. -/
theorem execParse_frame (h : execParse s = .next t) :
    t = (s.setDec { s.dec with
        width := t.dec.width, pad := t.dec.pad, chartSize := t.dec.chartSize,
        table := t.dec.table, payload := t.dec.payload }).setStatus t.status ∧
      (t.status = { s.status with phase := .unpack } ∨ ∃ e, t.status = s.status.failed e) := by
  obtain ⟨-, width, pad, chartSize, table, payload, hd⟩ := parseStage_spec s.cfg.symw s.input s.dec
  obtain ⟨-, rfl⟩ | ⟨e, -, rfl⟩ := execParse_next h <;> rw [hd]
  · exact ⟨rfl, .inl rfl⟩
  · exact ⟨rfl, .inr ⟨e, rfl⟩⟩

/-- Rule R124. -/
theorem execUnpack_frame (h : execUnpack s = .next t) :
    t = ((s.setDec { s.dec with bits := t.dec.bits, pos := t.dec.pos, out := t.dec.out }).setTxo
        t.txo).setStatus t.status ∧
      (t.status = s.status.finished ∨ ((∃ e, t.status = s.status.failed e) ∧ t.txo = s.txo)) := by
  obtain ⟨-, ⟨-, -, rfl⟩ | ⟨-, -, -, rfl⟩ | ⟨-, -, rfl⟩⟩ := execUnpack_next h
  · exact ⟨rfl, .inr ⟨⟨_, rfl⟩, rfl⟩⟩
  · exact ⟨rfl, .inl rfl⟩
  · exact ⟨rfl, .inr ⟨⟨_, rfl⟩, rfl⟩⟩

/-! ### The frame of each path -/

/-- From `s` to `t` at most group C, `CTO` and `STATUS` changed (rule R134). -/
def CompressFrame (s t : State) : Prop := t = ((s.setEnc t.enc).setCto t.cto).setStatus t.status

/-- From `s` to `t` at most group X, `TXO` and `STATUS` changed (rule R134). -/
def DecompressFrame (s t : State) : Prop := t = ((s.setDec t.dec).setTxo t.txo).setStatus t.status

theorem CompressFrame.trans (hu : CompressFrame s u) (ht : CompressFrame u t) : CompressFrame s t := by
  rw [CompressFrame] at hu ht
  rw [hu] at ht
  exact ht

theorem DecompressFrame.trans (hu : DecompressFrame s u) (ht : DecompressFrame u t) :
    DecompressFrame s t := by
  rw [DecompressFrame] at hu ht
  rw [hu] at ht
  exact ht

theorem CompressFrame.elements (h : CompressFrame s t) (j : Nat) :
    t.txiElem j = s.txiElem j ∧ t.ctiElem j = s.ctiElem j ∧ t.txoElem j = s.txoElem j := by
  rw [h]
  exact ⟨rfl, rfl, rfl⟩

theorem DecompressFrame.elements (h : DecompressFrame s t) (j : Nat) :
    t.txiElem j = s.txiElem j ∧ t.ctiElem j = s.ctiElem j ∧ t.ctoElem j = s.ctoElem j := by
  rw [h]
  exact ⟨rfl, rfl, rfl⟩

/-- A change of group C and `STATUS` alone is a change on the path of COMPRESS. -/
theorem compressFrame_of_setEnc {x : EncStores} {st : Status} (h : t = (s.setEnc x).setStatus st) :
    CompressFrame s t := by
  rw [h]; rfl

/-- A change of group X and `STATUS` alone is a change on the path of DECOMPRESS. -/
theorem decompressFrame_of_setDec {d : DecStores} {st : Status} (h : t = (s.setDec d).setStatus st) :
    DecompressFrame s t := by
  rw [h]; rfl

theorem execSerialize_compressFrame (h : execSerialize s = .next t) : CompressFrame s t := by
  rw [(execSerialize_frame h).1]; rfl

theorem execUnpack_decompressFrame (h : execUnpack s = .next t) : DecompressFrame s t := by
  rw [(execUnpack_frame h).1]; rfl

/-- Having changed nothing off the path since `s` is kept by every stage of COMPRESS. -/
theorem compressFrame_kept (s : State) : KeptByCompress (CompressFrame s) where
  start _ _ h := h.trans rfl
  extract _ _ h hx := h.2.trans (compressFrame_of_setEnc (execExtract_frame hx).1)
  build _ _ h hx := h.2.trans (compressFrame_of_setEnc (execBuild_frame hx).1)
  encode _ _ h hx := h.2.trans (compressFrame_of_setEnc (execEncode_frame hx).1)
  pack _ _ h hx := h.2.trans (compressFrame_of_setEnc (execPack_frame hx).1)
  serialize _ _ h hx := h.2.trans (execSerialize_compressFrame hx)

/-- Having changed nothing off the path since `s` is kept by every stage of DECOMPRESS. -/
theorem decompressFrame_kept (s : State) : KeptByDecompress (DecompressFrame s) where
  start _ _ h := h.trans rfl
  parse _ _ h hx := h.2.trans (decompressFrame_of_setDec (execParse_frame hx).1)
  unpack _ _ h hx := h.2.trans (execUnpack_decompressFrame hx)

/-- COMPRESS changes its own path only; a busy engine ignores it (rules R131 and R134). -/
theorem exec_compress_frame (h : exec .compress s = .next t) : CompressFrame s t := by
  cases hb : s.status.busy with
  | true => cases (execCommand_busy 0#1 hb).symm.trans h; rfl
  | false => exact ((compressFrame_kept s).exec_compress hb rfl h).2

/-- DECOMPRESS changes its own path only; a busy engine ignores it (rules R131 and R134). -/
theorem exec_decompress_frame (h : exec .decompress s = .next t) : DecompressFrame s t := by
  cases hb : s.status.busy with
  | true => cases (execCommand_busy 1#1 hb).symm.trans h; rfl
  | false => exact ((decompressFrame_kept s).exec_decompress hb rfl h).2

/-! ### Elements of the buffers -/

/-- Every element of the four buffers reads as before. -/
def SameElements (s t : State) : Prop :=
  ∀ j, t.txiElem j = s.txiElem j ∧ t.ctiElem j = s.ctiElem j ∧ t.ctoElem j = s.ctoElem j ∧
    t.txoElem j = s.txoElem j

theorem sameElements_of_setEnc {x : EncStores} {st : Status} (h : t = (s.setEnc x).setStatus st) :
    SameElements s t := by
  rw [h]
  exact fun _ => ⟨rfl, rfl, rfl, rfl⟩

theorem sameElements_of_setDec {d : DecStores} {st : Status} (h : t = (s.setDec d).setStatus st) :
    SameElements s t := by
  rw [h]
  exact fun _ => ⟨rfl, rfl, rfl, rfl⟩

/-- An instruction changes no element but those of the output it commits (rules R43 and R134). -/
theorem exec_elements {i : Instr} (h : exec i s = .next t) (j : Nat) :
    t.txiElem j = s.txiElem j ∧ t.ctiElem j = s.ctiElem j ∧
      (i ≠ .compress → i ≠ .serialize → t.ctoElem j = s.ctoElem j) ∧
      (i ≠ .decompress → i ≠ .unpack → t.txoElem j = s.txoElem j) := by
  have storesOnly (hs : SameElements s t) :
      t.txiElem j = s.txiElem j ∧ t.ctiElem j = s.ctiElem j ∧
        (i ≠ .compress → i ≠ .serialize → t.ctoElem j = s.ctoElem j) ∧
        (i ≠ .decompress → i ≠ .unpack → t.txoElem j = s.txoElem j) := by
    obtain ⟨htxi, hcti, hcto, htxo⟩ := hs j
    exact ⟨htxi, hcti, fun _ _ => hcto, fun _ _ => htxo⟩
  cases i with
  | compress =>
    obtain ⟨htxi, hcti, htxo⟩ := (exec_compress_frame h).elements j
    exact ⟨htxi, hcti, absurd rfl, fun _ _ => htxo⟩
  | serialize =>
    obtain ⟨htxi, hcti, htxo⟩ := (execSerialize_compressFrame h).elements j
    exact ⟨htxi, hcti, fun _ => absurd rfl, fun _ _ => htxo⟩
  | decompress =>
    obtain ⟨htxi, hcti, hcto⟩ := (exec_decompress_frame h).elements j
    exact ⟨htxi, hcti, fun _ _ => hcto, absurd rfl⟩
  | unpack =>
    obtain ⟨htxi, hcti, hcto⟩ := (execUnpack_decompressFrame h).elements j
    exact ⟨htxi, hcti, fun _ _ => hcto, fun _ => absurd rfl⟩
  | extract => exact storesOnly (sameElements_of_setEnc (execExtract_frame h).1)
  | build => exact storesOnly (sameElements_of_setEnc (execBuild_frame h).1)
  | encode => exact storesOnly (sameElements_of_setEnc (execEncode_frame h).1)
  | pack => exact storesOnly (sameElements_of_setEnc (execPack_frame h).1)
  | parse => exact storesOnly (sameElements_of_setDec (execParse_frame h).1)

/-- Settles O40: the frame of each stage, and the elements by instruction. -/
theorem stagesChangeOnlyTheirOwnStores : Obligations.StagesChangeOnlyTheirOwnStores :=
  ⟨fun _ _ h => execExtract_frame h, fun _ _ h => execBuild_frame h, fun _ _ h => execEncode_frame h,
    fun _ _ h => execPack_frame h, fun _ _ h => execSerialize_frame h, fun _ _ h => execParse_frame h,
    fun _ _ h => execUnpack_frame h, fun _ _ _ h j => exec_elements h j⟩

end Sys2Proof.Machine
end

section
/-! PROOF. Outputs and input lengths above a capacity, and what each stage and command comes down to where
no earlier error stops it (rules R58, R125, R126). -/

namespace Sys2Proof.Machine

variable {s : State}

/-! ### The end of a command above its capacity -/

theorem commitContainer_refused {c : List Byte} (h : withinCap s.cfg.ctoCap c.length = false) :
    commitContainer c s = .refused (.outputExceedsCapacity .cto) := by
  rw [commitContainer, h]; rfl

theorem commitText_refused {x : List Symbol} (h : withinCap s.cfg.txoCap x.length = false) :
    commitText x s = .refused (.outputExceedsCapacity .txo) := by
  rw [commitText, h]; rfl

theorem onLength_refused {b : BufName} {n : Nat} (h : withinCap (capOf s.cfg b) n = false)
    (o : Outcome) : onLength s b n o = .refused (.inputLengthExceedsCapacity b) := by
  rw [onLength, h]; rfl

/-! ### COMPRESS up to SERIALIZE -/

theorem execExtract_eq (h : s.text ≠ []) :
    execExtract s = .next (setPhase .build (s.setEnc { s.enc with alpha := alphabetOf s.text })) := by
  rw [execExtract, extractStage, if_neg (mt List.eq_nil_of_length_eq_zero h)]; rfl

theorem execBuild_eq (h : s.enc.alpha ≠ []) (hw : codeWidth s.enc.alpha.length < s.cfg.idxw) :
    execBuild s = .next (setPhase .encode (s.setEnc { s.enc with
      width := codeWidth s.enc.alpha.length
      table := assignCodes (codeWidth s.enc.alpha.length) 0 s.enc.alpha })) := by
  rw [execBuild, buildStage, if_neg (mt List.eq_nil_of_length_eq_zero h), if_neg (Nat.not_le.mpr hw)]; rfl

theorem execEncode_eq (h : allMapped s.enc.table s.text = true) :
    execEncode s =
      .next (setPhase .pack (s.setEnc { s.enc with bits := encodeText s.enc.table s.text })) := by
  rw [execEncode, encodeStage, h]; rfl

theorem execSerialize_eq (hw : s.enc.width ≤ Config.widthMax)
    (hc : (chartText s.enc.table).length ≤ Config.chartSizeMax) :
    execSerialize s = commitContainer s.enc.withChart.container (s.setEnc s.enc.withChart) := by
  have hc' : ¬Config.chartSizeMax < s.enc.withChart.chartSize := Nat.not_lt.mpr hc
  rw [execSerialize, serializeStage, if_neg (Nat.not_lt.mpr hw), if_neg hc']; rfl

/-- What EXTRACT, BUILD, ENCODE and PACK leave in group C of a text that raises none of their errors. -/
def packedStores (text : List Symbol) : EncStores :=
  (packStage { EncStores.empty with
    alpha := alphabetOf text, width := widthOf text, table := tableOf text,
    bits := encodeText (tableOf text) text }).stores

/-- COMPRESS of a non-empty text whose width fits the index integer is SERIALIZE of what the four stages
before it make of the text. -/
theorem exec_compress_eq_serialize (hi : Idle s) (ht : s.text ≠ []) (hw : widthOf s.text < s.cfg.idxw) :
    exec .compress s =
      execSerialize (setPhase .serialize ((startCompress s).setEnc (packedStores s.text))) := by
  -- `by exact` checks a premise only once `rw` has found the stage's state.
  have ha : alphabetOf s.text ≠ [] := List.ne_nil_of_length_pos (alphabetOf_length_pos ht)
  rw [exec_compress_eq hi, execExtract_eq (s := startCompress s) ht, thenStage_busy rfl,
    execBuild_eq (by exact ha) (by exact hw), thenStage_busy rfl,
    execEncode_eq (by exact allMapped_tableOf s.text), thenStage_busy rfl, execPack_eq, thenStage_busy rfl]
  rfl

/-- The bits of a text: its width times its symbols (rule R98). -/
theorem encodeText_tableOf_length (text : List Symbol) :
    (encodeText (tableOf text) text).length = widthOf text * text.length :=
  encodeText_length (fun _ he => assignCodes_width he) (allMapped_tableOf text)

/-- The length of the container is that of rule R139. -/
theorem container_packedStores_length (text : List Symbol) :
    (packedStores text).withChart.container.length = containerLengthOf text := by
  have hp : (packedStores text).payload.length = ceilDiv (widthOf text * text.length) 8 := by
    simp [packedStores, packStage, encodeText_tableOf_length]
  simp only [EncStores.container, containerBytes, List.length_append, be32_length, containerLengthOf]
  show _ + (chartOf text).length + (packedStores text).payload.length = _
  rw [hp]; rfl

/-- COMPRESS of a text that raises no error: the commit of its container. -/
theorem exec_compress_eq_commit (hi : Idle s) (ht : s.text ≠ []) (hf : FieldsFit s.cfg s.text) :
    exec .compress s = commitContainer (packedStores s.text).withChart.container
      (setPhase .serialize ((startCompress s).setEnc (packedStores s.text).withChart)) := by
  obtain ⟨hidx, hwidth, hchart⟩ := hf
  rw [exec_compress_eq_serialize hi ht hidx, execSerialize_eq (by exact hwidth) (by exact hchart)]
  rfl

/-! ### UNPACK and DECOMPRESS up to the commit -/

/-- The whole windows of the payload are `symbols` (rules R120 and R121). -/
structure DecodesTo (d : DecStores) (symbols : List Symbol) : Prop where
  width : d.width ≠ 0#8
  pad : d.pad.toNat ≤ 8 * d.payload.length
  length : symbols.length = (8 * d.payload.length - d.pad.toNat) / d.width.toNat
  windows : ∀ m, m < symbols.length →
    lookupSymbol d.table (windowAt (payloadBits d.payload d.pad.toNat) d.width.toNat m) = symbols[m]?

/-- UNPACK of whole windows that all have an entry: the commit of their symbols. -/
theorem execUnpack_eq_commit {symbols : List Symbol} (h : DecodesTo s.dec symbols) :
    execUnpack s = commitText symbols (s.setDec (unpackStage s.dec).stores) := by
  have hcount : s.dec.windowCount = symbols.length := h.length.symm
  have hdec : s.dec.decoding = symbols := by
    rw [DecStores.decoding, hcount, unpadded_eq, decodeWindows_eq h.windows]
  rw [execUnpack_eq h.width h.pad, hdec, hcount, if_pos rfl]

/-- What PARSE leaves in group X of a container it accepts. -/
def parsedStores (d : DecStores) (w p : Byte) (n : Nat) (table : List (Bits × Symbol))
    (payload : List Byte) : DecStores :=
  { d with width := w, pad := p, chartSize := BitVec.ofNat 32 n, table := table, payload := payload }

section Accepted
variable {w p b2 b3 b4 b5 : Byte} {rest : List Byte} {n : Nat} {table : List (Bits × Symbol)}
  {symbols : List Symbol} (hin : s.input = w :: p :: b2 :: b3 :: b4 :: b5 :: rest)
  (hn : n = b2.toNat * 2 ^ 24 + b3.toNat * 2 ^ 16 + b4.toNat * 2 ^ 8 + b5.toNat)
  (hw : w ≠ 0#8) (hp : p.toNat ≤ 7) (hle : n ≤ rest.length) (hempty : rest.length = n → p = 0#8)
  (htable : parseChart s.cfg.symw (rest.take n) w.toNat = some table)
include hin hn hw hp hle hempty htable

/-- PARSE of a container that passes its tests (rule R117). -/
theorem execParse_eq :
    execParse s =
      .next (setPhase .unpack (s.setDec (parsedStores s.dec w p n table (rest.drop n)))) := by
  have hheader : ¬(w = 0#8 ∨ 7 < p.toNat) := not_or.mpr ⟨hw, Nat.not_lt.mpr hp⟩
  have hpayload : ¬(rest.length = n ∧ p ≠ 0#8) := fun h => h.2 (hempty h.1)
  rw [execParse, hin, parseStage_eq hn]
  dsimp only
  rw [if_neg hheader, if_neg (Nat.not_lt.mpr hle), if_neg hpayload, htable]
  rfl

/-- DECOMPRESS of a container PARSE accepts is UNPACK of its fields. -/
theorem exec_decompress_eq_unpack (hi : Idle s) :
    exec .decompress s = execUnpack (setPhase .unpack
      ((startDecompress s).setDec (parsedStores .empty w p n table (rest.drop n)))) := by
  rw [exec_decompress_eq hi,
    execParse_eq (s := startDecompress s) hin hn hw hp hle hempty htable, thenStage_busy rfl]
  rfl

/-- DECOMPRESS of a container whose whole windows all have an entry: the commit of their symbols. -/
theorem exec_decompress_eq_commit (hi : Idle s)
    (hlen : symbols.length = (8 * (rest.length - n) - p.toNat) / w.toNat)
    (hwin : ∀ m, m < symbols.length →
      lookupSymbol table (windowAt (payloadBits (rest.drop n) p.toNat) w.toNat m) = symbols[m]?) :
    exec .decompress s = commitText symbols (setPhase .unpack ((startDecompress s).setDec
      (unpackStage (parsedStores .empty w p n table (rest.drop n))).stores)) := by
  have hpad : p.toNat ≤ 8 * (rest.drop n).length := by
    rw [List.length_drop]
    rcases hle.eq_or_lt with heq | hlt
    · rw [hempty heq.symm]; exact Nat.zero_le _
    · omega
  have hd : DecodesTo (parsedStores .empty w p n table (rest.drop n)) symbols :=
    ⟨hw, hpad, by rw [hlen, ← List.length_drop]; rfl, hwin⟩
  rw [exec_decompress_eq_unpack hin hn hw hp hle hempty htable hi, execUnpack_eq_commit (by exact hd)]
  rfl

end Accepted

/-- Settles O48: each command comes down to its commit, which refuses the output, as the length check
refuses the length. -/
theorem outputAboveCapacityIsRefused : Obligations.OutputAboveCapacityIsRefused := by
  refine ⟨fun s hi hlen hf hcap => ?_, fun s w p b2 b3 b4 b5 rest n table symbols hi hin hn hw hp hle
    hempty htable hlen hwin hcap => ?_, fun s symbols hw hp hlen hwin hcap => ?_,
    fun s n => ⟨fun h => onLength_refused (b := .txi) h _, fun h => onLength_refused (b := .cti) h _⟩⟩
  · have ht : s.text ≠ [] := fun h => hlen (by rw [← State.text_length, h]; rfl)
    rw [exec_compress_eq_commit hi ht hf]
    exact commitContainer_refused (by rw [container_packedStores_length]; exact hcap)
  · rw [exec_decompress_eq_commit hin hn hw hp hle hempty htable hi hlen hwin]
    exact commitText_refused hcap
  · exact (execUnpack_eq_commit ⟨hw, hp, hlen, hwin⟩).trans (commitText_refused hcap)

end Sys2Proof.Machine
end

section
/-! PROOF. The chart: its reader accepts exactly the charts of the grammar (rules R69, R72), and its writer's
text has the length of rule R74. -/

namespace Sys2Proof.Machine

/-! ### The reader and the grammar -/

/-- The loop's spelling of the entries is the grammar's: a comma between, none at the ends (rule R69). -/
theorem entriesSpelling_eq_intercalate (es : List (Bits × Bits)) :
    entriesSpelling es = List.intercalate [asciiComma] (es.map spelledEntry) := by
  induction es with
  | nil => rfl
  | cons e es ih =>
    cases es with
    | nil => exact List.intercalate_singleton.symm
    | cons e' es =>
      rw [entriesSpelling, ih, List.append_cons]
      exact List.intercalate_cons_cons.symm

theorem spelledChart_eq (es : List (Bits × Bits)) :
    spelledChart es = asciiLBrace :: (entriesSpelling es ++ [asciiRBrace]) := by
  rw [entriesSpelling_eq_intercalate]
  rfl

/-- Conditions (b), (c) and (d) of rule R72, as the loop tests them. -/
theorem acceptableEntries_iff {symw w : Nat} {es : List (Bits × Bits)} :
    acceptableEntries symw w es ↔ (∀ e ∈ es, entryFits symw w e) ∧ (es.map Prod.fst).Nodup := by
  simp only [acceptableEntries, entryFits, valueCanonical_iff, forall_and, and_assoc]

/-- Entries begin with a quote, so the text of one or more begins with no closing brace. -/
theorem expectByte_rBrace_entriesSpelling {es : List (Bits × Bits)} (hne : es ≠ []) (c : List Byte) :
    expectByte asciiRBrace (entriesSpelling es ++ c) = none := by
  cases es with
  | nil => exact absurd rfl hne
  | cons e es =>
    cases es with
    | nil => rfl
    | cons e' es => rfl

/-- What stands behind the opening brace, in full: the spelling of acceptable entries, possibly of none, and
the closing brace (rule R72). -/
theorem readBody_eq_some {symw w : Nat} {table : List (Bits × Symbol)} {c rest : List Byte} :
    readBody symw w c = some (table, rest) ↔
      ∃ es, c = entriesSpelling es ++ asciiRBrace :: rest ∧ acceptableEntries symw w es ∧
        table = es.map fun e => (e.1, symbolOfBits e.2) := by
  unfold readBody
  split
  case h_1 r hr =>
    obtain rfl := expectByte_eq_some.mp hr
    constructor
    · rintro ⟨⟩
      exact ⟨[], rfl, acceptableEntries_iff.mpr ⟨nofun, List.nodup_nil⟩, rfl⟩
    · rintro ⟨es, hc, -, rfl⟩
      by_cases hne : es = []
      · subst hne
        rw [(List.cons.inj hc).2]
        rfl
      · rw [hc, expectByte_rBrace_entriesSpelling hne] at hr
        cases hr
  case h_2 hr =>
    rw [readEntries_eq_some le_rfl]
    constructor
    · rintro ⟨es, -, hc, hfits, hnodup, -, htable⟩
      exact ⟨es, hc, acceptableEntries_iff.mpr ⟨hfits, hnodup⟩, htable⟩
    · rintro ⟨es, hc, hok, htable⟩
      have hne : es ≠ [] := by
        rintro rfl
        rw [hc] at hr
        cases hr
      obtain ⟨hfits, hnodup⟩ := acceptableEntries_iff.mp hok
      exact ⟨es, hne, hc, hfits, hnodup, fun _ _ => List.not_mem_nil, htable⟩

/-- A chart is read where nothing stands before its opening and after its closing brace (rule R72 (a)). -/
theorem parseChart_eq_some {symw w : Nat} {c : List Byte} {table : List (Bits × Symbol)} :
    parseChart symw c w = some table ↔
      ∃ body, c = asciiLBrace :: body ∧ readBody symw w body = some (table, []) := by
  cases hb : expectByte asciiLBrace c with
  | none =>
    simp only [parseChart, hb, reduceCtorEq, false_iff, not_exists, not_and]
    rintro body rfl
    cases hb
  | some body =>
    obtain rfl := expectByte_eq_some.mp hb
    simp only [parseChart, hb, List.cons.injEq, true_and, exists_eq_left']
    match readBody symw w body with
    | none => simp
    | some (table', []) => simp
    | some (table', b :: rest) => simp

/-- Settles O26: behind the brace the reader accepts exactly the spellings of acceptable entries. -/
theorem chartReaderAcceptsExactlyTheGrammar : Obligations.ChartReaderAcceptsExactlyTheGrammar := by
  intro symw c w table
  rw [parseChart_eq_some]
  constructor
  · rintro ⟨body, rfl, hbody⟩
    obtain ⟨es, rfl, hok, htable⟩ := readBody_eq_some.mp hbody
    exact ⟨es, (spelledChart_eq es).symm, hok, htable⟩
  · rintro ⟨es, rfl, hok, htable⟩
    exact ⟨_, spelledChart_eq es, readBody_eq_some.mpr ⟨es, rfl, hok, htable⟩⟩

/-! ### The length of a chart -/

@[simp] theorem bitText_length (b : Bits) : (bitText b).length = b.length := List.length_map _

/-- An entry has four quotes, a colon, its key and its value (rule R74). -/
theorem entryText_length (e : Symbol × Bits) :
    (entryText e).length = e.2.length + (minbin e.1).length + 5 := by
  simp only [entryText, bitsOfSymbol, List.length_append, bitText_length, List.length_cons,
    List.length_nil]
  omega

/-- With a comma or the closing brace behind each, every entry takes one byte more than its text. -/
theorem entriesText_length {w : Nat} {table : List (Symbol × Bits)} (hne : table ≠ [])
    (hw : ∀ e ∈ table, e.2.length = w) :
    (entriesText table).length + 1 =
      table.length * (w + 6) + (table.map fun e => (minbin e.1).length).sum := by
  induction table with
  | nil => exact absurd rfl hne
  | cons e table ih =>
    have he : e.2.length = w := hw e List.mem_cons_self
    cases table with
    | nil => simp [entriesText, entryText_length, he]; omega
    | cons e' table =>
      have htail := ih (by simp) fun x hx => hw x (List.mem_cons_of_mem e hx)
      rw [entriesText, List.length_append, List.length_append, entryText_length, he,
        List.length_singleton, List.length_cons (a := e), Nat.succ_mul, List.map_cons, List.sum_cons]
      omega

theorem chartText_length {w : Nat} {table : List (Symbol × Bits)} (hne : table ≠ [])
    (hw : ∀ e ∈ table, e.2.length = w) :
    (chartText table).length =
      1 + table.length * (w + 6) + (table.map fun e => (minbin e.1).length).sum := by
  have h := entriesText_length hne hw
  simp only [chartText, List.length_append, List.length_singleton]
  omega

/-- The chart of a text by its alphabet (rule R74). -/
theorem chartOf_length {text : List Symbol} (h : text ≠ []) :
    (chartOf text).length = 1 + (alphabetOf text).length * (widthOf text + 6) +
      ((alphabetOf text).map fun x => (minbin x).length).sum := by
  have hne : tableOf text ≠ [] :=
    List.ne_nil_of_length_pos ((assignCodes_length _ _ _).symm ▸ alphabetOf_length_pos h)
  have hfst : (tableOf text).map Prod.fst = alphabetOf text := assignCodes_map_fst _ _ _
  rw [chartOf, chartText_length hne fun _ he => assignCodes_width he]
  conv_rhs => rw [← hfst, List.map_map, List.length_map]
  rfl

/-- The width of an alphabet of symbols below `2^SYMW` is at most `SYMW`. -/
theorem widthOf_le {symw : Nat} {text : List Symbol} (h : SymbolsFit symw text) : widthOf text ≤ symw :=
  max_le h.1 (clog2_le_of_le_two_pow (alphabetOf_length_le h.2))

/-- The values of an alphabet have fewer than `2^SYMW * SYMW` characters: either the symbol 0 is there, whose
value has one character, or there are fewer than `2^SYMW` symbols. -/
theorem sum_minbin_length_lt {symw : Nat} {alpha : List Symbol} (h1 : 1 < symw) (hnodup : alpha.Nodup)
    (hlt : ∀ x ∈ alpha, x < 2 ^ symw) :
    (alpha.map fun x => (minbin x).length).sum < 2 ^ symw * symw := by
  have hle : ∀ x ∈ alpha, (minbin x).length ≤ symw := fun x hx => minbin_length_le h1.le (hlt x hx)
  have hsub : ∀ x ∈ alpha, x ∈ List.range (2 ^ symw) := fun x hx => List.mem_range.mpr (hlt x hx)
  by_cases h0 : 0 ∈ alpha
  · have hlen : alpha.length ≤ 2 ^ symw := by simpa using (hnodup.subperm hsub).length_le
    calc (alpha.map fun x => (minbin x).length).sum
        < (alpha.map fun _ => symw).sum := List.sum_lt_sum _ _ hle ⟨0, h0, h1⟩
      _ = alpha.length * symw := by simp
      _ ≤ 2 ^ symw * symw := Nat.mul_le_mul_right symw hlen
  · have hlen : alpha.length < 2 ^ symw := by
      have hnodup0 : (0 :: alpha).Nodup := List.nodup_cons.mpr ⟨h0, hnodup⟩
      simpa using (hnodup0.subperm (l₂ := List.range (2 ^ symw))
        (List.cons_subset.mpr ⟨by simp, hsub⟩)).length_le
    calc (alpha.map fun x => (minbin x).length).sum
        ≤ (alpha.map fun _ => symw).sum := List.sum_le_sum hle
      _ = alpha.length * symw := by simp
      _ < 2 ^ symw * symw := Nat.mul_lt_mul_of_pos_right hlen (by omega)

/-- The bound of rule R74 for any `SYMW` of at least two bits. -/
theorem chartOf_length_lt {symw : Nat} {text : List Symbol} (h1 : 1 < symw) (hne : text ≠ [])
    (hfit : SymbolsFit symw text) : (chartOf text).length < 1 + 2 ^ symw * (symw + 6) + 2 ^ symw * symw := by
  have hkeys : (alphabetOf text).length * (widthOf text + 6) ≤ 2 ^ symw * (symw + 6) :=
    Nat.mul_le_mul (alphabetOf_length_le hfit.2) (Nat.add_le_add_right (widthOf_le hfit) 6)
  have hvalues := sum_minbin_length_lt h1 (alphabetOf_nodup text) fun x hx =>
    hfit.2 x (mem_alphabetOf.mp hx)
  rw [chartOf_length hne]
  omega

/-- Settles O25: the sum over the entries, and at `SYMW = 16` the bound `1 + 65536 * 22 + 65536 * 16`. -/
theorem chartLengthHasItsClosedForm : Obligations.ChartLengthHasItsClosedForm :=
  ⟨fun _ _ hne hw => chartText_length hne hw, fun _ hne hfit => chartOf_length_lt (by decide) hne hfit⟩

end Sys2Proof.Machine
end

section
/-! PROOF. The encodings: code words and instructions, stage codes, error codes, and the word placed for the
next step (rules R59 to R61, R84, R153). -/

namespace Sys2Proof.Machine

variable {s : State} {i : Instr} {w : CodeWord}

/-! ### Code words -/

theorem decode_encode (i : Instr) : decode (encode i) = .ok i := by
  cases i with
  | compress => exact Laws.EncodedWord.compress.2
  | decompress => exact Laws.EncodedWord.decompress.2
  | extract => exact Laws.EncodedWord.extract.2
  | build => exact Laws.EncodedWord.build.2
  | encode => exact Laws.EncodedWord.encode.2
  | pack => exact Laws.EncodedWord.pack.2
  | serialize => exact Laws.EncodedWord.serialize.2
  | parse => exact Laws.EncodedWord.parse.2
  | unpack => exact Laws.EncodedWord.unpack.2

theorem encode_decodeCmd (mode : BitVec 1) : encode (decodeCmd mode) = .cmd mode := by
  obtain rfl | rfl := mode.eq_zero_or_eq_one
  · rfl
  · rfl

theorem encode_of_decodePhase {code : BitVec 3} (h : decodePhase code = .ok i) :
    encode i = .phase code := by
  unfold decodePhase at h
  split_ifs at h <;> cases h <;> subst code <;> rfl

/-- A word that decodes is the code word of what it decodes to (rule R84). -/
theorem encode_of_decode (h : decode w = .ok i) : encode i = w := by
  cases w with
  | cmd mode =>
    cases h
    exact encode_decodeCmd mode
  | phase code => exact encode_of_decodePhase h

/-- Settles O1: the values of the two modes, and a decoder that rejects none. -/
theorem commandModeBitSelectsTheCommand : Obligations.CommandModeBitSelectsTheCommand :=
  ⟨decode_encode .compress, decode_encode .decompress, fun mode => ⟨decodeCmd mode, rfl⟩⟩

/-- The eight stage codes are all the words of three bits (rule R60). -/
theorem code_phaseOfCode (c : BitVec 3) : (phaseOfCode c).code = c := by
  revert c
  decide

/-- Settles O2: each stage's code word decodes to it, and IDLE's code to nothing. -/
theorem phaseCodesSelectTheStages : Obligations.PhaseCodesSelectTheStages :=
  ⟨fun _ => nofun, decode_encode .extract, decode_encode .build, decode_encode .encode,
    decode_encode .pack, decode_encode .serialize, decode_encode .parse, decode_encode .unpack,
    code_phaseOfCode, rfl⟩

/-- Settles O3: decoder and encoder are inverse to each other. -/
theorem decodeAcceptsExactlyTheEncodedWords : Obligations.DecodeAcceptsExactlyTheEncodedWords :=
  fun _ i => ⟨encode_of_decode, fun h => h ▸ decode_encode i⟩

/-! ### Errors -/

/-- The errors in the order of the table of rule R153. -/
def codecErrors : List CodecError :=
  [.emptyInput, .unmappedSymbol, .truncatedHeader, .truncatedChart, .malformedChart, .unknownCode,
    .invalidHeader, .alphabetTooLarge, .widthOverflow, .chartTooLarge]

/-- The table of rule R153 has every error. -/
theorem mem_codecErrors (e : CodecError) : e ∈ codecErrors := by
  cases e <;> decide

/-- The values `ERRCODE` can take are those of no error and of the table's errors (rule R61). -/
theorem exists_errCode_eq {code : BitVec 8} :
    (∃ e, errCode e = code) ↔ code ∈ (none :: codecErrors.map some).map errCode := by
  have hall : ∀ e : Option CodecError, e ∈ none :: codecErrors.map some
    | none => List.mem_cons_self
    | some e => List.mem_cons_of_mem _ (List.mem_map_of_mem (mem_codecErrors e))
  simp only [List.mem_map, hall, true_and]

/-- Settles O5: the columns of the table of rule R153, and that it has every error. -/
theorem errorsHaveTheirCodesClassesAndStages : Obligations.ErrorsHaveTheirCodesClassesAndStages := by
  refine ⟨rfl, rfl, rfl, fun _ => exists_errCode_eq, fun e p => ?_⟩
  cases e <;> simp [CodecError.raisedBy]

/-! ### The word placed for the next step -/

/-- A table word that decodes is a code word's number, and decodes as that code word. -/
theorem decodeTableWord_eq_some {nbits n : Nat} (h : decodeTableWord nbits n = some i) :
    ∃ w, codeWordOf nbits n = .ok w ∧ decode w = .ok i := by
  cases hw : codeWordOf nbits n with
  | error e => simp [decodeTableWord, decodeNumber, hw] at h
  | ok w =>
    cases hd : decode w with
    | error e => simp [decodeTableWord, decodeNumber, hw, hd] at h
    | ok j =>
      obtain rfl : j = i := by simpa [decodeTableWord, decodeNumber, hw, hd] using h
      exact ⟨w, rfl, hd⟩

theorem withFetchWord_eq {nbits n : Nat} (h : codeWordOf nbits n = .ok w) :
    s.withFetchWord nbits n = placeWord w s := by
  simp only [State.withFetchWord, placeNumber, h]

/-- The turn after placing a word is that word's: the host's `CMD` write, or the stage that runs. -/
theorem nextTurn_placeWord (w : CodeWord) (s : State) : nextTurn (placeWord w s) = .run w := by
  cases w with
  | cmd mode => rfl
  | phase code =>
    show Turn.run (.phase (phaseOfCode code).code) = _
    rw [code_phaseOfCode]

/-- Placing a word writes `STATUS`, and the host is past one action in front of those still to come. -/
theorem consumeEvent_placeWord (w : CodeWord) (s : State) :
    ∃ st e, consumeEvent (placeWord w s) =
      ((s.setStatus st).setHost (e :: s.host.drop s.hostPos)).setHostPos 1 := by
  cases w with
  | cmd mode => exact ⟨_, _, consumeEvent_withEvent _ _⟩
  | phase code => exact ⟨_, _, consumeEvent_withEvent _ _⟩

theorem idle_placeWord_cmd (mode : BitVec 1) (s : State) : Idle (placeWord (.cmd mode) s) := rfl

theorem running_placeWord_phase (code : BitVec 3) (s : State) :
    Running (phaseOfCode code) (placeWord (.phase code) s) := ⟨rfl, rfl⟩

/-- Settles O7: the placed word is the next turn's, and the host's move past its action leaves `STATUS`. -/
theorem placedTableWordIsRunByTheNextStep : Obligations.PlacedTableWordIsRunByTheNextStep := by
  intro s nbits n i h
  obtain ⟨w, hw, hd⟩ := decodeTableWord_eq_some h
  obtain ⟨st, e, ht⟩ := consumeEvent_placeWord w s
  rw [withFetchWord_eq hw]
  refine ⟨consumeEvent (placeWord w s), step_run (nextTurn_placeWord w s) hd, ?_, ?_, ?_, ?_⟩
  · rw [ht]; rfl
  · rw [ht]; rfl
  · intro mode hm
    obtain rfl : w = .cmd mode := (encode_of_decode hd).symm.trans hm
    rw [Idle, consumeEvent_status]
    exact idle_placeWord_cmd mode s
  · intro code hc
    obtain rfl : w = .phase code := (encode_of_decode hd).symm.trans hc
    rw [Running, consumeEvent_status]
    exact running_placeWord_phase code s

end Sys2Proof.Machine
end

section
/-! PROOF. EXTRACT: the order of the alphabet is that of the first occurrences in the text (rules R85, R86),
and an empty text is an error before anything is written (rules R87, R140). -/

namespace Sys2Proof.Machine

variable {s : State}

/-! ### The order of first occurrence -/

/-- What follows a list does not change which elements come after a member of it. -/
theorem idxOf_append_lt_idxOf_append_iff {l : List Symbol} {p : Symbol} (hp : p ∈ l)
    (r : List Symbol) (q : Symbol) :
    (l ++ r).idxOf p < (l ++ r).idxOf q ↔ l.idxOf p < l.idxOf q := by
  have hlt : l.idxOf p < l.length := List.idxOf_lt_length_of_mem hp
  rw [List.idxOf_append_of_mem hp]
  by_cases hq : q ∈ l
  · rw [List.idxOf_append_of_mem hq]
  · rw [List.idxOf_append_of_notMem hq, List.idxOf_of_notMem hq]
    omega

/-- After a new last element come only the elements that do not occur. -/
theorem idxOf_concat_self_lt_idxOf_iff {l : List Symbol} {x : Symbol} (hx : x ∉ l) (q : Symbol) :
    (l ++ [x]).idxOf x < (l ++ [x]).idxOf q ↔ q ∉ l ++ [x] := by
  have hlast : (l ++ [x]).idxOf x + 1 = (l ++ [x]).length := by
    simp [List.idxOf_append_of_notMem hx]
  rw [← List.idxOf_lt_length_iff]
  omega

theorem extractFrom_append (alpha l r : List Symbol) :
    extractFrom alpha (l ++ r) = extractFrom (extractFrom alpha l) r := by
  induction l generalizing alpha with
  | nil => rfl
  | cons x l ih => exact ih _

/-- One more symbol of the text: it is appended where it is new (rule R85). -/
theorem alphabetOf_concat (text : List Symbol) (x : Symbol) :
    alphabetOf (text ++ [x]) = if x ∈ text then alphabetOf text else alphabetOf text ++ [x] := by
  rw [alphabetOf, extractFrom_append, ← alphabetOf]
  simp only [extractFrom, mem_alphabetOf]

/-- One symbol comes before another in the alphabet exactly when its first occurrence in the text does
(rule R86). Induction over the symbols read so far; `q` need not occur. -/
theorem idxOf_alphabetOf_lt_iff {text : List Symbol} {p : Symbol} (hp : p ∈ text) (q : Symbol) :
    (alphabetOf text).idxOf p < (alphabetOf text).idxOf q ↔ text.idxOf p < text.idxOf q := by
  induction text using List.reverseRecOn with
  | nil => cases hp
  | append_singleton text x ih =>
    by_cases hpt : p ∈ text
    · have hpa : p ∈ alphabetOf text := mem_alphabetOf.mpr hpt
      rw [idxOf_append_lt_idxOf_append_iff hpt, ← ih hpt, alphabetOf_concat]
      split
      · rfl
      · exact idxOf_append_lt_idxOf_append_iff hpa [x] q
    · obtain rfl : p = x := by simpa [hpt] using hp
      have hpa : p ∉ alphabetOf text := mt mem_alphabetOf.mp hpt
      rw [alphabetOf_concat, if_neg hpt, idxOf_concat_self_lt_idxOf_iff hpa,
        idxOf_concat_self_lt_idxOf_iff hpt]
      simp [mem_alphabetOf]

/-- The alphabet begins with the text's first symbol. -/
theorem head?_alphabetOf (text : List Symbol) : (alphabetOf text).head? = text.head? := by
  cases text with
  | nil => rfl
  | cons x rest =>
    obtain ⟨tail, h⟩ : [x] <+: alphabetOf (x :: rest) := prefix_extractFrom [x] rest
    rw [← h]; rfl

theorem text_ne_nil (h : s.txi.len ≠ 0) : s.text ≠ [] := by
  rwa [← List.length_pos_iff, State.text_length, Nat.pos_iff_ne_zero]

/-- Settles O16: the alphabet EXTRACT writes has every symbol of the text once, in the order of first
occurrence. -/
theorem extractKeepsFirstOccurrenceOrder : Obligations.ExtractKeepsFirstOccurrenceOrder := by
  intro s h
  exact ⟨alphabetOf s.text, execExtract_eq (text_ne_nil h), alphabetOf_nodup s.text,
    fun _ => mem_alphabetOf, fun _ hp q _ => idxOf_alphabetOf_lt_iff (mem_alphabetOf.mp hp) q,
    head?_alphabetOf s.text⟩

/-! ### The empty text -/

/-- The length alone is tested, and the stores stay as they are (rule R87). -/
theorem execExtract_empty (h : s.txi.len = 0) : execExtract s = .next (raiseError .emptyInput s) := by
  rw [execExtract, extractStage, if_pos (by rwa [State.text_length])]; rfl

/-- COMPRESS of an empty text is its start and EXTRACT's error; the later stages do not run (rule R140). -/
theorem exec_compress_empty (hi : Idle s) (h : s.txi.len = 0) :
    exec .compress s = .next (raiseError .emptyInput (startCompress s)) := by
  rw [exec_compress_eq hi, execExtract_empty (s := startCompress s) h, thenStage_idle rfl]

/-- The `STATUS` word in which COMPRESS of an empty text ends: `ERRCODE` 0x11, `PHASE` EXTRACT, `ERR` alone
(rule R140). -/
theorem word_failed_emptyInput : ((Status.started .extract).failed .emptyInput).word = 0x110C#16 := by
  decide

/-- Settles O17: EXTRACT raises EmptyInputError in front of its work, and COMPRESS ends with it. -/
theorem emptyTextRaisesEmptyInput : Obligations.EmptyTextRaisesEmptyInput :=
  ⟨fun _ h => execExtract_empty h,
    fun _ hi h => ⟨_, exec_compress_empty hi h, rfl, rfl, word_failed_emptyInput, rfl⟩⟩

end Sys2Proof.Machine
end

section
/-! PROOF. BUILD: the width it computes and the codes it assigns (rules R90, R91, R94), and its two errors,
alone and inside COMPRESS (rules R92, R93, R130). -/

namespace Sys2Proof.Machine

variable {s : State}

/-! ### The width and the codes -/

/-- No smaller width of at least one bit has a code for every symbol (rule R90). -/
theorem codeWidth_le {k n : Nat} (hn : 1 ≤ n) (h : k ≤ 2 ^ n) : codeWidth k ≤ n :=
  max_le hn (clog2_le_of_le_two_pow h)

/-- The code in pair number `j` is that of the index `j` places behind the first (rule R91). -/
theorem assignCodes_codes_getElem? {w i j : Nat} {alpha : List Symbol} (h : j < alpha.length) :
    ((assignCodes w i alpha).map Prod.snd)[j]? = some (bin w (i + j)) := by
  rw [assignCodes_map_snd, List.getElem?_map, List.getElem?_range' h, Nat.one_mul]; rfl

/-- Settles O18: BUILD writes `codeWidth` and the table of `assignCodes`; the width has a code for every
index, so each code's value is its index. -/
theorem buildAssignsIndexCodesOfLeastWidth : Obligations.BuildAssignsIndexCodesOfLeastWidth := by
  intro s ha hw
  have hfit := le_two_pow_codeWidth s.enc.alpha.length
  refine ⟨_, _, execBuild_eq ha hw, codeWidth_pos _, hfit, fun _ => codeWidth_le,
    assignCodes_map_fst _ _ _, fun i hi => ?_, assignCodes_codes_nodup (by rwa [Nat.zero_add])⟩
  rw [assignCodes_length] at hi
  exact ⟨_, by rw [assignCodes_codes_getElem? hi, Nat.zero_add], rfl, bin_length _ _,
    val_bin_of_lt (hi.trans_le hfit)⟩

/-! ### The errors -/

/-- The alphabet's length is tested before anything is written (rule R93). -/
theorem execBuild_empty (h : s.enc.alpha = []) : execBuild s = .next (raiseError .emptyInput s) := by
  rw [execBuild, buildStage, if_pos (List.length_eq_zero_iff.mpr h)]; rfl

/-- The width is tested before it is written (rule R92). -/
theorem execBuild_tooLarge (h : s.enc.alpha ≠ []) (hw : s.cfg.idxw ≤ codeWidth s.enc.alpha.length) :
    execBuild s = .next (raiseError .alphabetTooLarge s) := by
  rw [execBuild, buildStage, if_neg (mt List.eq_nil_of_length_eq_zero h), if_pos hw]; rfl

/-- Settles O19: each test stands in front of the stage's writes. -/
theorem buildRaisesItsErrorsBeforeWriting : Obligations.BuildRaisesItsErrorsBeforeWriting :=
  fun _ => ⟨execBuild_empty, execBuild_tooLarge⟩

/-- COMPRESS of a text whose width reaches `IDXW` is its start, EXTRACT and BUILD's error; the later stages do
not run (rules R92, R130). -/
theorem exec_compress_tooLarge (hi : Idle s) (ht : s.text ≠ []) (hw : s.cfg.idxw ≤ widthOf s.text) :
    exec .compress s = .next (raiseError .alphabetTooLarge
      (setPhase .build ((startCompress s).setEnc { EncStores.empty with alpha := alphabetOf s.text }))) := by
  have ha : alphabetOf s.text ≠ [] := List.ne_nil_of_length_pos (alphabetOf_length_pos ht)
  -- `by exact` checks a premise only once `rw` has found the stage's state.
  rw [exec_compress_eq hi, execExtract_eq (s := startCompress s) ht, thenStage_busy rfl,
    execBuild_tooLarge (by exact ha) (by exact hw), thenStage_idle rfl]
  rfl

/-- The `STATUS` word of an end by AlphabetTooLargeError: `ERRCODE` 0x31, `PHASE` BUILD, `ERR` alone. -/
theorem word_failed_alphabetTooLarge :
    ((Status.started .build).failed .alphabetTooLarge).word = 0x3114#16 := by
  decide

/-- Settles O45: the error's state has EXTRACT's alphabet in group C and is otherwise the start's, whose
output is empty. -/
theorem compressOfTooLargeAlphabetFails : Obligations.CompressOfTooLargeAlphabetFails := fun _ hi hl hw =>
  ⟨_, exec_compress_tooLarge hi (text_ne_nil hl) hw, word_failed_alphabetTooLarge, rfl, rfl, rfl⟩

end Sys2Proof.Machine
end

section
/-! PROOF. ENCODE and PACK: the code a symbol is looked up to, the bits of a text and their two ends (rules R95
to R98), and the padding and the bytes of a bit sequence (rules R99 to R102). -/

namespace Sys2Proof.Machine

variable {s : State}

/-! ### ENCODE -/

/-- Settles O20: `encodeText` is the concatenation for a text whose symbols all have a pair; equally wide codes
fix its length and its windows. -/
theorem encodeConcatenatesTheCodes : Obligations.EncodeConcatenatesTheCodes := by
  intro s hmapped
  have hm : allMapped s.enc.table s.text = true := allMapped_iff.mpr hmapped
  refine ⟨_, execEncode_eq hm, encodeText_eq_flatten hm, fun w hw => ⟨?_, fun i x hx => ?_⟩⟩
  · rw [encodeText_length hw hm, State.text_length]
  · exact windowAt_encodeText hw hm hx

/-- The lookup answers the code of the first pair with the symbol: the head's, or the one the tail's lookup
finds, all of whose indices move up by one (rule R96). -/
theorem lookupCode_eq_some_iff {table : List (Symbol × Bits)} {x : Symbol} {c : Bits} :
    lookupCode table x = some c ↔
      ∃ i : Nat, table[i]? = some (x, c) ∧
        ∀ j : Nat, j < i → ∀ e : Symbol × Bits, table[j]? = some e → e.1 ≠ x := by
  induction table with
  | nil => simp [lookupCode]
  | cons e table ih =>
    obtain ⟨t, d⟩ := e
    rw [lookupCode, ← Nat.or_exists_add_one]
    simp only [Nat.forall_lt_succ_left]
    by_cases htx : t = x
    · simp [htx]
    · simp [htx, ih]

/-- A symbol of the text without a pair ends ENCODE by its error (rule R97). -/
theorem execEncode_unmapped (h : allMapped s.enc.table s.text = false) :
    execEncode s = .next (raiseError .unmappedSymbol
      (s.setEnc { s.enc with bits := encodeText s.enc.table s.text })) := by
  rw [execEncode, encodeStage, h]; rfl

/-- Settles O21: the lookup's first pair, and a symbol without a pair makes `allMapped` fail. -/
theorem unmappedSymbolRaises : Obligations.UnmappedSymbolRaises := by
  refine ⟨fun _ _ _ => lookupCode_eq_some_iff, fun s x hx hnone => ⟨_, execEncode_unmapped ?_⟩⟩
  refine Bool.eq_false_iff.mpr fun hm => ?_
  obtain ⟨c, hc⟩ := allMapped_iff.mp hm x hx
  exact hnone c hc

/-! ### PACK -/

/-- The padding is what the bits lack to the next multiple of 8 (rule R100). -/
theorem padLength_eq_sub (n : Nat) : (padLength n).val = 8 * ceilDiv n 8 - n := by
  rw [← add_padLength, Nat.add_sub_cancel_left]

/-- A window inside the bits has its full width. -/
theorem windowAt_length {bits : Bits} {w m : Nat} (h : (m + 1) * w ≤ bits.length) :
    (windowAt bits w m).length = w := by
  rw [Nat.succ_mul] at h
  simp only [windowAt, List.length_take, List.length_drop]
  omega

/-- Byte number `j` has the value of window number `j` of eight bits (rule R101). -/
theorem packBytes_toNat {n j : Nat} {bits : Bits} {b : Byte} (hn : 8 * n ≤ bits.length)
    (h : (packBytes n bits)[j]? = some b) : b.toNat = val (windowAt bits 8 j) := by
  have hj : j < n := packBytes_length n bits ▸ (List.getElem?_eq_some_iff.mp h).1
  have hb : byteOfBits (windowAt bits 8 j) = b := by
    rw [packBytes_getElem? n bits j hj, Nat.mul_comm] at h
    exact Option.some.inj h
  rw [← hb, byteOfBits_toNat (windowAt_length (by omega))]

/-- Settles O22: the padded bits fill `ceilDiv L 8` bytes, so each byte is a whole window of them. -/
theorem packPadsAndPacksMsbFirst : Obligations.PackPadsAndPacksMsbFirst := by
  intro s
  have hbytes : (padBits s.enc.bits).length / 8 = ceilDiv s.enc.bits.length 8 := by
    rw [padBits_length, Nat.mul_div_cancel_left _ (by decide)]
  exact ⟨_, _, _, execPack_eq s, padLength_val _, padLength_eq_sub _, rfl, padBits_length _,
    (packBytes_length _ _).trans hbytes, fun _ _ => packBytes_toNat (Nat.mul_div_le _ _)⟩

end Sys2Proof.Machine
end

section
/-! PROOF. SERIALIZE: the container it commits (rules R103, R104), and its two errors, alone and inside COMPRESS
(rules R105 to R107, R130). -/

namespace Sys2Proof.Machine

variable {s : State}

/-! ### The container -/

/-- The commit of a container that fits `CTO`: the buffer holds it, and the command has ended `done` (rule
R129). -/
theorem commitContainer_eq {c : List Byte} (h : withinCap s.cfg.ctoCap c.length = true) :
    commitContainer c s = .next ((s.setCto (Buffer.holding c)).setStatus s.status.finished) := by
  rw [commitContainer, h]; rfl

/-- The six bytes of the header, the chart and the payload (rule R104). -/
theorem container_withChart_length (e : EncStores) :
    e.withChart.container.length = 6 + (chartText e.table).length + e.payload.length := by
  simp only [EncStores.container, containerBytes, List.length_append, be32_length]
  rfl

/-- Settles O23: the stage comes down to the commit of its container, whose five fields are those of
`containerBytes`. -/
theorem serializeWritesTheContainer : Obligations.SerializeWritesTheContainer := by
  intro s hw hc hcap
  rw [← container_withChart_length] at hcap
  refine ⟨_, (execSerialize_eq hw hc).trans (commitContainer_eq hcap), ?_,
    container_withChart_length s.enc, rfl, rfl, rfl⟩
  exact Buffer.contents_holding s.enc.withChart.container _

/-! ### The errors -/

/-- The width is tested before anything is written (rule R105). -/
theorem execSerialize_widthOverflow (h : Config.widthMax < s.enc.width) :
    execSerialize s = .next (raiseError .widthOverflow s) := by
  rw [execSerialize, serializeStage, if_pos h]; rfl

/-- The chart's length is tested once the chart and its length are written (rules R106, R107). -/
theorem execSerialize_chartTooLarge (hw : s.enc.width ≤ Config.widthMax)
    (hc : Config.chartSizeMax < (chartText s.enc.table).length) :
    execSerialize s = .next (raiseError .chartTooLarge (s.setEnc s.enc.withChart)) := by
  have hc' : Config.chartSizeMax < s.enc.withChart.chartSize := hc
  rw [execSerialize, serializeStage, if_neg (Nat.not_lt.mpr hw), if_pos hc']; rfl

/-- Settles O24: the width's test stands in front of the chart's, and neither reads the padding. -/
theorem serializeRaisesItsErrorsInOrder : Obligations.SerializeRaisesItsErrorsInOrder :=
  fun _ => ⟨execSerialize_widthOverflow, execSerialize_chartTooLarge⟩

/-! ### The errors inside COMPRESS -/

/-- The `STATUS` word of an end by WidthOverflowError: `ERRCODE` 0x32, `PHASE` SERIALIZE, `ERR` alone. -/
theorem word_failed_widthOverflow :
    ((Status.started .serialize).failed .widthOverflow).word = 0x322C#16 := by
  decide

/-- The `STATUS` word of an end by ChartTooLargeError: `ERRCODE` 0x33, `PHASE` SERIALIZE, `ERR` alone. -/
theorem word_failed_chartTooLarge :
    ((Status.started .serialize).failed .chartTooLarge).word = 0x332C#16 := by
  decide

/-- Settles O59: COMPRESS comes down to SERIALIZE of the text's width and chart, so it takes SERIALIZE's
errors; the output is still the start's, which is empty. -/
theorem compressBeyondTheFieldsFails : Obligations.CompressBeyondTheFieldsFails := by
  intro s hi hl hidx
  have hser := exec_compress_eq_serialize hi (text_ne_nil hl) hidx
  exact ⟨
    fun hw => ⟨_, hser.trans (execSerialize_widthOverflow hw), word_failed_widthOverflow, rfl, rfl⟩,
    fun hw hc => ⟨_, hser.trans (execSerialize_chartTooLarge hw hc), word_failed_chartTooLarge, rfl, rfl⟩⟩

end Sys2Proof.Machine
end

section
/-! PROOF. PARSE: the fields of a container it accepts (rules R111, R114), and the first error of one it does not
(rule R117). -/

namespace Sys2Proof.Machine

variable {s : State}

/-! ### The accepted container -/

/-- Settles O28: the fields pass each of PARSE's tests, and what remains is the write of its five stores. -/
theorem parseReadsHeaderChartAndPayload : Obligations.ParseReadsHeaderChartAndPayload :=
  fun _ _ _ _ _ _ _ _ _ _ => execParse_eq

/-! ### The errors -/

/-- An error of PARSE's work is the one the stage takes, and the work writes its own five stores only. -/
theorem parseRaises_of_raised {e : CodecError}
    (h : (parseStage s.cfg.symw s.input s.dec).raised = some e) : ParseRaises s e := by
  obtain ⟨-, width, pad, chartSize, table, payload, hstores⟩ := parseStage_spec s.cfg.symw s.input s.dec
  refine ⟨(parseStage s.cfg.symw s.input s.dec).stores, ?_, ?_, ?_, ?_⟩
  · show endDecStage _ s _ = _
    rw [endDecStage, h]
  all_goals rw [hstores]

section Fields
variable {w p b2 b3 b4 b5 : Byte} {rest : List Byte} {n : Nat}
  (hin : s.input = w :: p :: b2 :: b3 :: b4 :: b5 :: rest)
include hin

/-- `CTI_LEN` counts the six bytes of the header and those after them. -/
theorem ctiLen_of_input : s.cti.len = 6 + rest.length := by
  rw [← State.input_length, hin, Nat.add_comm]; rfl

/-- The error of PARSE's work on an input of at least six bytes: the first test that fails (rule R117). -/
theorem parseStage_raised_eq
    (hn : n = b2.toNat * 2 ^ 24 + b3.toNat * 2 ^ 16 + b4.toNat * 2 ^ 8 + b5.toNat) :
    (parseStage s.cfg.symw s.input s.dec).raised =
      if w = 0#8 ∨ 7 < p.toNat then some .invalidHeader
      else if rest.length < n then some .truncatedChart
      else if rest.length = n ∧ p ≠ 0#8 then some .invalidHeader
      else if parseChart s.cfg.symw (rest.take n) w.toNat = none then some .malformedChart
      else none := by
  rw [hin, parseStage_eq hn]
  simp only [apply_ite StageResult.raised]
  cases parseChart s.cfg.symw (rest.take n) w.toNat <;> rfl

end Fields

/-- Settles O29: an input of fewer than six bytes fails PARSE's first test; on the others each clause names the
first test that fails, once the tests are read as tests of `CTI_LEN`. -/
theorem parseRaisesTheFirstErrorInOrder : Obligations.ParseRaisesTheFirstErrorInOrder := by
  refine fun s => ⟨fun h => parseRaises_of_raised ?_, fun w p b2 b3 b4 b5 rest n hin hn => ?_⟩
  · rw [parseStage_short (by rwa [State.input_length])]
  · have hraised := parseStage_raised_eq hin hn
    have hheader (hw : w ≠ 0#8) (hp : p.toNat ≤ 7) : ¬(w = 0#8 ∨ 7 < p.toNat) :=
      not_or.mpr ⟨hw, Nat.not_lt.mpr hp⟩
    rw [ctiLen_of_input hin]
    simp only [Nat.add_lt_add_iff_left, Nat.add_le_add_iff_left, Nat.add_left_cancel_iff]
    refine ⟨fun h => parseRaises_of_raised ?_, fun hw hp h => parseRaises_of_raised ?_,
      fun hw hp h hpad => parseRaises_of_raised ?_,
      fun hw hp h hpad hchart => parseRaises_of_raised ?_⟩
    · rw [hraised, if_pos h]
    · rw [hraised, if_neg (hheader hw hp), if_pos h]
    · rw [hraised, if_neg (hheader hw hp), if_neg h.not_lt, if_pos ⟨h, hpad⟩]
    · have hpayload : ¬(rest.length = n ∧ p ≠ 0#8) := fun ⟨hlen, hne⟩ => hne (hpad hlen)
      rw [hraised, if_neg (hheader hw hp), if_neg h.not_gt, if_neg hpayload, if_pos hchart]

end Sys2Proof.Machine
end

section
/-! PROOF. UNPACK: the text of the whole windows (rules R121, R123), the window without an entry (rule R122), and
the stops where the precondition PARSE establishes fails (rules R118, R186). -/

namespace Sys2Proof.Machine

variable {s : State}

/-! ### The whole windows -/

theorem commitText_eq {x : List Symbol} (h : withinCap s.cfg.txoCap x.length = true) :
    commitText x s = .next ((s.setTxo (Buffer.holding x)).setStatus s.status.finished) := by
  rw [commitText, h]; rfl

/-- The stores UNPACK writes, in the terms of the claims (rules R120 to R122). -/
theorem unpackStage_stores (d : DecStores) :
    (unpackStage d).stores =
      { d with
        bits := payloadBits d.payload d.pad.toNat
        pos := d.width.toNat * d.decoding.length
        out := d.decoding } := by
  rw [← unpadded_eq]; rfl

/-- Whole windows that all have an entry are decoded to their symbols (rule R121). -/
theorem decoding_eq {d : DecStores} {symbols : List Symbol} (h : DecodesTo d symbols) :
    d.decoding = symbols := by
  have hcount : d.windowCount = symbols.length := h.length.symm
  rw [DecStores.decoding, hcount, unpadded_eq, decodeWindows_eq h.windows]

/-- Settles O31: the loop reaches the last whole window, and the text it has decoded is committed. -/
theorem unpackDecodesTheWholeWindows : Obligations.UnpackDecodesTheWholeWindows := by
  intro s symbols hw hp hlen hwin hcap
  have hd : DecodesTo s.dec symbols := ⟨hw, hp, hlen, hwin⟩
  have hstores := unpackStage_stores s.dec
  rw [decoding_eq hd] at hstores
  exact ⟨_, (execUnpack_eq_commit hd).trans (commitText_eq hcap), Buffer.contents_holding symbols _, rfl,
    hstores, rfl, rfl⟩

/-! ### A window without an entry -/

/-- A lookup finds nothing exactly where no pair has the code (rule R122). -/
theorem lookupSymbol_eq_none_iff_fst_ne {table : List (Bits × Symbol)} {w : Bits} :
    lookupSymbol table w = none ↔ ∀ e ∈ table, e.1 ≠ w := by
  rw [lookupSymbol_eq_none]
  constructor
  · rintro h ⟨c, x⟩ he rfl
    exact h x he
  · exact fun h x hx => h _ hx rfl

/-- Where some whole window has no entry, the loop ends before the last window (rule R122). -/
theorem decoding_length_lt {d : DecStores} {m : Nat} (hm : m < d.windowCount)
    (h : lookupSymbol d.table (windowAt (payloadBits d.payload d.pad.toNat) d.width.toNat m) = none) :
    d.decoding.length < d.windowCount := by
  rw [← unpadded_eq] at h
  exact (decodeWindows_length_le hm h).trans_lt hm

/-- Settles O32: the lookup by its two laws; UNPACK by the loop, which ends before its last window. -/
theorem unknownWindowRaisesAndDeliversNothing : Obligations.UnknownWindowRaisesAndDeliversNothing := by
  refine ⟨fun _ _ _ h => lookupSymbol_eq_some h, fun _ _ => lookupSymbol_eq_none_iff_fst_ne,
    fun s m hw hp hm hnone => ⟨(unpackStage s.dec).stores, ?_, rfl, rfl, rfl, rfl, rfl⟩⟩
  have hshort : s.dec.decoding.length < s.dec.windowCount := decoding_length_lt hm hnone
  exact (execUnpack_eq hw hp).trans (if_neg hshort.ne)

/-! ### Outside the precondition -/

/-- More padding than payload bits leaves no length `Lt` (rule R149 (e)). -/
theorem execUnpack_paddingExceedsPayload (h : 8 * s.dec.payload.length < s.dec.pad.toNat) :
    execUnpack s = .fault .paddingExceedsPayload := if_pos h

theorem execUnpack_widthZero (hp : s.dec.pad.toNat ≤ 8 * s.dec.payload.length)
    (hw : s.dec.width = 0#8) : execUnpack s = unpackWidthZero s := by
  rw [execUnpack, if_neg hp.not_gt, if_pos hw]

/-- An empty window with an entry is looked up again and again (rules R133, R186). -/
theorem unpackWidthZero_of_entry {x : Symbol} (h : lookupSymbol s.dec.table [] = some x) :
    unpackWidthZero s = .fault .windowNeverAdvances := by
  rw [unpackWidthZero, h]

theorem unpackWidthZero_of_no_entry (h : lookupSymbol s.dec.table [] = none) :
    unpackWidthZero s = .next (raiseError .unknownCode
      (s.setDec { s.dec with bits := s.dec.unpadded, pos := 0, out := [] })) := by
  rw [unpackWidthZero, h]

/-- Settles O33: the padding is tested first, and at width 0 the lookup of the empty window decides. -/
theorem unpackStopsOutsideItsPrecondition : Obligations.UnpackStopsOutsideItsPrecondition := by
  refine fun s => ⟨execUnpack_paddingExceedsPayload, fun hp hw => ⟨fun ⟨x, hx⟩ => ?_, fun hno => ?_⟩⟩
  · have hsome : lookupSymbol s.dec.table [] ≠ none := fun h => lookupSymbol_eq_none.mp h x hx
    obtain ⟨y, hy⟩ := Option.ne_none_iff_exists'.mp hsome
    exact (execUnpack_widthZero hp hw).trans (unpackWidthZero_of_entry hy)
  · exact ⟨_, (execUnpack_widthZero hp hw).trans
      (unpackWidthZero_of_no_entry (lookupSymbol_eq_none.mpr hno))⟩

end Sys2Proof.Machine
end

section
/-! PROOF. The step by whose turn it is, and a command's start (rules R19, R25, R127, R128, R131). -/

namespace Sys2Proof.Machine

variable {s : State} {i : Instr}

/-! ### The step by whose turn it is -/

/-- A `CMD` write with the wait for the command's end is the command as one step (rule R128). -/
theorem step_command {mode : BitVec 1} (h : nextEvent s = some (.command mode)) :
    step s = execCommand mode (s.setHostPos (s.hostPos + 1)) := by
  have ht : nextTurn s = .run (.cmd mode) := by simp only [nextTurn, h]
  rw [step_run ht rfl, consumeEvent_of_event h]
  rfl

theorem nextTurn_of_none (h : nextEvent s = none) : nextTurn s = engineTurn s := by
  simp only [nextTurn, h]

theorem nextTurn_of_yield (h : nextEvent s = some .yield) : nextTurn s = engineTurn s := by
  simp only [nextTurn, h]

theorem engineTurn_busy (hb : s.status.busy = true) : engineTurn s = .run (.phase s.status.phase.code) :=
  if_pos hb

theorem engineTurn_idle (hi : Idle s) : engineTurn s = .idle := by
  rw [engineTurn, hi]; rfl

/-- While a command runs, the engine's turn runs the stage that `PHASE` names (rule R19). -/
theorem step_stage (ht : nextTurn s = engineTurn s) (hb : s.status.busy = true)
    (hd : decode (.phase s.status.phase.code) = .ok i) : step s = exec i (consumeEvent s) :=
  step_run (ht.trans (engineTurn_busy hb)) hd

/-- While no command runs, the engine's turn changes nothing (rule R176). -/
theorem step_engine_idle (ht : nextTurn s = engineTurn s) (hi : Idle s) :
    step s = .next (consumeEvent s) := by
  simp only [step, ht, engineTurn_idle hi]

/-- Settles O6: the turn's word is the one decoded, and each kind of host action has its own rule of `step`. -/
theorem stepRunsTheDecodedInstruction : Obligations.StepRunsTheDecodedInstruction := by
  refine ⟨fun _ _ _ => step_run, fun _ _ => step_command, fun s i hn hb hd => ?_,
    fun s i hy hb hd => ?_, fun _ _ => step_access, fun _ _ => step_start⟩
  · rw [step_stage (nextTurn_of_none hn) hb hd, consumeEvent_of_none hn]
  · rw [step_stage (nextTurn_of_yield hy) hb hd, consumeEvent_of_event hy]

/-! ### `CMD` writes -/

/-- A `CMD` write that only starts a command is ignored while one runs (rule R131). -/
theorem startCommand_busy (mode : BitVec 1) (hb : s.status.busy = true) : startCommand mode s = .next s :=
  whenIdle_busy hb _

/-- Settles O9: both forms of a `CMD` write test `BUSY` first, which the host's move does not change. -/
theorem commandWriteWhileBusyIsIgnored : Obligations.CommandWriteWhileBusyIsIgnored := fun _ mode hb =>
  ⟨execCommand_busy mode hb, startCommand_busy mode hb,
    fun h => (step_command h).trans (execCommand_busy mode hb),
    fun h => (step_start h).trans (startCommand_busy mode hb)⟩

/-- The one-bit mode 0 starts COMPRESS in an idle engine (rule R127). -/
theorem startCommand_zero (hi : Idle s) : startCommand 0#1 s = .next (startCompress s) :=
  whenIdle_idle hi _

/-- The one-bit mode 1 starts DECOMPRESS in an idle engine (rule R127). -/
theorem startCommand_one (hi : Idle s) : startCommand 1#1 s = .next (startDecompress s) :=
  whenIdle_idle hi _

/-- Settles O10: an idle engine performs the start, which writes `STATUS`, one output and one group. -/
theorem commandStartSetsStatusAndEmptiesItsPath : Obligations.CommandStartSetsStatusAndEmptiesItsPath :=
  fun _ hi => ⟨⟨_, startCommand_zero hi, rfl, rfl, rfl, rfl, rfl, rfl, rfl⟩,
    ⟨_, startCommand_one hi, rfl, rfl, rfl, rfl, rfl, rfl, rfl⟩⟩

end Sys2Proof.Machine
end

section
/-! PROOF. The two commands: what they leave unchanged, what they deliver at their end `done`, and the first error
of DECOMPRESS (rules R125, R126, R129, R130, R134). -/

namespace Sys2Proof.Machine

variable {s : State}

/-! ### The frame -/

/-- Settles O39: each command keeps to its path, and the path's frame covers lengths and elements. -/
theorem commandsChangeOnlyTheirOwnPath : Obligations.CommandsChangeOnlyTheirOwnPath := by
  refine ⟨fun s t h => ?_, fun s t h => ?_⟩
  · have hf : CompressFrame s t := exec_compress_frame h
    refine ⟨hf, ?_, ?_, ?_, hf.elements⟩ <;> rw [hf] <;> rfl
  · have hf : DecompressFrame s t := exec_decompress_frame h
    refine ⟨hf, ?_, ?_, ?_, hf.elements⟩ <;> rw [hf] <;> rfl

/-! ### The end `done` -/

/-- The `STATUS` word of an end `done`: `DONE` alone (rule R129). -/
theorem word_finished (p : Phase) : (Status.started p).finished.word = 0x0002#16 := by
  show (Status.started .idle).finished.word = _
  decide

/-- The payload's bytes spell the codes of the text, then the padding's 0 bits (rules R45, R101). -/
theorem packedStores_payload_bits (text : List Symbol) :
    (packedStores text).payload.flatMap bitsOfByte =
      (text.map fun x => (lookupCode (tableOf text) x).getD []).flatten ++
        List.replicate (packedStores text).pad.val false := by
  have hlen : (padBits (encodeText (tableOf text) text)).length =
      8 * ((padBits (encodeText (tableOf text) text)).length / 8) := by
    rw [padBits_length, Nat.mul_div_cancel_left _ (by decide)]
  rw [← expandBytes_eq_flatMap, ← encodeText_eq_flatten (allMapped_tableOf text)]
  exact expandBytes_packBytes _ _ hlen

/-- Settles O34: COMPRESS comes down to the commit of the container of what PACK left, whose payload unpacks to
the padded codes. -/
theorem compressWritesTheContainerOfTheText : Obligations.CompressWritesTheContainerOfTheText := by
  intro s hi hlen hf hcap
  rw [← container_packedStores_length] at hcap
  have hcommit := exec_compress_eq_commit hi (text_ne_nil hlen) hf
  exact ⟨_, (packedStores s.text).pad.val, (packedStores s.text).payload,
    hcommit.trans (commitContainer_eq hcap), Buffer.contents_holding (α := Byte) _ _,
    container_packedStores_length s.text, packedStores_payload_bits s.text, Fin.is_lt _,
    word_finished .serialize, rfl⟩

/-- Settles O35: DECOMPRESS comes down to the commit of the windows' symbols. -/
theorem decompressWritesTheTextOfTheContainer : Obligations.DecompressWritesTheTextOfTheContainer := by
  intro s w p b2 b3 b4 b5 rest n table symbols hi hin hn hw hp hle hempty htable hlen hwin hcap
  have hcommit := exec_decompress_eq_commit hin hn hw hp hle hempty htable hi hlen hwin
  exact ⟨_, hcommit.trans (commitText_eq hcap), Buffer.contents_holding symbols _, rfl,
    word_finished .unpack, rfl⟩

/-! ### The end `error` of DECOMPRESS -/

/-- Padding of at most seven bits, and none on an empty payload, does not exceed the payload (rule R115). -/
theorem padding_le_payload {p : Byte} {rest : List Byte} {n : Nat} (hp : p.toNat ≤ 7)
    (hle : n ≤ rest.length) (hempty : rest.length = n → p = 0#8) : p.toNat ≤ 8 * (rest.drop n).length := by
  rw [List.length_drop]
  rcases hle.eq_or_lt with heq | hlt
  · rw [hempty heq.symm]; exact Nat.zero_le _
  · omega

/-- The `STATUS` word of an end by UnknownCodeError: `ERRCODE` 0x24, `PHASE` UNPACK, `ERR` alone. -/
theorem word_failed_unknownCode : ((Status.started .unpack).failed .unknownCode).word = 0x243C#16 := by
  decide

/-- Settles O46: PARSE's error makes the engine idle, so UNPACK does not run; and a window without an entry ends
UNPACK's loop before its last window. -/
theorem decompressEndsWithTheFirstError : Obligations.DecompressEndsWithTheFirstError := by
  constructor
  · rintro s e hi ⟨d, hparse, hbits, hpos, hout⟩
    have hend : exec .decompress s = .next (raiseError e ((startDecompress s).setDec d)) := by
      rw [exec_decompress_eq hi, show execParse _ = _ from hparse, thenStage_idle rfl]
    refine ⟨⟨_, hend, rfl, rfl, rfl, rfl, rfl⟩, fun t ht => ?_⟩
    cases hend.symm.trans ht
    exact ⟨rfl, hbits, hpos, hout⟩
  · intro s w p b2 b3 b4 b5 rest n m table hi hin hn hw hp hle hempty htable hm hnone
    have hshort : (parsedStores .empty w p n table (rest.drop n)).decoding.length <
        (parsedStores .empty w p n table (rest.drop n)).windowCount :=
      decoding_length_lt (by rw [← List.length_drop] at hm; exact hm) hnone
    have hpad := padding_le_payload hp hle hempty
    -- `by exact` checks a premise only once the state UNPACK runs in is known.
    have hend := (exec_decompress_eq_unpack hin hn hw hp hle hempty htable hi).trans
      ((execUnpack_eq (by exact hw) (by exact hpad)).trans (if_neg hshort.ne))
    refine ⟨⟨_, hend, rfl, rfl, rfl, rfl, rfl⟩, fun t ht => ?_⟩
    cases hend.symm.trans ht
    exact word_failed_unknownCode

end Sys2Proof.Machine
end

section
/-! PROOF. Every command ends, or its output is above its capacity; a step from a state that meets the invariant
stops nowhere else but at an ill-formed access (rules R58, R133, R186). -/

namespace Sys2Proof.Machine

variable {s : State} {cfg : Params} {b : BufName} {n : Nat} {o : Outcome}

/-! ### The ends of a command -/

/-- The outcome is an idle state, or the refusal of an output of `n` elements above the capacity of `b`. -/
def EndsOrAbove (cfg : Params) (b : BufName) (n : Nat) (o : Outcome) : Prop :=
  (∃ t, o = .next t ∧ Idle t) ∨
    o = .refused (.outputExceedsCapacity b) ∧ withinCap (capOf cfg b) n = false

theorem commitContainer_endsOrAbove (c : List Byte) (s : State) :
    EndsOrAbove s.cfg .cto c.length (commitContainer c s) := by
  cases hcap : withinCap s.cfg.ctoCap c.length with
  | true => exact .inl ⟨_, commitContainer_eq hcap, rfl⟩
  | false => exact .inr ⟨commitContainer_refused hcap, hcap⟩

theorem commitText_endsOrAbove (x : List Symbol) (s : State) :
    EndsOrAbove s.cfg .txo x.length (commitText x s) := by
  cases hcap : withinCap s.cfg.txoCap x.length with
  | true => exact .inl ⟨_, commitText_eq hcap, rfl⟩
  | false => exact .inr ⟨commitText_refused hcap, hcap⟩

/-- SERIALIZE ends COMPRESS by an error of its own or by the commit. -/
theorem execSerialize_endsOrAbove (s : State) :
    EndsOrAbove s.cfg .cto s.enc.withChart.container.length (execSerialize s) := by
  by_cases hw : Config.widthMax < s.enc.width
  · exact .inl ⟨_, execSerialize_widthOverflow hw, rfl⟩
  · by_cases hc : Config.chartSizeMax < (chartText s.enc.table).length
    · exact .inl ⟨_, execSerialize_chartTooLarge (Nat.le_of_not_lt hw) hc, rfl⟩
    · rw [execSerialize_eq (Nat.le_of_not_lt hw) (Nat.le_of_not_lt hc)]
      exact commitContainer_endsOrAbove _ _

/-- UNPACK within its precondition ends DECOMPRESS by UnknownCodeError or by the commit. -/
theorem execUnpack_endsOrAbove (hw : s.dec.width ≠ 0#8)
    (hp : s.dec.pad.toNat ≤ 8 * s.dec.payload.length) :
    EndsOrAbove s.cfg .txo s.dec.windowCount (execUnpack s) := by
  rw [execUnpack_eq hw hp]
  split
  · rename_i hall
    rw [← hall]
    exact commitText_endsOrAbove _ _
  · exact .inl ⟨_, rfl, rfl⟩

/-- COMPRESS of an idle engine ends at EXTRACT, at BUILD or at SERIALIZE. -/
theorem exec_compress_endsOrAbove (hi : Idle s) :
    EndsOrAbove s.cfg .cto (containerLengthOf s.text) (exec .compress s) := by
  by_cases hl : s.txi.len = 0
  · exact .inl ⟨_, exec_compress_empty hi hl, rfl⟩
  · by_cases hw : s.cfg.idxw ≤ widthOf s.text
    · exact .inl ⟨_, exec_compress_tooLarge hi (text_ne_nil hl) hw, rfl⟩
    · rw [exec_compress_eq_serialize hi (text_ne_nil hl) (Nat.lt_of_not_le hw),
        ← container_packedStores_length]
      exact execSerialize_endsOrAbove _

/-! ### The windows of a container PARSE accepts -/

theorem withHeader_chartSize (d : DecStores) (c : List Byte) :
    (d.withHeader c).chartSize.toNat = chartSizeField c := by
  show (BitVec.ofNat 32 (chartSizeField c)).toNat = _
  rw [BitVec.toNat_ofNat]
  exact Nat.mod_eq_of_lt (fromBe32_lt _ _ _ _)

theorem parseBody_completed {symw : Nat} {c : List Byte} {d : DecStores}
    (h : (parseBody symw c d).raised = none) :
    ∃ table, (parseBody symw c d).stores =
      { d with payload := payloadRegion c d.chartSize.toNat, table := table } := by
  unfold parseBody at h ⊢
  dsimp only at h ⊢
  split at h
  · cases h
  · rename_i hpayload
    rw [if_neg hpayload]
    split at h
    · cases h
    · exact ⟨_, rfl⟩

/-- PARSE that completes has stored the header, a table and the bytes behind the chart (rules R111, R114). -/
theorem parseStage_completed {symw : Nat} {c : List Byte} {d : DecStores}
    (h : (parseStage symw c d).raised = none) :
    ∃ table, (parseStage symw c d).stores =
      { d.withHeader c with payload := payloadRegion c (chartSizeField c), table := table } := by
  rw [← withHeader_chartSize d c]
  unfold parseStage at h ⊢
  dsimp only at h ⊢
  split at h
  · cases h
  · split at h
    · cases h
    · split at h
      · cases h
      · rename_i hlen hheader hchart
        rw [if_neg hlen, if_neg hheader, if_neg hchart]
        exact parseBody_completed h

/-- The whole windows PARSE leaves to UNPACK are those of rule R151. -/
theorem parseStage_windowCount {symw : Nat} {c : List Byte} {d : DecStores}
    (h : (parseStage symw c d).raised = none) :
    (parseStage symw c d).stores.windowCount = textLengthOf c := by
  obtain ⟨table, hstores⟩ := parseStage_completed h
  rw [hstores, textLengthOf, Nat.sub_sub, ← List.length_drop]
  rfl

theorem execParse_of_raised {e : CodecError} (h : (parseStage s.cfg.symw s.input s.dec).raised = some e) :
    execParse s = .next (raiseError e (s.setDec (parseStage s.cfg.symw s.input s.dec).stores)) := by
  rw [execParse, endDecStage, h]

theorem execParse_of_completed (h : (parseStage s.cfg.symw s.input s.dec).raised = none) :
    execParse s = .next (setPhase .unpack (s.setDec (parseStage s.cfg.symw s.input s.dec).stores)) := by
  rw [execParse, endDecStage, h]; rfl

/-- DECOMPRESS of an idle engine ends at PARSE, or at UNPACK, whose precondition PARSE has established. -/
theorem exec_decompress_endsOrAbove (hi : Idle s) :
    EndsOrAbove s.cfg .txo (textLengthOf s.input) (exec .decompress s) := by
  rw [exec_decompress_eq hi]
  cases hr : (parseStage s.cfg.symw s.input .empty).raised with
  | some e =>
    rw [execParse_of_raised (s := startDecompress s) hr, thenStage_idle rfl]
    exact .inl ⟨_, rfl, rfl⟩
  | none =>
    obtain ⟨hw, -, hp, -⟩ := parseStage_ready hr
    rw [execParse_of_completed (s := startDecompress s) hr, thenStage_busy rfl, ← parseStage_windowCount hr]
    exact execUnpack_endsOrAbove hw hp

/-- Settles O44: the last stage that runs ends the command, and only the commit can refuse. -/
theorem everyCommandEnds : Obligations.EveryCommandEnds :=
  fun _ hi => ⟨exec_compress_endsOrAbove hi, exec_decompress_endsOrAbove hi⟩

/-! ### The stops of a step -/

/-- The outcome is a next state, or the refusal of an output above a capacity that is not unbounded. -/
def NextOrAbove (cfg : Params) (o : Outcome) : Prop :=
  (∃ t, o = .next t) ∨
    ∃ b, o = .refused (.outputExceedsCapacity b) ∧ (b = .cto ∨ b = .txo) ∧ capOf cfg b ≠ none

theorem EndsOrAbove.nextOrAbove (h : EndsOrAbove cfg b n o) (hb : b = .cto ∨ b = .txo) :
    NextOrAbove cfg o := by
  obtain ⟨t, ht, -⟩ | ⟨ho, hcap⟩ := h
  · exact .inl ⟨t, ht⟩
  · refine .inr ⟨b, ho, hb, fun hnone => ?_⟩
    rw [hnone] at hcap
    cases hcap

/-- A command as one step is ignored or ends. -/
theorem execCommand_nextOrAbove (mode : BitVec 1) (s : State) : NextOrAbove s.cfg (execCommand mode s) := by
  cases hb : s.status.busy with
  | true => exact .inl ⟨s, execCommand_busy mode hb⟩
  | false =>
    rw [execCommand]
    obtain hm | hm := decodeCmd_eq mode <;> rw [hm]
    · exact (exec_compress_endsOrAbove hb).nextOrAbove (.inl rfl)
    · exact (exec_decompress_endsOrAbove hb).nextOrAbove (.inr rfl)

/-- A stage that hands over to the next one always answers a next state. -/
theorem endEncStage_advanceTo (r : StageResult EncStores) (s : State) (p : Phase) :
    ∃ t, endEncStage r s (advanceTo p) = .next t := by
  rw [endEncStage]
  cases r.raised with
  | none => exact ⟨_, rfl⟩
  | some e => exact ⟨_, rfl⟩

theorem endDecStage_advanceTo (r : StageResult DecStores) (s : State) (p : Phase) :
    ∃ t, endDecStage r s (advanceTo p) = .next t := by
  rw [endDecStage]
  cases r.raised with
  | none => exact ⟨_, rfl⟩
  | some e => exact ⟨_, rfl⟩

/-- The running stage stops only at the commit; UNPACK's precondition is part of the invariant. -/
theorem execStage_nextOrAbove {i : Instr} (h : Inv s) (hb : s.status.busy = true)
    (hd : decode (.phase s.status.phase.code) = .ok i) : NextOrAbove s.cfg (exec i s) := by
  have hs := h.status.eq_started hb
  cases hp : s.status.phase <;> rw [hp] at hs hd <;> cases hd
  case extract | build | encode => exact .inl (endEncStage_advanceTo _ s _)
  case pack => exact .inl ⟨_, execPack_eq s⟩
  case parse => exact .inl (endDecStage_advanceTo _ s _)
  case serialize => exact (execSerialize_endsOrAbove s).nextOrAbove (.inl rfl)
  case unpack =>
    obtain ⟨hw, -, hpad, -⟩ := h.decReady hs
    exact (execUnpack_endsOrAbove hw hpad).nextOrAbove (.inr rfl)

/-- Every phase but IDLE is a stage's (rule R60). -/
theorem exists_decode_code {p : Phase} (hp : p ≠ .idle) : ∃ i, decode (.phase p.code) = .ok i := by
  cases p with
  | idle => exact absurd rfl hp
  | extract | build | encode | pack | serialize | parse | unpack => exact ⟨_, rfl⟩

/-- The engine's turn from a state that meets the invariant: a busy engine has a stage to run. -/
theorem step_engine_nextOrAbove (h : Inv s) (ht : nextTurn s = engineTurn s) :
    NextOrAbove s.cfg (step s) := by
  cases hb : s.status.busy with
  | false => exact .inl ⟨_, step_engine_idle ht hb⟩
  | true =>
    obtain ⟨-, -, hphase⟩ := h.status.1 hb
    obtain ⟨i, hd⟩ := exists_decode_code hphase
    rw [step_stage ht hb hd, ← consumeEvent_cfg s]
    rw [← consumeEvent_status] at hb hd
    exact execStage_nextOrAbove h.consumeEvent hb hd

/-- Settles O57: by whose turn it is, the host's next action or the engine's stage. -/
theorem stepStopsOnlyAtAccessesAndCapacities : Obligations.StepStopsOnlyAtAccessesAndCapacities := by
  intro s h
  cases he : nextEvent s with
  | none => exact (step_engine_nextOrAbove h (nextTurn_of_none he)).imp_right .inr
  | some event =>
    cases event with
    | yield => exact (step_engine_nextOrAbove h (nextTurn_of_yield he)).imp_right .inr
    | command mode =>
      rw [step_command he]
      exact (execCommand_nextOrAbove mode _).imp_right .inr
    | start mode => exact .inl ⟨_, step_start he⟩
    | reset => exact .inl ⟨_, step_reset he⟩
    | access a =>
      obtain ⟨hnext, hrefused⟩ :=
        performAccess_completesExactlyIf_wellFormed a (s.setHostPos (s.hostPos + 1))
      rw [step_access he]
      cases hwf : a.wellFormed s.cfg with
      | true => exact .inl (hnext hwf)
      | false => exact .inr (.inl ⟨a, rfl, hwf, hrefused hwf⟩)

end Sys2Proof.Machine
end

section
/-! PROOF. A command run stage by stage has the outcome of the command as one step (rules R128, R132). -/

namespace Sys2Proof.Machine

variable {s t : State} {p q : Phase} {i : Instr} {k : Nat} {g : State → Outcome}

/-! ### The engine alone -/

/-- The host has no action left. -/
def HostDone (s : State) : Prop := nextEvent s = none

/-- An idle engine whose host has no action left stays as it is (rule R176). -/
theorem run_of_idle (hi : Idle s) (hh : HostDone s) (k : Nat) :
    Host.Core.run Sys2Proof.core k s = .next s := by
  have hstep : step s = .next s := by
    rw [step_engine_idle (nextTurn_of_none hh) hi, consumeEvent_of_none hh]
  induction k with
  | zero => rfl
  | succ k ih => rw [run_succ_next hstep, ih]

/-- The engine's step runs the stage a command is in. -/
theorem step_inStage (hs : InStage HostDone p s) (hd : decode (.phase p.code) = .ok i) :
    step s = exec i s := by
  obtain ⟨hst, hh⟩ := hs
  have hb : s.status.busy = true := by rw [hst]; rfl
  have hd' : decode (.phase s.status.phase.code) = .ok i := by rw [hst]; exact hd
  rw [step_stage (nextTurn_of_none hh) hb hd', consumeEvent_of_none hh]

theorem run_succ_fault {r : Fault} (h : step s = .fault r) (k : Nat) :
    Host.Core.run Sys2Proof.core (k + 1) s = .fault r := by
  have : Sys2Proof.core.step s = .fault r := h
  simp only [Host.Core.run, this]

theorem run_succ_refused {r : Refusal} (h : step s = .refused r) (k : Nat) :
    Host.Core.run Sys2Proof.core (k + 1) s = .refused r := by
  have : Sys2Proof.core.step s = .refused r := h
  simp only [Host.Core.run, this]

/-- `k` steps of the engine alone, from any state in stage `p`, have the outcome of `g`. -/
def RunsAs (k : Nat) (p : Phase) (g : State → Outcome) : Prop :=
  ∀ s, InStage HostDone p s → Host.Core.run Sys2Proof.core k s = g s

theorem runsAs_zero : RunsAs 0 p .next := fun _ _ => rfl

/-- The step of one stage in front: where the stage goes on the other steps run the rest of the command, and
where it ends the command they change nothing. -/
theorem RunsAs.thenStage (hg : RunsAs k q g) (hd : decode (.phase p.code) = .ok i)
    (hf : Leads (InStage HostDone p) (exec i) fun t => InStage HostDone q t ∨ AtEnd HostDone t) :
    RunsAs (k + 1) p fun s => thenStage (exec i s) g := by
  intro s hs
  have hstep := step_inStage hs hd
  dsimp only
  cases hx : exec i s with
  | next t =>
    refine (run_succ_next (hstep.trans hx) k).trans ?_
    obtain hq | ⟨hend, hh⟩ := hf s t hs hx
    · exact (hg t hq).trans (thenStage_busy (by rw [hq.1]; rfl) g).symm
    · exact (run_of_idle hend.busy hh k).trans (thenStage_idle hend.busy g).symm
  | fault r => exact run_succ_fault (hstep.trans hx) k
  | refused r => exact run_succ_refused (hstep.trans hx) k

/-- Nothing is left to run behind the last stage of a command. -/
theorem thenStage_next_self (o : Outcome) : thenStage o .next = o := by
  cases o with
  | next t =>
    cases hb : t.status.busy with
    | true => exact thenStage_busy hb _
    | false => exact thenStage_idle hb _
  | fault r => rfl
  | refused r => rfl

/-- The step of a command's last stage. -/
theorem runsAs_last (hd : decode (.phase p.code) = .ok i)
    (hf : Leads (InStage HostDone p) (exec i) (AtEnd HostDone)) : RunsAs 1 p (exec i) := by
  have h := (runsAs_zero (p := .idle)).thenStage hd fun s t hs hx => .inr (hf s t hs hx)
  simpa only [thenStage_next_self] using h

/-! ### The commands -/

/-- No change on the path of COMPRESS gives the host an action. -/
theorem CompressFrame.hostDone (h : CompressFrame s t) (hh : HostDone s) : HostDone t := by
  rw [h]; exact hh

/-- No change on the path of DECOMPRESS gives the host an action. -/
theorem DecompressFrame.hostDone (h : DecompressFrame s t) (hh : HostDone s) : HostDone t := by
  rw [h]; exact hh

theorem hostDone_keptByCompress : KeptByCompress HostDone where
  start _ _ h := h
  extract _ _ h hx := (compressFrame_of_setEnc (execExtract_frame hx).1).hostDone h.2
  build _ _ h hx := (compressFrame_of_setEnc (execBuild_frame hx).1).hostDone h.2
  encode _ _ h hx := (compressFrame_of_setEnc (execEncode_frame hx).1).hostDone h.2
  pack _ _ h hx := (compressFrame_of_setEnc (execPack_frame hx).1).hostDone h.2
  serialize _ _ h hx := (execSerialize_compressFrame hx).hostDone h.2

theorem hostDone_keptByDecompress : KeptByDecompress HostDone where
  start _ _ h := h
  parse _ _ h hx := (decompressFrame_of_setDec (execParse_frame hx).1).hostDone h.2
  unpack _ _ h hx := (execUnpack_decompressFrame hx).hostDone h.2

/-- Five steps of the engine are the five stages of COMPRESS. -/
theorem runsAs_compress : RunsAs 5 .extract fun s => thenStage (execExtract s) fun t =>
    thenStage (execBuild t) fun t => thenStage (execEncode t) fun t =>
      thenStage (execPack t) execSerialize := by
  have k := hostDone_keptByCompress
  have serialize : RunsAs 1 .serialize execSerialize :=
    runsAs_last (i := .serialize) rfl fun s t hs hx =>
      ⟨execSerialize_status hs.1 hx, k.serialize s t hs hx⟩
  have pack := serialize.thenStage (p := .pack) (i := .pack) rfl fun s t hs hx =>
    .inl ⟨execPack_status hs.1 hx, k.pack s t hs hx⟩
  have encode := pack.thenStage (p := .encode) (i := .encode) rfl fun s t hs hx =>
    (execEncode_status hs.1 hx).imp (⟨·, k.encode s t hs hx⟩) (⟨·, k.encode s t hs hx⟩)
  have build := encode.thenStage (p := .build) (i := .build) rfl fun s t hs hx =>
    (execBuild_status hs.1 hx).imp (⟨·, k.build s t hs hx⟩) (⟨·, k.build s t hs hx⟩)
  exact build.thenStage (p := .extract) (i := .extract) rfl fun s t hs hx =>
    (execExtract_status hs.1 hx).imp (⟨·, k.extract s t hs hx⟩) (⟨·, k.extract s t hs hx⟩)

/-- Two steps of the engine are the two stages of DECOMPRESS. -/
theorem runsAs_decompress : RunsAs 2 .parse fun s => thenStage (execParse s) execUnpack := by
  have k := hostDone_keptByDecompress
  have unpack : RunsAs 1 .unpack execUnpack :=
    runsAs_last (i := .unpack) rfl fun s t hs hx => ⟨execUnpack_status hs.1 hx, k.unpack s t hs hx⟩
  exact unpack.thenStage (p := .parse) (i := .parse) rfl fun s t hs hx =>
    (execParse_status hs.1 hx).imp (⟨·, k.parse s t hs hx⟩) (⟨·, k.parse s t hs hx⟩)

/-- Settles O49: the first step is the start, and the steps after it are the command's stages. -/
theorem stagedRunEqualsTheAtomicCommand : Obligations.StagedRunEqualsTheAtomicCommand := by
  -- `by exact` checks that a state is idle only once the state is known.
  refine fun s hi => ⟨?_, ?_⟩
  · have hstart := (step_start (s := (s.setHost [.start 0#1]).setHostPos 0) rfl).trans
      (startCommand_zero (by exact hi))
    exact ((run_succ_next hstart 5).trans (runsAs_compress _ ⟨rfl, rfl⟩)).trans
      (exec_compress_eq (by exact hi)).symm
  · have hstart := (step_start (s := (s.setHost [.start 1#1]).setHostPos 0) rfl).trans
      (startCommand_one (by exact hi))
    exact ((run_succ_next hstart 2).trans (runsAs_decompress _ ⟨rfl, rfl⟩)).trans
      (exec_decompress_eq (by exact hi)).symm

end Sys2Proof.Machine
end

section
/-! PROOF. An idle engine waits for the host, and a reset abandons whatever runs (rules R161, R173, R174, R176). -/

namespace Sys2Proof.Machine

/-- Settles O8: the engine's turn changes nothing, and the host has no action to move past. -/
theorem idleEngineWaitsForTheHost : Obligations.IdleEngineWaitsForTheHost := fun s hn hi => by
  rw [step_engine_idle (nextTurn_of_none hn) hi, consumeEvent_of_none hn]

/-- Settles O15: `BUSY` is not looked at, and every field of the engine takes its value from the reset state. -/
theorem resetAbandonsWhateverRuns : Obligations.ResetAbandonsWhateverRuns := fun _ h =>
  ⟨_, step_reset h, rfl, statusWordLaysOutItsFields.2.1, rfl, rfl, rfl, rfl, rfl, rfl, rfl, rfl, rfl⟩

end Sys2Proof.Machine
end

section
/-! PROOF. The chart of a table: it is a chart of the grammar, no chart of the grammar is the beginning of
another, and so the reader gives the table back (rules R69 to R72, R143). -/

namespace Sys2Proof.Machine

variable {symw w n : Nat} {table : List (Symbol × Bits)}

/-! ### Charts are told apart -/

theorem entriesSpelling_cons (e : Bits × Bits) (es : List (Bits × Bits)) (z : List Byte) :
    ∃ r, entriesSpelling (e :: es) ++ z = entrySpelling e.1 e.2 ++ r := by
  cases es with
  | nil => exact ⟨z, rfl⟩
  | cons e' es => exact ⟨_, by rw [entriesSpelling, List.append_assoc]⟩

/-- Entries up to a closing brace can be read in one way only. -/
theorem entriesSpelling_inj {es es' : List (Bits × Bits)} {z z' : List Byte}
    (h : entriesSpelling es ++ asciiRBrace :: z = entriesSpelling es' ++ asciiRBrace :: z') :
    es = es' ∧ z = z' := by
  induction es generalizing es' with
  | nil =>
    by_cases hne : es' = []
    · subst hne
      exact ⟨rfl, (List.cons.inj h).2⟩
    · have hnone := expectByte_rBrace_entriesSpelling hne (asciiRBrace :: z')
      rw [← h] at hnone
      cases hnone
  | cons e es ih =>
    have hne : es' ≠ [] := by
      rintro rfl
      have hnone := expectByte_rBrace_entriesSpelling (es := e :: es) (by simp) (asciiRBrace :: z)
      rw [h] at hnone
      cases hnone
    obtain ⟨r, hr⟩ := entriesSpelling_cons e es (asciiRBrace :: z)
    have hread := readEntry_eq_some.mpr hr
    obtain ⟨_, heq, hrest⟩ := entriesSpelling_head (by simp) rfl hread
    obtain ⟨es', rfl, hrest'⟩ := entriesSpelling_head hne h hread
    obtain rfl := (List.cons.inj heq).2
    have hcomma : asciiRBrace ≠ asciiComma := by decide
    obtain ⟨rfl, rfl⟩ | ⟨-, rfl⟩ := hrest <;> obtain ⟨rfl, hz⟩ | ⟨-, hz⟩ := hrest'
    · exact ⟨rfl, (List.cons.inj hz).2⟩
    · exact absurd (List.cons.inj hz).1 hcomma
    · exact absurd (List.cons.inj hz).1.symm hcomma
    · obtain ⟨rfl, hrest⟩ := ih (List.cons.inj hz).2
      exact ⟨rfl, hrest⟩

/-- No chart of the grammar is the beginning of another one. -/
theorem spelledChart_append_inj {es es' : List (Bits × Bits)} {z z' : List Byte}
    (h : spelledChart es ++ z = spelledChart es' ++ z') : es = es' ∧ z = z' := by
  simp only [spelledChart_eq, List.cons_append, List.append_assoc, List.nil_append] at h
  exact entriesSpelling_inj (List.cons.inj h).2

/-- The reader on a chart of the grammar: its conditions on the entries decide. -/
theorem parseChart_spelledChart {es : List (Bits × Bits)} {t : List (Bits × Symbol)} :
    parseChart symw (spelledChart es) w = some t ↔
      acceptableEntries symw w es ∧ t = es.map fun e => (e.1, symbolOfBits e.2) := by
  rw [chartReaderAcceptsExactlyTheGrammar]
  constructor
  · rintro ⟨es', hes, hok, rfl⟩
    obtain ⟨rfl, -⟩ := spelledChart_append_inj (z := []) (z' := []) (congrArg (· ++ []) hes)
    exact ⟨hok, rfl⟩
  · rintro ⟨hok, rfl⟩
    exact ⟨es, rfl, hok, rfl⟩

/-! ### The chart of a table -/

/-- The entry of a pair: its code, and its symbol in the shortest form (rule R71). -/
def chartEntry (e : Symbol × Bits) : Bits × Bits := (e.2, bitsOfSymbol e.1)

theorem entriesText_eq (table : List (Symbol × Bits)) :
    entriesText table = entriesSpelling (table.map chartEntry) := by
  induction table with
  | nil => rfl
  | cons e table ih =>
    cases table with
    | nil => rfl
    | cons e' table =>
      rw [entriesText, ih, List.append_assoc]
      rfl

/-- The writer's text is a chart of the grammar (rules R69 and R70). -/
theorem chartText_eq (table : List (Symbol × Bits)) :
    chartText table = spelledChart (table.map chartEntry) := by
  rw [spelledChart_eq, chartText, entriesText_eq]
  rfl

/-- A table's entries meet the reader's conditions exactly where its codes are pairwise different and of the
reader's width. -/
theorem acceptableEntries_chartEntry (hfit : SymbolsFit symw (table.map Prod.fst)) :
    acceptableEntries symw w (table.map chartEntry) ↔ codesDiffer w table := by
  have hkeys : (table.map chartEntry).map Prod.fst = table.map Prod.snd := List.map_map
  have hfits : (∀ e ∈ table.map chartEntry, entryFits symw w e) ↔ ∀ e ∈ table, e.2.length = w := by
    simp only [List.forall_mem_map, entryFits, chartEntry]
    refine forall₂_congr fun e he => and_iff_left ?_
    exact bitsOfSymbol_canonical hfit.1 (hfit.2 _ (List.mem_map_of_mem he))
  rw [acceptableEntries_iff, hkeys, hfits, codesDiffer]

/-- The reader accepts the chart of a table exactly where the codes differ and have its width, and gives the pairs
back swapped (rule R143). -/
theorem parseChart_chartText (hfit : SymbolsFit symw (table.map Prod.fst)) {t : List (Bits × Symbol)} :
    parseChart symw (chartText table) w = some t ↔ codesDiffer w table ∧ t = table.map Prod.swap := by
  have hpairs : ((table.map chartEntry).map fun e => (e.1, symbolOfBits e.2)) = table.map Prod.swap := by
    simp [chartEntry, Function.comp_def, Prod.swap]
  rw [chartText_eq, parseChart_spelledChart, acceptableEntries_chartEntry hfit, hpairs]

theorem parseChart_chartText_eq_none (hfit : SymbolsFit symw (table.map Prod.fst))
    (h : ¬codesDiffer w table) : parseChart symw (chartText table) w = none :=
  Option.eq_none_iff_forall_ne_some.mpr fun _ ht => h ((parseChart_chartText hfit).mp ht).1

/-- A cut at any other place than the chart's end is no chart. -/
theorem parseChart_take_eq_none {payload : List Byte} (hn : n ≤ (chartText table ++ payload).length)
    (hne : n ≠ (chartText table).length) :
    parseChart symw ((chartText table ++ payload).take n) w = none := by
  refine Option.eq_none_iff_forall_ne_some.mpr fun t ht => hne ?_
  obtain ⟨es, hes, -, -⟩ := (chartReaderAcceptsExactlyTheGrammar _ _ _ _).mp ht
  have hsplit := List.take_append_drop n (chartText table ++ payload)
  rw [hes, chartText_eq] at hsplit
  obtain ⟨rfl, -⟩ := spelledChart_append_inj hsplit
  rw [chartText_eq, ← hes, List.length_take, Nat.min_eq_left hn]

/-- Settles O27: the text the writer makes is the chart of the table's entries, which the reader accepts. -/
theorem chartReaderInvertsTheWriter : Obligations.ChartReaderInvertsTheWriter :=
  fun _ _ _ hcodes hfit => (parseChart_chartText hfit).mpr ⟨hcodes, rfl⟩

end Sys2Proof.Machine
end

section
/-! PROOF. A container by its fields: what PARSE makes of it, and that PARSE gives back what SERIALIZE put in
(rules R104, R117, R148). -/

namespace Sys2Proof.Machine

variable {s : State}

/-! ### The fields -/

theorem toNat_ofNat_byte {n : Nat} (h : n ≤ 255) : (BitVec.ofNat 8 n).toNat = n := by
  rw [BitVec.toNat_ofNat]
  exact Nat.mod_eq_of_lt (by omega)

theorem ofNat_byte_ne_zero {n : Nat} (h1 : 1 ≤ n) (h : n ≤ 255) : BitVec.ofNat 8 n ≠ 0#8 := by
  intro h0
  have hn := toNat_ofNat_byte h
  rw [h0] at hn
  simp only [BitVec.toNat_ofNat, Nat.zero_mod] at hn
  omega

section Fields
variable {w p : Byte} {n : Nat} {chart payload : List Byte}

theorem chartSizeField_eq (hn : n < 2 ^ 32) (rest : List Byte) :
    chartSizeField ([w, p] ++ be32 n ++ rest) = n :=
  fromBe32_be32 hn

/-- The error of PARSE on a container given by its fields: the first test that fails (rule R117). -/
theorem parseStage_raised_fields {rest : List Byte} (hin : s.input = [w, p] ++ be32 n ++ rest)
    (hn : n < 2 ^ 32) :
    (parseStage s.cfg.symw s.input s.dec).raised =
      if w = 0#8 ∨ 7 < p.toNat then some .invalidHeader
      else if rest.length < n then some .truncatedChart
      else if rest.length = n ∧ p ≠ 0#8 then some .invalidHeader
      else if parseChart s.cfg.symw (rest.take n) w.toNat = none then some .malformedChart
      else none :=
  parseStage_raised_eq hin (fromBe32_be32 hn).symm

variable {table : List (Bits × Symbol)} (hn : n < 2 ^ 32)
  (hin : s.input = [w, p] ++ be32 n ++ chart ++ payload) (hlen : chart.length = n)
  (hw : w ≠ 0#8) (hp : p.toNat ≤ 7) (hempty : payload = [] → p = 0#8)
  (htable : parseChart s.cfg.symw chart w.toNat = some table)
include hn hin hlen hw hp hempty htable

/-- PARSE of a container given by its fields, where it passes the tests. -/
theorem execParse_fields :
    execParse s = .next (setPhase .unpack (s.setDec (parsedStores s.dec w p n table payload))) := by
  subst hlen
  have h := execParse_eq (s := s) (rest := chart ++ payload) hin (fromBe32_be32 hn).symm hw hp
    (by simp) (fun h => hempty (by simpa using h)) (by rwa [List.take_left])
  rwa [List.drop_left] at h

/-- DECOMPRESS of a container PARSE accepts is UNPACK of its fields. -/
theorem exec_decompress_fields (hi : Idle s) :
    exec .decompress s = execUnpack (setPhase .unpack
      ((startDecompress s).setDec (parsedStores .empty w p n table payload))) := by
  rw [exec_decompress_eq hi,
    execParse_fields (s := startDecompress s) hn hin hlen hw hp hempty htable, thenStage_busy rfl]
  rfl

end Fields

/-- Settles O30: the container has the five fields in PARSE's order, and the reader gives the table back. -/
theorem parseInvertsSerialize : Obligations.ParseInvertsSerialize := by
  intro s hw1 hw hcodes hfit hempty hchart hcap
  obtain ⟨t, ht, hcontainer, -⟩ := serializeWritesTheContainer s hw hchart hcap
  refine ⟨t, ht, fun u hsymw hin => ?_⟩
  have hwidth : (BitVec.ofNat 8 s.enc.width).toNat = s.enc.width := toNat_ofNat_byte hw
  have hpad : (BitVec.ofNat 8 s.enc.pad.val).toNat = s.enc.pad.val := toNat_ofNat_byte (by omega)
  have htable : parseChart u.cfg.symw (chartText s.enc.table) (BitVec.ofNat 8 s.enc.width).toNat =
      some (s.enc.table.map Prod.swap) := by
    rw [hsymw, hwidth]
    exact (parseChart_chartText hfit).mpr ⟨hcodes, rfl⟩
  have hzero : s.enc.payload = [] → BitVec.ofNat 8 s.enc.pad.val = 0#8 := fun h => by
    rw [hempty.resolve_left (not_not_intro h)]
    rfl
  exact ⟨_, execParse_fields (by omega) (hin.trans hcontainer) rfl (ofNat_byte_ne_zero hw1 hw)
    (by omega) hzero htable, hwidth, hpad, rfl, rfl, rfl⟩

end Sys2Proof.Machine
end

section
/-! PROOF. The ends of the two commands, as functions of the parameters and the input alone: the errors each can end
with, that a failed command leaves no output, and that nothing else has a say (rules R136, R157, R162). -/

namespace Sys2Proof.Machine

variable {s t u : State} {e : CodecError} {q : Phase}

/-! ### What a command delivers -/

@[simp] theorem State.setCto_holding_container (s : State) (c : List Byte) :
    (s.setCto (Buffer.holding c)).container = c := Buffer.contents_holding c _

@[simp] theorem State.setTxo_holding_decoded (s : State) (x : List Symbol) :
    (s.setTxo (Buffer.holding x)).decoded = x := Buffer.contents_holding x _

@[simp] theorem startCompress_container (s : State) : (startCompress s).container = [] := rfl

@[simp] theorem startDecompress_decoded (s : State) : (startDecompress s).decoded = [] := rfl

/-! ### The ends of COMPRESS -/

/-- The container COMPRESS makes of a text that fits the fields. -/
def containerOf (text : List Symbol) : List Byte := (packedStores text).withChart.container

/-- The error COMPRESS of a text ends with, if any: its stage, and what the stages have left in group C. -/
def compressError (cfg : Params) (text : List Symbol) : Option (CodecError × Phase × EncStores) :=
  if text = [] then some (.emptyInput, .extract, .empty)
  else if cfg.idxw ≤ widthOf text then
    some (.alphabetTooLarge, .build, { EncStores.empty with alpha := alphabetOf text })
  else if Config.widthMax < widthOf text then some (.widthOverflow, .serialize, packedStores text)
  else if Config.chartSizeMax < (chartOf text).length then
    some (.chartTooLarge, .serialize, (packedStores text).withChart)
  else none

theorem compressError_eq_none {cfg : Params} {text : List Symbol} :
    compressError cfg text = none ↔ text ≠ [] ∧ FieldsFit cfg text := by
  simp only [compressError, FieldsFit]
  split_ifs <;> simp_all

theorem exec_compress_of_error (hi : Idle s) {x : EncStores}
    (h : compressError s.cfg s.text = some (e, q, x)) :
    exec .compress s = .next (raiseError e (setPhase q ((startCompress s).setEnc x))) := by
  unfold compressError at h
  split_ifs at h with htext hidx hw hc <;> cases h
  · exact exec_compress_empty hi (by rw [← State.text_length, htext]; rfl)
  · exact exec_compress_tooLarge hi htext hidx
  · rw [exec_compress_eq_serialize hi htext (Nat.lt_of_not_le hidx)]
    exact execSerialize_widthOverflow hw
  · rw [exec_compress_eq_serialize hi htext (Nat.lt_of_not_le hidx)]
    exact execSerialize_chartTooLarge (Nat.le_of_not_lt hw) hc

theorem exec_compress_of_none (hi : Idle s) (h : compressError s.cfg s.text = none) :
    exec .compress s = commitContainer (containerOf s.text)
      (setPhase .serialize ((startCompress s).setEnc (packedStores s.text).withChart)) := by
  obtain ⟨htext, hfit⟩ := compressError_eq_none.mp h
  exact exec_compress_eq_commit hi htext hfit

/-- The two ends of a COMPRESS that answers a next state. -/
theorem exec_compress_next (hi : Idle s) (h : exec .compress s = .next t) :
    (∃ e q x, compressError s.cfg s.text = some (e, q, x) ∧
        t = raiseError e (setPhase q ((startCompress s).setEnc x))) ∨
      (compressError s.cfg s.text = none ∧
        withinCap s.cfg.ctoCap (containerOf s.text).length = true ∧
        t = (((startCompress s).setEnc (packedStores s.text).withChart).setCto
          (Buffer.holding (containerOf s.text))).setStatus (Status.started .serialize).finished) := by
  cases he : compressError s.cfg s.text with
  | some r =>
    obtain ⟨e, q, x⟩ := r
    rw [exec_compress_of_error hi he] at h
    cases h
    exact .inl ⟨e, q, x, rfl, rfl⟩
  | none =>
    rw [exec_compress_of_none hi he] at h
    obtain ⟨hcap, rfl⟩ := commitContainer_next h
    exact .inr ⟨rfl, hcap, rfl⟩

/-! ### The ends of DECOMPRESS -/

/-- What PARSE leaves in group X at the start of DECOMPRESS, accepting the container or not. -/
def parseOf (symw : Nat) (c : List Byte) : StageResult DecStores := parseStage symw c .empty

/-- The error DECOMPRESS of a container ends with, if any: its stage, and what the stages have left in group X. -/
def decompressError (symw : Nat) (c : List Byte) : Option (CodecError × Phase × DecStores) :=
  match (parseOf symw c).raised with
  | some e => some (e, .parse, (parseOf symw c).stores)
  | none =>
    if (parseOf symw c).stores.decoding.length = (parseOf symw c).stores.windowCount then none
    else some (.unknownCode, .unpack, (unpackStage (parseOf symw c).stores).stores)

theorem decompressError_eq_none {symw : Nat} {c : List Byte} :
    decompressError symw c = none ↔ (parseOf symw c).raised = none ∧
      (parseOf symw c).stores.decoding.length = (parseOf symw c).stores.windowCount := by
  unfold decompressError
  split <;> rename_i hr <;> simp [hr]

/-- Where PARSE completes, the rest is UNPACK's loop within its precondition. -/
theorem exec_decompress_of_parsed (hi : Idle s) (hr : (parseOf s.cfg.symw s.input).raised = none) :
    exec .decompress s =
      let d := (parseOf s.cfg.symw s.input).stores
      let v := setPhase .unpack ((startDecompress s).setDec (unpackStage d).stores)
      if d.decoding.length = d.windowCount then commitText d.decoding v
      else .next (raiseError .unknownCode v) := by
  obtain ⟨hw, -, hp, -⟩ := parseStage_ready hr
  rw [exec_decompress_eq hi, execParse_of_completed (s := startDecompress s) hr, thenStage_busy rfl]
  exact execUnpack_eq (by exact hw) (by exact hp)

theorem exec_decompress_of_raised (hi : Idle s) (hr : (parseOf s.cfg.symw s.input).raised = some e) :
    exec .decompress s = .next (raiseError e
      (setPhase .parse ((startDecompress s).setDec (parseOf s.cfg.symw s.input).stores))) := by
  rw [exec_decompress_eq hi, execParse_of_raised (s := startDecompress s) hr, thenStage_idle rfl]
  rfl

theorem exec_decompress_of_error (hi : Idle s) {d : DecStores}
    (h : decompressError s.cfg.symw s.input = some (e, q, d)) :
    exec .decompress s = .next (raiseError e (setPhase q ((startDecompress s).setDec d))) := by
  unfold decompressError at h
  split at h
  · rename_i hr
    cases h
    exact exec_decompress_of_raised hi hr
  · rename_i hr
    split_ifs at h with hall
    cases h
    rw [exec_decompress_of_parsed hi hr]
    exact if_neg hall

theorem exec_decompress_of_none (hi : Idle s) (h : decompressError s.cfg.symw s.input = none) :
    exec .decompress s = commitText (parseOf s.cfg.symw s.input).stores.decoding
      (setPhase .unpack ((startDecompress s).setDec
        (unpackStage (parseOf s.cfg.symw s.input).stores).stores)) := by
  unfold decompressError at h
  split at h
  · cases h
  · rename_i hr
    split_ifs at h with hall
    rw [exec_decompress_of_parsed hi hr]
    exact if_pos hall

/-- The two ends of a DECOMPRESS that answers a next state. -/
theorem exec_decompress_next (hi : Idle s) (h : exec .decompress s = .next t) :
    (∃ e q d, decompressError s.cfg.symw s.input = some (e, q, d) ∧
        t = raiseError e (setPhase q ((startDecompress s).setDec d))) ∨
      (decompressError s.cfg.symw s.input = none ∧
        withinCap s.cfg.txoCap (parseOf s.cfg.symw s.input).stores.decoding.length = true ∧
        t = (((startDecompress s).setDec
            (unpackStage (parseOf s.cfg.symw s.input).stores).stores).setTxo
          (Buffer.holding (parseOf s.cfg.symw s.input).stores.decoding)).setStatus
          (Status.started .unpack).finished) := by
  cases he : decompressError s.cfg.symw s.input with
  | some r =>
    obtain ⟨e, q, d⟩ := r
    rw [exec_decompress_of_error hi he] at h
    cases h
    exact .inl ⟨e, q, d, rfl, rfl⟩
  | none =>
    rw [exec_decompress_of_none hi he] at h
    obtain ⟨hcap, rfl⟩ := commitText_next h
    exact .inr ⟨rfl, hcap, rfl⟩

/-! ### The statements -/

/-- Settles O43: the pairs of `compressError` and `decompressError`; PACK writes `PHASE` alone of `STATUS`. -/
theorem eachCommandHasItsOwnErrors : Obligations.EachCommandHasItsOwnErrors := by
  refine ⟨fun s t hi h herr => ?_, fun s t hi h herr => ?_, fun s t h => ?_⟩
  · obtain ⟨e, q, x, he, rfl⟩ | ⟨-, -, rfl⟩ := exec_compress_next hi h
    · unfold compressError at he
      split_ifs at he <;> cases he <;> simp
    · cases herr
  · obtain ⟨e, q, d, he, rfl⟩ | ⟨-, -, rfl⟩ := exec_decompress_next hi h
    · unfold decompressError at he
      split at he
      · rename_i hr
        cases he
        obtain rfl | rfl | rfl | rfl := (parseStage_spec _ _ _).1 _ hr <;> simp
      · split_ifs at he
        cases he
        simp
    · cases herr
  · rw [(execPack_frame h).2]

/-- Settles O47: an error leaves the output as the start emptied it. -/
theorem failedCommandLeavesNoOutput : Obligations.FailedCommandLeavesNoOutput := by
  refine ⟨fun s t hi h herr => ?_, fun s t hi h herr => ?_⟩
  · obtain ⟨e, q, x, -, rfl⟩ | ⟨-, -, rfl⟩ := exec_compress_next hi h
    · exact ⟨rfl, rfl⟩
    · cases herr
  · obtain ⟨e, q, d, -, rfl⟩ | ⟨-, -, rfl⟩ := exec_decompress_next hi h
    · exact ⟨rfl, rfl⟩
    · cases herr

/-- Settles O38: both ends of a command are made of the parameters and the input alone. -/
theorem commandsDependOnTheirInputAlone : Obligations.CommandsDependOnTheirInputAlone := by
  intro s u hi hu hcfg
  refine ⟨fun htext t h => ?_, fun hinput t h => ?_⟩
  · obtain ⟨e, q, x, he, rfl⟩ | ⟨he, hcap, rfl⟩ := exec_compress_next hi h <;> rw [hcfg, htext] at he
    · exact ⟨_, exec_compress_of_error hu he, rfl, rfl, rfl⟩
    · rw [hcfg] at hcap
      rw [htext] at hcap ⊢
      exact ⟨_, (exec_compress_of_none hu he).trans (commitContainer_eq hcap), rfl, by simp, rfl⟩
  · obtain ⟨e, q, d, he, rfl⟩ | ⟨he, hcap, rfl⟩ := exec_decompress_next hi h <;>
      rw [hcfg, hinput] at he
    · exact ⟨_, exec_decompress_of_error hu he, rfl, rfl, rfl⟩
    · rw [hcfg, hinput] at hcap ⊢
      exact ⟨_, (exec_decompress_of_none hu he).trans (commitText_eq hcap), rfl, by simp, rfl⟩

end Sys2Proof.Machine
end

section
/-! PROOF. The written container and its text: the fields COMPRESS writes, the windows of its payload, and that
DECOMPRESS gives the text back, or a beginning of it under greater padding (rules R135, R137 to R146). -/

namespace Sys2Proof.Machine

variable {s t u : State} {symw : Nat} {text : List Symbol}

/-! ### The fields of a written container -/

/-- The padding of a text's payload (rule R100). -/
def paddingOf (text : List Symbol) : Nat := (packedStores text).pad.val

/-- The payload of a text (rule R101). -/
def payloadOf (text : List Symbol) : List Byte := (packedStores text).payload

theorem containerOf_eq (text : List Symbol) :
    containerOf text = [BitVec.ofNat 8 (widthOf text), BitVec.ofNat 8 (paddingOf text)] ++
      be32 (chartOf text).length ++ chartOf text ++ payloadOf text := rfl

theorem paddingOf_le (text : List Symbol) : paddingOf text ≤ 7 := Nat.le_of_lt_succ (packedStores text).pad.isLt

theorem payloadOf_length (text : List Symbol) :
    (payloadOf text).length = ceilDiv (widthOf text * text.length) 8 := by
  simp [payloadOf, packedStores, packStage, encodeText_tableOf_length]

/-- The bits of the text and its padding fill the payload (rule R138). -/
theorem length_add_paddingOf (text : List Symbol) :
    widthOf text * text.length + paddingOf text = 8 * (payloadOf text).length := by
  rw [payloadOf_length, ← add_padLength, ← encodeText_tableOf_length]
  rfl

/-- The payload's bytes spell the text's bits, then the padding (rules R45, R101). -/
theorem payloadOf_bits (text : List Symbol) :
    (payloadOf text).flatMap bitsOfByte =
      encodeText (tableOf text) text ++ List.replicate (paddingOf text) false := by
  rw [encodeText_eq_flatten (allMapped_tableOf text)]
  exact packedStores_payload_bits text

theorem widthOf_pos (text : List Symbol) : 1 ≤ widthOf text := codeWidth_pos _

theorem payloadOf_ne_nil (h : text ≠ []) : payloadOf text ≠ [] := by
  have hbits : 1 ≤ widthOf text * text.length := Nat.mul_pos (widthOf_pos text) (List.length_pos_of_ne_nil h)
  have hlen := length_add_paddingOf text
  exact List.ne_nil_of_length_pos (by omega)

theorem codesDiffer_tableOf (text : List Symbol) : codesDiffer (widthOf text) (tableOf text) :=
  ⟨fun _ he => assignCodes_width he,
    assignCodes_codes_nodup (by rw [Nat.zero_add]; exact le_two_pow_codeWidth _)⟩

theorem tableOf_map_fst (text : List Symbol) : (tableOf text).map Prod.fst = alphabetOf text :=
  assignCodes_map_fst _ _ _

theorem SymbolsFit.tableOf (h : SymbolsFit symw text) : SymbolsFit symw ((tableOf text).map Prod.fst) :=
  ⟨h.1, fun x hx => h.2 x (mem_alphabetOf.mp (tableOf_map_fst text ▸ hx))⟩

/-- The reader gives the text's table back (rule R143). -/
theorem parseChart_chartOf (h : SymbolsFit symw text) :
    parseChart symw (chartOf text) (widthOf text) = some ((tableOf text).map Prod.swap) :=
  (parseChart_chartText h.tableOf).mpr ⟨codesDiffer_tableOf text, rfl⟩

/-- Symbols of at most 16 bits fit the fields with an index integer of at least 17 (rules R74, R146). -/
theorem fieldsFit_of_symw_le {cfg : Params} (hne : text ≠ []) (hfit : SymbolsFit cfg.symw text)
    (hsymw : cfg.symw ≤ 16) (hidxw : 17 ≤ cfg.idxw) : FieldsFit cfg text := by
  have hfit16 : SymbolsFit 16 text :=
    ⟨by decide, fun x hx => (hfit.2 x hx).trans_le (Nat.pow_le_pow_right (by decide) hsymw)⟩
  have hwidth : widthOf text ≤ 16 := widthOf_le hfit16
  have hchart : (chartOf text).length < 2490369 := chartLengthHasItsClosedForm.2 text hne hfit16
  exact ⟨by omega, hwidth.trans (by decide), hchart.le.trans (by decide)⟩

/-- What the fields of a written container are, as DECOMPRESS of it needs them. -/
structure WrittenFields (text : List Symbol) : Prop where
  width : (BitVec.ofNat 8 (widthOf text)).toNat = widthOf text
  width_ne : BitVec.ofNat 8 (widthOf text) ≠ 0#8
  padding : (BitVec.ofNat 8 (paddingOf text)).toNat = paddingOf text
  padding_le : (BitVec.ofNat 8 (paddingOf text)).toNat ≤ 7
  chart : (chartOf text).length < 2 ^ 32
  payload : payloadOf text ≠ []

theorem writtenFields {cfg : Params} (hne : text ≠ []) (h : FieldsFit cfg text) : WrittenFields text := by
  obtain ⟨-, hwidth, hchart⟩ := h
  have hpad := toNat_ofNat_byte ((paddingOf_le text).trans (by decide))
  exact ⟨toNat_ofNat_byte hwidth, ofNat_byte_ne_zero (widthOf_pos text) hwidth, hpad,
    hpad.trans_le (paddingOf_le text), Nat.lt_succ_of_le hchart, payloadOf_ne_nil hne⟩

theorem containerOf_length (text : List Symbol) :
    (containerOf text).length = 6 + (chartOf text).length + (payloadOf text).length :=
  container_withChart_length (packedStores text)

theorem chartSizeField_containerOf (h : WrittenFields text) :
    chartSizeField (containerOf text) = (chartOf text).length :=
  chartSizeField_eq h.chart (chartOf text ++ payloadOf text)

/-! ### The windows of the payload -/

/-- Windows inside a beginning of the bits are windows of the bits. -/
theorem windowAt_take {bits : Bits} {w m k : Nat} (h : (m + 1) * w ≤ k) :
    windowAt (bits.take k) w m = windowAt bits w m := by
  rw [Nat.succ_mul] at h
  rw [windowAt, windowAt, List.drop_take, List.take_take, Nat.min_eq_left (by omega)]

/-- The payload without `p` padding bits is a beginning of the text's bits, `p` being at least the padding. -/
theorem payloadBits_payloadOf {p : Nat} (hp : paddingOf text ≤ p) :
    payloadBits (payloadOf text) p =
      (encodeText (tableOf text) text).take (8 * (payloadOf text).length - p) := by
  have hlen := length_add_paddingOf text
  rw [payloadBits, payloadOf_bits, List.take_append_of_le_length]
  rw [encodeText_tableOf_length]
  omega

/-- The number of whole windows left with `p` padding bits. -/
def windowsLeft (text : List Symbol) (p : Nat) : Nat :=
  (8 * (payloadOf text).length - p) / widthOf text

theorem windowsLeft_le {p : Nat} (hp : paddingOf text ≤ p) : windowsLeft text p ≤ text.length := by
  have hlen := length_add_paddingOf text
  refine Nat.div_le_of_le_mul ?_
  omega

/-- With the padding the container has, all symbols are left (rules R120, R138). -/
theorem windowsLeft_paddingOf (text : List Symbol) : windowsLeft text (paddingOf text) = text.length := by
  rw [windowsLeft, ← length_add_paddingOf, Nat.add_sub_cancel, Nat.mul_div_cancel_left _ (widthOf_pos text)]

/-- Window number `m` of the payload is the code of symbol number `m`. -/
theorem mem_tableOf_windowAt {p m : Nat} {x : Symbol} (hp : paddingOf text ≤ p)
    (hm : m < windowsLeft text p) (hx : text[m]? = some x) :
    (x, windowAt (payloadBits (payloadOf text) p) (widthOf text) m) ∈ tableOf text := by
  have hinside : (m + 1) * widthOf text ≤ 8 * (payloadOf text).length - p :=
    (Nat.mul_le_mul_right _ hm).trans (Nat.div_mul_le_self _ _)
  rw [payloadBits_payloadOf hp, windowAt_take hinside]
  exact lookupCode_mem (windowAt_encodeText (codesDiffer_tableOf text).1 (allMapped_tableOf text) hx)

/-- Every code of the table is a window of the payload: its symbol is one of the text's. -/
theorem exists_windowAt_eq {x : Symbol} {c : Bits} (h : (x, c) ∈ tableOf text) :
    ∃ m < windowsLeft text (paddingOf text),
      windowAt (payloadBits (payloadOf text) (paddingOf text)) (widthOf text) m = c := by
  have hx : x ∈ text := by
    rw [← mem_alphabetOf, ← tableOf_map_fst]
    exact List.mem_map_of_mem h
  have hnodup : ((tableOf text).map Prod.fst).Nodup := by
    rw [tableOf_map_fst]
    exact alphabetOf_nodup text
  obtain ⟨m, hm⟩ := List.mem_iff_getElem?.mp hx
  have hlt : m < windowsLeft text (paddingOf text) := by
    rw [windowsLeft_paddingOf]
    exact (List.getElem?_eq_some_iff.mp hm).1
  have hwindow := mem_tableOf_windowAt le_rfl hlt hm
  exact ⟨m, hlt, (Prod.mk.inj (List.inj_on_of_nodup_map hnodup hwindow h rfl)).2⟩

/-- The swapped table decodes window number `m` to symbol number `m`. -/
theorem lookupSymbol_windowAt {p m : Nat} (hp : paddingOf text ≤ p) (hm : m < windowsLeft text p) :
    lookupSymbol ((tableOf text).map Prod.swap)
      (windowAt (payloadBits (payloadOf text) p) (widthOf text) m) = text[m]? := by
  have hx := List.getElem?_eq_getElem (hm.trans_le (windowsLeft_le hp))
  have hkeys : (((tableOf text).map Prod.swap).map Prod.fst).Nodup := by
    rw [List.map_map]
    exact (codesDiffer_tableOf text).2
  rw [hx, lookupSymbol_eq_some hkeys]
  exact List.mem_map_of_mem (f := Prod.swap) (mem_tableOf_windowAt hp hm hx)

/-! ### DECOMPRESS of a written container -/

theorem withinCap_of_le {cap : Option Nat} {m n : Nat} (h : withinCap cap n = true) (hmn : m ≤ n) :
    withinCap cap m = true := by
  cases cap with
  | none => rfl
  | some c => exact decide_eq_true (hmn.trans (of_decide_eq_true h))

/-- The fields of a written container, its padding byte at `p`, decode to the symbols of the windows left. -/
theorem decodesTo_written (hf : WrittenFields text) {p : Byte} (hp : paddingOf text ≤ p.toNat)
    (hp7 : p.toNat ≤ 7) :
    DecodesTo (parsedStores .empty (BitVec.ofNat 8 (widthOf text)) p (chartOf text).length
      ((tableOf text).map Prod.swap) (payloadOf text)) (text.take (windowsLeft text p.toNat)) := by
  have hlen : (text.take (windowsLeft text p.toNat)).length = windowsLeft text p.toNat :=
    List.length_take_of_le (windowsLeft_le hp)
  have hpos := List.length_pos_of_ne_nil hf.payload
  refine ⟨hf.width_ne, ?_, ?_, fun m hm => ?_⟩
  · show p.toNat ≤ 8 * (payloadOf text).length
    omega
  · show _ = _ / (BitVec.ofNat 8 (widthOf text)).toNat
    rw [hlen, hf.width]
    rfl
  · show lookupSymbol _ (windowAt _ (BitVec.ofNat 8 (widthOf text)).toNat m) = _
    rw [hlen] at hm
    rw [hf.width, List.getElem?_take_of_lt hm]
    exact lookupSymbol_windowAt hp hm

/-- DECOMPRESS of a written container, its padding byte at `p`, delivers the symbols of the windows left. -/
theorem exec_decompress_written (hf : WrittenFields text) (hi : Idle u)
    (hfit : SymbolsFit u.cfg.symw text) {p : Byte} (hp : paddingOf text ≤ p.toNat) (hp7 : p.toNat ≤ 7)
    (hin : u.input = [BitVec.ofNat 8 (widthOf text), p] ++ be32 (chartOf text).length ++ chartOf text ++
      payloadOf text)
    (hcap : withinCap u.cfg.txoCap text.length = true) :
    ∃ v, exec .decompress u = .next v ∧ v.status.word = 0x0002#16 ∧
      v.decoded = text.take (windowsLeft text p.toNat) := by
  have hparse : parseChart u.cfg.symw (chartOf text) (BitVec.ofNat 8 (widthOf text)).toNat =
      some ((tableOf text).map Prod.swap) := by
    rw [hf.width]
    exact parseChart_chartOf hfit
  have hcap' : withinCap u.cfg.txoCap (text.take (windowsLeft text p.toNat)).length = true :=
    withinCap_of_le hcap (List.length_take_le' _ _)
  have hcommit := (exec_decompress_fields hf.chart hin rfl hf.width_ne hp7 (fun h => absurd h hf.payload)
    hparse hi).trans (execUnpack_eq_commit (by exact decodesTo_written hf hp hp7))
  exact ⟨_, hcommit.trans (commitText_eq hcap'), word_finished .unpack, by simp⟩

/-! ### COMPRESS that ended `done` -/

/-- A COMPRESS that ended `done` had a text that fits the fields, and wrote its container. -/
theorem exec_compress_done (hi : Idle s) (h : exec .compress s = .next t) (hd : t.status.done = true) :
    s.text ≠ [] ∧ WrittenFields s.text ∧ t.container = containerOf s.text := by
  obtain ⟨e, q, x, -, rfl⟩ | ⟨he, -, rfl⟩ := exec_compress_next hi h
  · cases hd
  · obtain ⟨hne, hfit⟩ := compressError_eq_none.mp he
    exact ⟨hne, writtenFields hne hfit, by simp⟩

/-- Settles O54: the windows left are those of the padding byte. -/
theorem greaterPaddingCutsTheTextUndetected : Obligations.GreaterPaddingCutsTheTextUndetected := by
  intro s t u p hi hfit h hd hu hsymw hp hp7 hin hcap
  obtain ⟨hne, hf, hcontainer⟩ := exec_compress_done hi h hd
  rw [hcontainer, containerOf_eq] at hin hp
  have hpad : paddingOf s.text ≤ p.toNat := by
    rw [← hf.padding]
    exact hp
  rw [← State.text_length] at hcap
  obtain ⟨v, hv, hword, hdecoded⟩ := exec_decompress_written hf hu (hsymw ▸ hfit) hpad hp7 hin hcap
  refine ⟨v, hv, hword, ?_⟩
  rw [hdecoded, windowsLeft, payloadOf_length, State.text_length]

/-- Settles O36: COMPRESS commits the container, and with its own padding all symbols are left. -/
theorem compressedTextDecompressesToItself : Obligations.CompressedTextDecompressesToItself := by
  refine ⟨fun _ _ => fieldsFit_of_symw_le, fun s hi hlen hfit hfields hcap => ?_⟩
  have hne : s.text ≠ [] := text_ne_nil (by omega)
  have hcap' : withinCap s.cfg.ctoCap (containerOf s.text).length = true := by
    rwa [containerOf, container_packedStores_length]
  have hcommit := exec_compress_of_none hi (compressError_eq_none.mpr ⟨hne, hfields⟩)
  refine ⟨_, hcommit.trans (commitContainer_eq hcap'),
    word_finished .serialize, fun u hu hsymw hin hcap => ?_⟩
  have hf := writtenFields hne hfields
  have hcontainer : u.input = containerOf s.text := by simpa using hin
  rw [← State.text_length] at hcap
  obtain ⟨v, hv, hword, hdecoded⟩ := exec_decompress_written hf hu (hsymw ▸ hfit) hf.padding.ge
    hf.padding_le hcontainer hcap
  rw [hf.padding, windowsLeft_paddingOf, List.take_length] at hdecoded
  exact ⟨v, hv, hword, by rw [← State.decoded_length, hdecoded, State.text_length], hdecoded⟩

/-- Settles O42: a text that is not empty fits the fields, so only EXTRACT's error is left. -/
theorem compressFailsOnlyOnEmptyInput : Obligations.CompressFailsOnlyOnEmptyInput := by
  intro s t hi hsymw hidxw hfit h herr
  by_cases hne : s.text = []
  · have hlen : s.txi.len = 0 := by rw [← State.text_length, hne]; rfl
    rw [exec_compress_empty hi hlen] at h
    cases h
    exact ⟨word_failed_emptyInput, hlen⟩
  · have hnone : compressError s.cfg s.text = none :=
      compressError_eq_none.mpr ⟨hne, fieldsFit_of_symw_le hne hfit hsymw.le (by omega)⟩
    obtain ⟨e, q, x, he, -⟩ | ⟨-, -, rfl⟩ := exec_compress_next hi h
    · rw [hnone] at he
      cases he
    · cases herr

/-! ### What a written container says of its text -/

/-- The alphabet and the library's list of the distinct symbols have the same length. -/
theorem alphabetOf_length_eq (text : List Symbol) : (alphabetOf text).length = text.dedup.length :=
  ((List.perm_ext_iff_of_nodup (alphabetOf_nodup text) text.nodup_dedup).mpr fun _ => by
    rw [mem_alphabetOf, List.mem_dedup]).length_eq

/-- From two symbols on the width is the logarithm alone (rule R137). -/
theorem codeWidth_eq_ite {k : Nat} (h : 1 ≤ k) : codeWidth k = if k = 1 then 1 else clog2 k := by
  split
  · rename_i h1
    rw [h1]
    rfl
  · have hk := le_two_pow_clog2 k
    refine max_eq_right (Nat.one_le_iff_ne_zero.mpr fun h0 => ?_)
    rw [h0] at hk
    omega

/-- The shortest chart has one entry with a key and a value of one bit each. -/
theorem nine_le_chartOf_length (h : text ≠ []) : 9 ≤ (chartOf text).length := by
  have halpha := alphabetOf_length_pos h
  have hkeys := Nat.mul_le_mul halpha (Nat.add_le_add_right (widthOf_pos text) 6)
  have hvalues := List.length_le_sum_of_one_le ((alphabetOf text).map fun x => (minbin x).length)
    fun n hn => by
      obtain ⟨x, -, rfl⟩ := List.mem_map.mp hn
      exact minbin_length_pos x
  rw [List.length_map] at hvalues
  rw [chartOf_length h]
  omega

/-- Settles O37: the fields of `containerOf`, counted. -/
theorem containerHeaderAndLengthFollowTheText :
    Obligations.ContainerHeaderAndLengthFollowTheText := by
  intro s t hi hfit h hd
  obtain ⟨hne, hf, hcontainer⟩ := exec_compress_done hi h hd
  have hregion : ((containerOf s.text).drop 6).take (chartOf s.text).length = chartOf s.text :=
    List.take_left
  have hchart := nine_le_chartOf_length hne
  have hpayload := List.length_pos_of_ne_nil hf.payload
  have hbits := length_add_paddingOf s.text
  have hlen : t.cto.len = 6 + (chartOf s.text).length + (payloadOf s.text).length := by
    rw [← State.container_length, hcontainer, containerOf_length]
  rw [payloadOf_length, State.text_length] at hpayload hbits hlen
  rw [hcontainer, chartSizeField_containerOf hf, hregion, ← alphabetOf_length_eq]
  refine ⟨widthOf s.text, paddingOf s.text, rfl, rfl, codeWidth_eq_ite (alphabetOf_length_pos hne),
    widthOf_pos _, widthOf_le hfit, paddingOf_le _, by omega, hlen,
    ⟨(tableOf s.text).map Prod.swap, parseChart_chartOf hfit, ?_, fun i hi => ?_⟩, hpayload, by omega⟩
  · rw [List.length_map, tableOf, assignCodes_length]
  · rw [List.length_map, tableOf, assignCodes_length] at hi
    have hkey := assignCodes_codes_getElem? (w := widthOf s.text) (i := 0) hi
    rw [Nat.zero_add] at hkey
    rwa [List.map_map]

end Sys2Proof.Machine
end

section
/-! PROOF. What a container says of the text DECOMPRESS delivers: the windows of its payload, and nothing of the
order of its chart's entries (rules R72, R151, R152). -/

namespace Sys2Proof.Machine

variable {s t u : State}

/-! ### The windows of a decoded container -/

/-- A DECOMPRESS that ended `done` came to the last whole window of a container PARSE accepted, and delivered its
decoding. -/
theorem exec_decompress_done (hi : Idle s) (h : exec .decompress s = .next t)
    (hd : t.status.done = true) :
    (parseOf s.cfg.symw s.input).raised = none ∧
      (parseOf s.cfg.symw s.input).stores.decoding.length =
        (parseOf s.cfg.symw s.input).stores.windowCount ∧
      t.decoded = (parseOf s.cfg.symw s.input).stores.decoding := by
  obtain ⟨e, q, d, -, rfl⟩ | ⟨he, -, rfl⟩ := exec_decompress_next hi h
  · cases hd
  · obtain ⟨hr, hall⟩ := decompressError_eq_none.mp he
    exact ⟨hr, hall, by simp⟩

/-- PARSE that completes has stored the fields, the table of the chart and the payload (rules R111, R114, R116). -/
theorem parseStage_completed_fields {symw n : Nat} {d : DecStores} {w p b2 b3 b4 b5 : Byte}
    {rest : List Byte} (hn : n = b2.toNat * 2 ^ 24 + b3.toNat * 2 ^ 16 + b4.toNat * 2 ^ 8 + b5.toNat)
    (hr : (parseStage symw (w :: p :: b2 :: b3 :: b4 :: b5 :: rest) d).raised = none) :
    ∃ table, parseChart symw (rest.take n) w.toNat = some table ∧
      (parseStage symw (w :: p :: b2 :: b3 :: b4 :: b5 :: rest) d).stores =
        parsedStores d w p n table (rest.drop n) := by
  rw [parseStage_eq hn] at hr ⊢
  dsimp only at hr ⊢
  split_ifs at hr ⊢
  cases htable : parseChart symw (rest.take n) w.toNat with
  | none =>
    rw [htable] at hr
    cases hr
  | some table => exact ⟨table, rfl, rfl⟩

/-- Where the loop comes to the last whole window, each window has the decoded symbol as its entry. -/
theorem lookupSymbol_eq_decoding_getElem? {d : DecStores} {m : Nat}
    (hall : d.decoding.length = d.windowCount) (hm : m < d.windowCount) :
    lookupSymbol d.table (windowAt (payloadBits d.payload d.pad.toNat) d.width.toNat m) =
      d.decoding[m]? := by
  rw [← unpadded_eq]
  exact decodeWindows_getElem? hall hm

/-- Settles O50: the whole windows are those of the fields PARSE stored, and each has an entry. -/
theorem decodedTextHasTheWindowsOfItsPayload : Obligations.DecodedTextHasTheWindowsOfItsPayload := by
  intro s t w p b2 b3 b4 b5 rest n hi h hd hin hn
  obtain ⟨hr, hall, hdecoded⟩ := exec_decompress_done hi h hd
  rw [hin] at hr hall hdecoded
  obtain ⟨table, htable, hstores⟩ := parseStage_completed_fields hn hr
  rw [parseOf, hstores] at hall hdecoded
  have hlen : t.txo.len = (parsedStores .empty w p n table (rest.drop n)).windowCount := by
    rw [← State.decoded_length, hdecoded, hall]
  refine ⟨?_, table, htable, fun m hm => ?_⟩
  · rw [hlen, ctiLen_of_input hin, Nat.add_sub_cancel_left, ← List.length_drop]
    rfl
  · rw [hdecoded]
    exact lookupSymbol_eq_decoding_getElem? hall (hlen ▸ hm)

/-! ### The order of the entries -/

/-- The length of a chart with entries: a byte for each character of its keys and values, six more for an entry's
quotes, colon and what follows it, and the opening brace. -/
theorem spelledChart_length {es : List (Bits × Bits)} (hne : es ≠ []) :
    (spelledChart es).length = 1 + (es.map fun e => e.1.length + e.2.length + 6).sum := by
  have hentries : (entriesSpelling es).length + 1 =
      (es.map fun e => e.1.length + e.2.length + 6).sum := by
    induction es with
    | nil => exact absurd rfl hne
    | cons e es ih =>
      cases es with
      | nil => simp [entriesSpelling, entrySpelling_length]
      | cons e' es =>
        have htail := ih (by simp)
        rw [entriesSpelling, List.length_append, entrySpelling_length, List.length_cons, List.map_cons,
          List.sum_cons]
        omega
  rw [spelledChart_eq, List.length_cons, List.length_append, List.length_singleton, hentries, Nat.add_comm]

theorem spelledChart_length_perm {es es' : List (Bits × Bits)} (h : es.Perm es') :
    (spelledChart es).length = (spelledChart es').length := by
  by_cases hne : es = []
  · subst hne
    rw [h.nil_eq]
  · have hne' : es' ≠ [] := fun h' => hne (h' ▸ h).eq_nil
    rw [spelledChart_length hne, spelledChart_length hne', (h.map _).sum_eq]

theorem acceptableEntries_perm {symw w : Nat} {es es' : List (Bits × Bits)} (h : es.Perm es')
    (hok : acceptableEntries symw w es) : acceptableEntries symw w es' := by
  obtain ⟨hfits, hnodup⟩ := acceptableEntries_iff.mp hok
  exact acceptableEntries_iff.mpr
    ⟨fun e he => hfits e (h.mem_iff.mpr he), (h.map Prod.fst).nodup_iff.mp hnodup⟩

/-- Where codes are pairwise different, their order has no say in a lookup (rule R122). -/
theorem lookupSymbol_perm {table table' : List (Bits × Symbol)} (h : table.Perm table')
    (hnodup : (table.map Prod.fst).Nodup) (b : Bits) :
    lookupSymbol table b = lookupSymbol table' b := by
  have hnodup' : (table'.map Prod.fst).Nodup := (h.map Prod.fst).nodup_iff.mp hnodup
  refine Option.ext fun x => ?_
  rw [lookupSymbol_eq_some hnodup, lookupSymbol_eq_some hnodup', h.mem_iff]

/-- Tables with the same lookups decode the same. -/
theorem decodeWindows_congr {table table' : List (Bits × Symbol)}
    (h : ∀ b, lookupSymbol table b = lookupSymbol table' b) (w n : Nat) (bits : Bits) :
    decodeWindows table w n bits = decodeWindows table' w n bits := by
  induction n generalizing bits with
  | zero => rfl
  | succ n ih => simp only [decodeWindows, h, ih]

/-- PARSE of a container given by its fields whose chart is acceptable: only the header can be at fault. -/
theorem parseStage_fields {symw n : Nat} {w p : Byte} {chart payload : List Byte}
    {table : List (Bits × Symbol)} (hn : n < 2 ^ 32) (hlen : chart.length = n)
    (htable : parseChart symw chart w.toNat = some table) (d : DecStores) :
    parseStage symw ([w, p] ++ be32 n ++ chart ++ payload) d =
      if w = 0#8 ∨ 7 < p.toNat then
        ⟨{ d with width := w, pad := p, chartSize := BitVec.ofNat 32 n }, some .invalidHeader⟩
      else if payload = [] ∧ p ≠ 0#8 then
        ⟨{ d with width := w, pad := p, chartSize := BitVec.ofNat 32 n, payload := payload },
          some .invalidHeader⟩
      else ⟨parsedStores d w p n table payload, none⟩ := by
  subst hlen
  have hempty : (chart ++ payload).length = chart.length ∧ p ≠ 0#8 ↔ payload = [] ∧ p ≠ 0#8 := by simp
  refine (parseStage_eq (rest := chart ++ payload) (fromBe32_be32 hn).symm).trans ?_
  dsimp only
  rw [if_neg (by simp : ¬(chart ++ payload).length < chart.length), List.take_left, List.drop_left,
    htable, if_congr hempty rfl rfl]
  rfl

/-- Two containers of which PARSE makes the same but for tables that decode alike are decompressed alike. -/
theorem exec_decompress_congr (hi : Idle s) (hu : Idle u) (hcfg : s.cfg = u.cfg)
    (hraised : (parseOf u.cfg.symw u.input).raised = (parseOf s.cfg.symw s.input).raised)
    (hcount : (parseOf u.cfg.symw u.input).stores.windowCount =
      (parseOf s.cfg.symw s.input).stores.windowCount)
    (hdecoding : (parseOf u.cfg.symw u.input).stores.decoding =
      (parseOf s.cfg.symw s.input).stores.decoding)
    (h : exec .decompress s = .next t) :
    ∃ v, exec .decompress u = .next v ∧ v.status = t.status ∧ v.decoded = t.decoded := by
  cases hr : (parseOf s.cfg.symw s.input).raised with
  | some e =>
    rw [exec_decompress_of_raised hi hr] at h
    cases h
    exact ⟨_, exec_decompress_of_raised hu (hraised.trans hr), by simp, by simp⟩
  | none =>
    have hv := exec_decompress_of_parsed hu (hraised.trans hr)
    rw [exec_decompress_of_parsed hi hr] at h
    dsimp only at h hv
    rw [hcount, hdecoding] at hv
    split at h <;> rename_i hall
    · obtain ⟨hcap, rfl⟩ := commitText_next h
      have hcap' : withinCap u.cfg.txoCap (parseOf s.cfg.symw s.input).stores.decoding.length = true := by
        rw [← congrArg Params.txoCap hcfg]
        exact hcap
      rw [if_pos hall] at hv
      exact ⟨_, hv.trans (commitText_eq hcap'), by simp, by simp⟩
    · cases h
      rw [if_neg hall] at hv
      exact ⟨_, hv, by simp, by simp⟩

/-- Settles O51: PARSE makes the same of both containers but for the order of the table, and no lookup sees it. -/
theorem chartEntryOrderDoesNotMatter : Obligations.ChartEntryOrderDoesNotMatter := by
  intro s u t w p n entries entries' payload hi hu hcfg hperm hok hn hn32 hins hinu h
  have htable := parseChart_spelledChart.mpr ⟨hok, rfl⟩
  have htable' := parseChart_spelledChart.mpr ⟨acceptableEntries_perm hperm hok, rfl⟩
  have hs := parseStage_fields (p := p) (payload := payload) hn32 hn.symm htable .empty
  have hu' := parseStage_fields (p := p) (payload := payload) hn32
    ((spelledChart_length_perm hperm).symm.trans hn.symm) htable' .empty
  rw [← hins] at hs
  rw [← hinu, hcfg] at hu'
  have hlookup := lookupSymbol_perm (hperm.map fun e => (e.1, symbolOfBits e.2))
    (parseChart_tableFits htable).2.1
  refine exec_decompress_congr hi hu hcfg ?_ ?_ ?_ h <;> rw [parseOf, parseOf, hs, hu']
  · split_ifs <;> rfl
  · split_ifs <;> rfl
  · split_ifs
    · rfl
    · rfl
    · exact (decodeWindows_congr hlookup _ _ _).symm

end Sys2Proof.Machine
end

section
/-! PROOF. Corruption of a written container: a cut or a change of its header, and a change of a key of its chart
(rule R141). -/

namespace Sys2Proof.Machine

variable {s t u : State} {text : List Symbol} {e : CodecError}

/-! ### Errors of DECOMPRESS on a container given by its fields -/

/-- An error of PARSE's work is DECOMPRESS's. -/
theorem decompressFails_of_raised (hi : Idle u)
    (h : (parseStage u.cfg.symw u.input .empty).raised = some e) : DecompressFails u e :=
  (decompressEndsWithTheFirstError.1 u e hi (parseRaises_of_raised (s := startDecompress u) h)).1

theorem decompressFails_short (hi : Idle u) (h : u.input.length < 6) :
    DecompressFails u .truncatedHeader :=
  decompressFails_of_raised hi (by rw [parseStage_short h])

section Fields
variable {w p : Byte} {n : Nat} {rest : List Byte} (hi : Idle u)
  (hin : u.input = [w, p] ++ be32 n ++ rest) (hn : n < 2 ^ 32)
include hin hn

/-- DECOMPRESS starts PARSE with group X emptied. -/
theorem parseStage_raised_at_start :
    (parseStage u.cfg.symw u.input .empty).raised =
      if w = 0#8 ∨ 7 < p.toNat then some .invalidHeader
      else if rest.length < n then some .truncatedChart
      else if rest.length = n ∧ p ≠ 0#8 then some .invalidHeader
      else if parseChart u.cfg.symw (rest.take n) w.toNat = none then some .malformedChart
      else none :=
  parseStage_raised_fields (s := startDecompress u) hin hn

include hi

theorem decompressFails_header (h : w = 0#8 ∨ 7 < p.toNat) : DecompressFails u .invalidHeader :=
  decompressFails_of_raised hi ((parseStage_raised_at_start hin hn).trans (if_pos h))

/-- With a header in range, the chart's length decides, then the padding of an empty payload, then the chart. -/
theorem decompressFails_chart (hw : w ≠ 0#8) (hp : p.toNat ≤ 7)
    (hchart : n ≤ rest.length → parseChart u.cfg.symw (rest.take n) w.toNat = none) :
    DecompressFails u (if rest.length < n then .truncatedChart
      else if rest.length = n ∧ p ≠ 0#8 then .invalidHeader else .malformedChart) := by
  refine decompressFails_of_raised hi ((parseStage_raised_at_start hin hn).trans ?_)
  rw [if_neg (not_or.mpr ⟨hw, Nat.not_lt.mpr hp⟩)]
  split
  · rfl
  · rename_i hlen
    rw [if_pos (hchart (Nat.le_of_not_lt hlen))]
    split <;> rfl

/-- With a header in range and bytes behind the chart, only the chart can be at fault. -/
theorem decompressFails_malformed (hw : w ≠ 0#8) (hp : p.toNat ≤ 7) (hlt : n < rest.length)
    (hchart : parseChart u.cfg.symw (rest.take n) w.toNat = none) : DecompressFails u .malformedChart := by
  have hfails := decompressFails_chart hi hin hn hw hp fun _ => hchart
  rwa [if_neg hlt.not_gt, if_neg fun h => hlt.ne' h.1] at hfails

end Fields

/-- A window of an accepted container without an entry ends DECOMPRESS by UnknownCodeError. -/
theorem decompressFails_window {w p : Byte} {n m : Nat} {chart payload : List Byte}
    {table : List (Bits × Symbol)} (hi : Idle u) (hin : u.input = [w, p] ++ be32 n ++ chart ++ payload)
    (hn : n < 2 ^ 32) (hlen : chart.length = n) (hw : w ≠ 0#8) (hp : p.toNat ≤ 7)
    (hempty : payload = [] → p = 0#8) (htable : parseChart u.cfg.symw chart w.toNat = some table)
    (hm : m < (8 * payload.length - p.toNat) / w.toNat)
    (hnone : lookupSymbol table (windowAt (payloadBits payload p.toNat) w.toNat m) = none) :
    DecompressFails u .unknownCode := by
  subst hlen
  refine (decompressEndsWithTheFirstError.2 u w p _ _ _ _ (chart ++ payload) _ m table hi hin
    (fromBe32_be32 hn).symm hw hp (by simp) (fun h => hempty (by simpa using h))
    (by rwa [List.take_left]) (by simpa using hm) ?_).1
  rwa [List.drop_left]

/-! ### The header -/

/-- The table of a text that is not empty has codes of no other width. -/
theorem not_codesDiffer_tableOf {w : Nat} (hne : text ≠ []) (hw : w ≠ widthOf text) :
    ¬codesDiffer w (tableOf text) := by
  rintro ⟨hcodes, -⟩
  have hpos : tableOf text ≠ [] :=
    List.ne_nil_of_length_pos ((assignCodes_length _ _ _).symm ▸ alphabetOf_length_pos hne)
  obtain ⟨e, he⟩ := List.exists_mem_of_ne_nil _ hpos
  exact hw ((hcodes e he).symm.trans ((codesDiffer_tableOf text).1 e he))

/-- Settles O52: each corruption leaves the fields readable, and the first test that fails names the error; another
width meets codes of the wrong length, another chartSize a cut that is no chart. -/
theorem corruptedHeaderIsDetected : Obligations.CorruptedHeaderIsDetected := by
  intro s t u hi hfit h hd hu hsymw
  obtain ⟨hne, hf, hcontainer⟩ := exec_compress_done hi h hd
  have hlen : (chartOf s.text ++ payloadOf s.text).length =
    (chartOf s.text).length + (payloadOf s.text).length := List.length_append
  have hpos := List.length_pos_of_ne_nil hf.payload
  rw [hcontainer, chartSizeField_containerOf hf]
  refine ⟨fun n hn hin => ?cutHeader, fun n hn hn' hin => ?cutChart, fun b hb hin => ?width,
    fun b hb hin => ?padding, fun n hne' hn hin => ?chartSize⟩
  case cutHeader =>
    exact decompressFails_short hu (by rw [hin, List.length_take]; omega)
  case cutChart =>
    obtain ⟨k, rfl⟩ := Nat.exists_eq_add_of_le' hn
    have hin' : u.input = [BitVec.ofNat 8 (widthOf s.text), BitVec.ofNat 8 (paddingOf s.text)] ++
      be32 (chartOf s.text).length ++ (chartOf s.text ++ payloadOf s.text).take k := hin
    have hk : ((chartOf s.text ++ payloadOf s.text).take k).length < (chartOf s.text).length := by
      rw [List.length_take]
      omega
    have hfails := decompressFails_chart hu hin' hf.chart hf.width_ne hf.padding_le
      fun h => absurd h (Nat.not_le.mpr hk)
    rwa [if_pos hk] at hfails
  case width =>
    have hin' : u.input = [b, BitVec.ofNat 8 (paddingOf s.text)] ++ be32 (chartOf s.text).length ++
      (chartOf s.text ++ payloadOf s.text) := hin
    split
    · exact decompressFails_header hu hin' hf.chart (.inl ‹_›)
    · have hbw : b.toNat ≠ widthOf s.text := fun hbw => hb (BitVec.eq_of_toNat_eq (hbw.trans hf.width.symm))
      refine decompressFails_malformed hu hin' hf.chart ‹_› hf.padding_le (by omega) ?_
      rw [List.take_left, hsymw]
      exact parseChart_chartText_eq_none hfit.tableOf (not_codesDiffer_tableOf hne hbw)
  case padding =>
    exact decompressFails_header hu (rest := chartOf s.text ++ payloadOf s.text) hin hf.chart (.inr hb)
  case chartSize =>
    have hfails := decompressFails_chart hu (rest := chartOf s.text ++ payloadOf s.text) hin hn
      hf.width_ne hf.padding_le fun h => parseChart_take_eq_none h hne'
    have hcut : (containerOf s.text).length < 6 + n ↔
        (chartOf s.text ++ payloadOf s.text).length < n := by
      rw [containerOf_length]
      omega
    have hall : n = (containerOf s.text).length - 6 ↔
        (chartOf s.text ++ payloadOf s.text).length = n := by
      rw [containerOf_length]
      omega
    rw [if_congr hcut rfl (if_congr (and_congr_left fun _ => hall) rfl rfl)]
    exact hfails

/-! ### A key of the chart -/

/-- The codes of a table differ where one code has the width and is new to the others, whose codes differ. -/
theorem codesDiffer_middle {w : Nat} {l r : List (Symbol × Bits)} {e : Symbol × Bits} :
    codesDiffer w (l ++ e :: r) ↔
      e.2.length = w ∧ e.2 ∉ (l ++ r).map Prod.snd ∧ codesDiffer w (l ++ r) := by
  have hmem : (∀ x ∈ l ++ e :: r, x.2.length = w) ↔ e.2.length = w ∧ ∀ x ∈ l ++ r, x.2.length = w := by
    simp only [List.perm_middle.mem_iff, List.forall_mem_cons]
  have hnodup : ((l ++ e :: r).map Prod.snd).Nodup ↔
      e.2 ∉ (l ++ r).map Prod.snd ∧ ((l ++ r).map Prod.snd).Nodup := by
    rw [(List.perm_middle.map Prod.snd).nodup_iff, List.map_cons, List.nodup_cons]
  rw [codesDiffer, codesDiffer, hmem, hnodup]
  tauto

theorem mem_map_snd_middle {l r : List (Symbol × Bits)} {e : Symbol × Bits} {c : Bits} :
    c ∈ (l ++ e :: r).map Prod.snd ↔ c = e.2 ∨ c ∈ (l ++ r).map Prod.snd := by
  rw [(List.perm_middle.map Prod.snd).mem_iff, List.map_cons, List.mem_cons]

/-- Another code of the same width leaves the chart's length (rule R74). -/
theorem chartText_length_middle {l r : List (Symbol × Bits)} {x : Symbol} {c c' : Bits}
    (h : c'.length = c.length) :
    (chartText (l ++ (x, c') :: r)).length = (chartText (l ++ (x, c) :: r)).length := by
  rw [chartText_eq, chartText_eq, spelledChart_length (by simp), spelledChart_length (by simp)]
  simp [chartEntry, h]

section OtherCode
variable {l r : List (Symbol × Bits)} {x : Symbol} {c c' : Bits} (hf : WrittenFields text)
  (hfit : SymbolsFit u.cfg.symw text) (hi : Idle u) (htable : tableOf text = l ++ (x, c) :: r)
  (hlen : c'.length = c.length) (hne : c' ≠ c)

include hfit htable in
/-- Another code leaves the symbols. -/
theorem symbolsFit_otherCode : SymbolsFit u.cfg.symw ((l ++ (x, c') :: r).map Prod.fst) := by
  have hfst : (l ++ (x, c') :: r).map Prod.fst = (tableOf text).map Prod.fst := by
    rw [htable]
    simp
  rw [hfst]
  exact hfit.tableOf

variable (hin : u.input = [BitVec.ofNat 8 (widthOf text), BitVec.ofNat 8 (paddingOf text)] ++
  be32 (chartOf text).length ++ chartText (l ++ (x, c') :: r) ++ payloadOf text)
include hf hfit hi htable hlen hin

/-- A written container with a code of another entry in an entry of its chart. -/
theorem decompressFails_repeatedCode (hdup : c' ∈ (l ++ r).map Prod.snd) :
    DecompressFails u .malformedChart := by
  have hchart : (chartText (l ++ (x, c') :: r)).length = (chartOf text).length := by
    rw [chartOf, htable, chartText_length_middle hlen]
  have hpos := List.length_pos_of_ne_nil hf.payload
  refine decompressFails_malformed hi (rest := chartText (l ++ (x, c') :: r) ++ payloadOf text) hin hf.chart
    hf.width_ne hf.padding_le (by rw [List.length_append]; omega) ?_
  rw [← hchart, List.take_left]
  refine parseChart_chartText_eq_none (symbolsFit_otherCode hfit htable) fun hcodes => ?_
  obtain ⟨-, hnew, -⟩ := codesDiffer_middle.mp hcodes
  exact hnew hdup

include hne

/-- A written container with a new code in an entry of its chart: the old code is a window of the payload, and has
no entry any more. -/
theorem decompressFails_newCode (hnew : c' ∉ (l ++ r).map Prod.snd) : DecompressFails u .unknownCode := by
  have hchart : (chartText (l ++ (x, c') :: r)).length = (chartOf text).length := by
    rw [chartOf, htable, chartText_length_middle hlen]
  have hcodes := codesDiffer_tableOf text
  rw [htable, codesDiffer_middle] at hcodes
  obtain ⟨hcw, hc, hothers⟩ := hcodes
  have hparse : parseChart u.cfg.symw (chartText (l ++ (x, c') :: r))
      (BitVec.ofNat 8 (widthOf text)).toNat = some ((l ++ (x, c') :: r).map Prod.swap) := by
    rw [hf.width]
    exact (parseChart_chartText (symbolsFit_otherCode hfit htable)).mpr
      ⟨codesDiffer_middle.mpr ⟨hlen.trans hcw, hnew, hothers⟩, rfl⟩
  obtain ⟨m, hm, hwindow⟩ := exists_windowAt_eq (text := text) (x := x) (c := c) (by rw [htable]; simp)
  refine decompressFails_window hi hin hf.chart hchart hf.width_ne hf.padding_le
    (fun h => absurd h hf.payload) hparse (m := m) ?_ ?_ <;> rw [hf.width, hf.padding]
  · exact hm
  · rw [hwindow, lookupSymbol_eq_none_iff_fst_ne]
    rintro e he hec
    obtain ⟨e', he', rfl⟩ := List.mem_map.mp he
    have hmem : c ∈ (l ++ (x, c') :: r).map Prod.snd := hec ▸ List.mem_map_of_mem he'
    exact (mem_map_snd_middle.mp hmem).elim hne.symm hc

end OtherCode

/-- Settles O53: the flipped key is another code of the same width. -/
theorem corruptedKeyIsDetected : Obligations.CorruptedKeyIsDetected := by
  intro s t u i j x key b hi hfit h hd hu hsymw hentry hbit hin
  obtain ⟨-, hf, hcontainer⟩ := exec_compress_done hi h hd
  obtain ⟨hlt, hget⟩ := List.getElem?_eq_some_iff.mp hentry
  obtain ⟨l, r, htable, -, hset⟩ := List.exists_of_set (a' := (x, key.set j (!b))) hlt
  rw [hget] at htable
  have hflip : key.set j (!b) ≠ key := fun heq => by
    have hj := List.getElem?_set_self (a := !b) (List.getElem?_eq_some_iff.mp hbit).1
    rw [heq, hbit] at hj
    simp at hj
  rw [hcontainer, chartSizeField_containerOf hf, hset] at hin
  have hpayload : (containerOf s.text).drop (6 + (chartOf s.text).length) = payloadOf s.text := by
    rw [← List.drop_drop]
    exact List.drop_left
  rw [hpayload] at hin
  have hmem : key.set j (!b) ∈ (tableOf s.text).map Prod.snd ↔ key.set j (!b) ∈ (l ++ r).map Prod.snd := by
    rw [htable, mem_map_snd_middle, or_iff_right hflip]
  rw [if_congr hmem rfl rfl]
  split
  · exact decompressFails_repeatedCode hf (hsymw ▸ hfit) hu htable List.length_set hin ‹_›
  · exact decompressFails_newCode hf (hsymw ▸ hfit) hu htable List.length_set hflip hin ‹_›

end Sys2Proof.Machine
end
